-- ==== Sys2Proof/Word.lean ====
section
/-! DEFINITION. The words of the block: a byte, and the 16-bit value that a window bound, a colour, a pixel and a
conversion response are (spec/00_scope.md R8). -/

namespace Sys2Proof

/-- "A byte is 8 bits." (R8) -/
abbrev Byte := BitVec 8

/-- A 16-bit value: a colour, a window bound, a result register (R8, R25 to R27). -/
abbrev Half := BitVec 16

end Sys2Proof
end

