-- ==== Sys2Proof/Config.lean ====
section
/-! DEFINITION. The parameters of the block (spec/00_scope.md R6), the constraints on them (R7), the configuration
that State.reset is constructed with, and the free values of the environment.

R20 (a), R21 and R22 count the parameters among the block's state: they are the record cfg of State, so that a
statement about every state is a statement about every configuration. -/

namespace Sys2Proof

/-- An electrical level, for the two parameters no rule reads (R24). -/
inductive Electrical where
  | low
  | high
  deriving DecidableEq, Repr

/-- One (opcode, payload) pair of INIT_TABLE (spec/10_state.md R22). -/
structure InitEntry where
  op : Byte
  payload : List Byte
  deriving DecidableEq, Repr

/-- The parameters of R6, fixed at construction and never changed afterwards (R21, R22). -/
structure Config where
  /-- PANEL_W. -/
  panelW : Nat
  /-- PANEL_H. -/
  panelH : Nat
  /-- ROTATION: stored, read by no rule (D6). -/
  rotation : Int
  /-- HAS_RST: the optional reset line is present. -/
  hasRst : Bool
  /-- CHUNK: pixels per data transfer. -/
  chunk : Nat
  /-- BG_DEFAULT: the background D.TEXTD draws with. -/
  bgDefault : Half
  /-- INIT_TABLE. -/
  initTable : List InitEntry
  /-- FONT: 256 entries of 8 bytes. -/
  font : List (List Byte)
  /-- OP_CASET. -/
  opCaset : Byte
  /-- OP_RASET. -/
  opRaset : Byte
  /-- OP_RAMWR. -/
  opRamwr : Byte
  /-- OP_SLPOUT. -/
  opSlpout : Byte
  /-- OP_DISPON. -/
  opDispon : Byte
  /-- OP_CONV_X. -/
  opConvX : Byte
  /-- OP_CONV_Y. -/
  opConvY : Byte
  /-- CAL_X0. -/
  calX0 : Int
  /-- CAL_Y0. -/
  calY0 : Int
  /-- CAL_X1. -/
  calX1 : Int
  /-- CAL_Y1. -/
  calY1 : Int
  /-- CS_ACTIVE_LEVEL: read by no rule (R24). -/
  csActiveLevel : Electrical
  /-- DC_CMD_LEVEL: read by no rule (R24). -/
  dcCmdLevel : Electrical
  deriving DecidableEq, Repr

/-- The table's range of a calibration scalar: [−32768, 32767] (R6). -/
def Config.calInRange (v : Int) : Bool := decide (-32768 ≤ v) && decide (v ≤ 32767)

/-- FONT is a table of 256 entries of 8 bytes (spec/10_state.md R22). -/
def Config.fontOk (f : List (List Byte)) : Bool := f.length == 256 && f.all (fun g => g.length == 8)

/-- The constraints of R6 and R7. "A configuration that breaks one ... is not a configuration of this hardware". -/
def Config.valid (c : Config) : Bool :=
  decide (1 ≤ c.panelW) && decide (c.panelW ≤ 32767) && decide (1 ≤ c.panelH) && decide (c.panelH ≤ 32767)
    && decide (1 ≤ c.chunk) && c.opCaset != c.opRaset && c.opCaset != c.opRamwr && c.opRaset != c.opRamwr
    && Config.calInRange c.calX0 && Config.calInRange c.calY0 && Config.calInRange c.calX1
    && Config.calInRange c.calY1 && decide (c.calX1 ≠ c.calX0) && decide (c.calY1 ≠ c.calY0)
    && Config.fontOk c.font

/-- The seven wire opcodes can be told apart on their own target. R7 asks this of the three window opcodes only. -/
def Config.wireDistinct (c : Config) : Bool :=
  decide ([c.opCaset, c.opRaset, c.opRamwr, c.opSlpout, c.opDispon].Nodup) && c.opConvX != c.opConvY

/-- The test font of spec/95_test_vectors.md: four codes, "every other code = eight zero bytes". -/
def Config.testGlyph (code : Nat) : List Byte :=
  if code = 0x41 then [0x18, 0x3C, 0x66, 0x66, 0x7E, 0x66, 0x66, 0x00]
  else if code = 0x48 then [0x66, 0x66, 0x66, 0x7E, 0x66, 0x66, 0x66, 0x00]
  else if code = 0x69 then [0x18, 0x00, 0x38, 0x18, 0x18, 0x18, 0x3C, 0x00]
  else if code = 0x01 then [0x80, 0x01, 0xAA, 0x55, 0xFF, 0x00, 0xF0, 0x0F]
  else [0, 0, 0, 0, 0, 0, 0, 0]

/-- The configuration TC1 of spec/95_test_vectors.md, with the opcode defaults of R6. DESIGN CHOICE (log 1), unsafe: the
parameters are OPEN; this is the one State.reset is constructed with. TC1 and R6 give no value to three of them: that
rotation is 0 and that both electrical levels, csActiveLevel and dcCmdLevel, are low is the model's own DESIGN CHOICE
(log 1); no rule reads them. -/
def Config.tc1 : Config where
  panelW := 240
  panelH := 320
  rotation := 0
  hasRst := true
  chunk := 1024
  bgDefault := 0x0000
  initTable := [⟨0x3A, [0x55]⟩, ⟨0x36, [0x48]⟩]
  font := (List.range 256).map Config.testGlyph
  opCaset := 0x2A
  opRaset := 0x2B
  opRamwr := 0x2C
  opSlpout := 0x11
  opDispon := 0x29
  opConvX := 0xD0
  opConvY := 0x90
  calX0 := 200
  calY0 := 200
  calX1 := 3800
  calY1 := 3800
  csActiveLevel := .low
  dcCmdLevel := .low

/-- The configuration TC2 of spec/95_test_vectors.md: an 8 × 8 panel, chunks of 4, no reset line. -/
def Config.tc2 : Config := { Config.tc1 with panelW := 8, panelH := 8, hasRst := false, chunk := 4 }

/-- The configuration TC3 of spec/95_test_vectors.md: both calibration axes inverted. -/
def Config.tc3 : Config := { Config.tc1 with calX0 := 3800, calY0 := 3700, calX1 := 300, calY1 := 250 }

/-- FREE VALUE (log 11), safe: byte `k` that transport call number `call` reads back where the environment's script
names none ("`rs` is chosen by the environment", R13; "any value", U9). -/
opaque Config.freeReadback (call k : Nat) : Byte

end Sys2Proof
end

