-- ==== Sys2Proof/Syntax.lean ====
section
/-! DEFINITION. The operations: one constructor per row of spec/opcode_table.json (spec/30_encoding.md R116 for the
twelve host operations, R103 and R113 for the seven wire commands). Operands are the decoded values of R118:
integers for the s16 fields, bytes and 16-bit words for the others. -/

namespace Sys2Proof

/-- The two selectable targets of the transport (spec/20_memory.md R61). -/
inductive Target where
  | panel
  | digitizer
  deriving DecidableEq, Repr

/-- One instruction: a host operation, or one frame of the wire layer. -/
inductive Instr where
  /-- D.RESET (R141). -/
  | dReset
  /-- D.INIT (R142). -/
  | dInit
  /-- D.WRCMD op, payload (R143). -/
  | dWrcmd (op : Byte) (payload : List Byte)
  /-- D.SETWIN x0, y0, x1, y1 (R161). -/
  | dSetwin (x0 y0 x1 y1 : Int)
  /-- D.FILLRECT x, y, w, h, color (R162). -/
  | dFillrect (x y w h : Int) (color : Half)
  /-- D.GLYPH ch, x, y, fg, bg (R182). -/
  | dGlyph (ch : Byte) (x y : Int) (fg bg : Half)
  /-- D.TEXT x, y, fg, bg, text (R183). -/
  | dText (x y : Int) (fg bg : Half) (text : List Byte)
  /-- D.TEXTD x, y, fg, text (R184). -/
  | dTextd (x y : Int) (fg : Half) (text : List Byte)
  /-- D.CPACK r, g, b (R164). -/
  | dCpack (r g b : Byte)
  /-- T.SAMPLE (R203). -/
  | tSample
  /-- T.GETTOUCH (R204). -/
  | tGettouch
  /-- T.NORM rawX, rawY (R207). -/
  | tNorm (rawX rawY : Int)
  /-- wire.CASET x0, x1: the column-address-set frame (R104). -/
  | wireCaset (x0 x1 : Half)
  /-- wire.RASET y0, y1: the row-address-set frame (R105). -/
  | wireRaset (y0 y1 : Half)
  /-- wire.RAMWR: the memory-write frame (R106). -/
  | wireRamwr
  /-- wire.SLPOUT: the sleep-out frame (R107). -/
  | wireSlpout
  /-- wire.DISPON: the display-on frame (R107). -/
  | wireDispon
  /-- wire.CONV_X: the X conversion request frame (R113). -/
  | wireConvX
  /-- wire.CONV_Y: the Y conversion request frame (R113). -/
  | wireConvY
  deriving DecidableEq, Repr

/-- The two layers of encoding (spec/30_encoding.md, head): a host operation is a descriptor, the others are frames. -/
def Instr.isHost : Instr → Bool
  | .dReset | .dInit | .dWrcmd _ _ | .dSetwin _ _ _ _ | .dFillrect _ _ _ _ _ => true
  | .dGlyph _ _ _ _ _ | .dText _ _ _ _ _ | .dTextd _ _ _ _ | .dCpack _ _ _ => true
  | .tSample | .tGettouch | .tNorm _ _ => true
  | .wireCaset _ _ | .wireRaset _ _ | .wireRamwr | .wireSlpout | .wireDispon => false
  | .wireConvX | .wireConvY => false

/-- The target of a frame or of the frames an operation sends: the unit that owns it (R116, opcode_table.json). -/
def Instr.target : Instr → Target
  | .dReset | .dInit | .dWrcmd _ _ | .dSetwin _ _ _ _ | .dFillrect _ _ _ _ _ => .panel
  | .dGlyph _ _ _ _ _ | .dText _ _ _ _ _ | .dTextd _ _ _ _ | .dCpack _ _ _ => .panel
  | .tSample | .tGettouch | .tNorm _ _ => .digitizer
  | .wireCaset _ _ | .wireRaset _ _ | .wireRamwr | .wireSlpout | .wireDispon => .panel
  | .wireConvX | .wireConvY => .digitizer

end Sys2Proof
end

