-- ==== Sys2Proof/WellFormed.lean ====
section
/-! DEFINITION. Which instructions a descriptor can carry (spec/30_encoding.md R115, R118): an s16 operand lies in
[−32768, 32767], and the length byte of a payload or a text in [0, 255]. The other operands are bounded by their
types. The operation rules themselves hold for all integers (R118). -/

namespace Sys2Proof

/-- The range of an s16 field (R118). -/
def s16InRange (v : Int) : Bool := decide (-32768 ≤ v) && decide (v ≤ 32767)

/-- The range of the u8 length byte of a variable part (R115, R121). -/
def lengthInRange (bs : List Byte) : Bool := decide (bs.length ≤ 255)

/-- The instruction has an encoding: every operand fits its field (R118). -/
def Instr.wellFormed : Instr → Bool
  | .dReset => true
  | .dInit => true
  | .dWrcmd _ payload => lengthInRange payload
  | .dSetwin x0 y0 x1 y1 => s16InRange x0 && s16InRange y0 && s16InRange x1 && s16InRange y1
  | .dFillrect x y w h _ => s16InRange x && s16InRange y && s16InRange w && s16InRange h
  | .dGlyph _ x y _ _ => s16InRange x && s16InRange y
  | .dText x y _ _ text => s16InRange x && s16InRange y && lengthInRange text
  | .dTextd x y _ text => s16InRange x && s16InRange y && lengthInRange text
  | .dCpack _ _ _ => true
  | .tSample => true
  | .tGettouch => true
  | .tNorm rawX rawY => s16InRange rawX && s16InRange rawY
  | .wireCaset _ _ => true
  | .wireRaset _ _ => true
  | .wireRamwr => true
  | .wireSlpout => true
  | .wireDispon => true
  | .wireConvX => true
  | .wireConvY => true

end Sys2Proof
end

