-- ==== Sys2Proof/Decode.lean ====
section
/-! DEFINITION. The decoders and the encoder (spec/30_encoding.md). There are two layers: a host descriptor (R115 to
R121) is read by `decode`, a frame on the transport (R100 to R108, R113) by `decodeFrame`, whose opcodes are the
configuration's. Both are total and refuse by name. Byte-order helpers: spec/00_scope.md R12. -/

namespace Sys2Proof

/-- `hi8(v) = v >> 8` (R12). -/
def hi8 (v : Half) : Byte := v.extractLsb' 8 8

/-- `lo8(v) = v & 0xFF` (R12). -/
def lo8 (v : Half) : Byte := v.extractLsb' 0 8

/-- `be16(v) = [hi8(v), lo8(v)]`, most significant byte first (R12, R63). -/
def be16 (v : Half) : List Byte := [hi8 v, lo8 v]

/-- `unbe16(a, b) = (a << 8) | b` (R12). -/
def unbe16 (a b : Byte) : Half := a ++ b

/-- An s16 field with bytes a, b: `sext_16(unbe16(a, b))` (R118). -/
def s16 (a b : Byte) : Int :=
  let v := (unbe16 a b).toNat
  if v < 32768 then (v : Int) else (v : Int) - 65536

/-- The two bytes of an s16 field: big-endian two's complement (R115). -/
def s16Bytes (v : Int) : List Byte := be16 (BitVec.ofInt 16 v)

/-- Why a byte sequence is no instruction (R119). -/
inductive DecodeError where
  /-- An empty descriptor. -/
  | empty
  /-- HOP is not one of the twelve values of R116. -/
  | reservedHop
  /-- Shorter than its HOP's layout needs. -/
  | tooShort
  /-- Bytes after the end of its layout. -/
  | trailingBytes
  /-- A frame that is none of the seven wire commands of R103 and R113. -/
  | unknownFrame
  deriving DecidableEq, Repr

/-- The refusal of a fixed-length layout of `want` bytes after byte 0, of which `have'` are there (R119). -/
def lengthError (have' want : Nat) : DecodeError := if have' < want then .tooShort else .trailingBytes

/-- A variable part of `n` bytes (R121): all of it and nothing after it. -/
def exactly (n : Byte) (bs : List Byte) (i : Instr) : Except DecodeError Instr :=
  if bs.length = n.toNat then .ok i else .error (lengthError bs.length n.toNat)

/-- An operation with no operand: nothing after HOP. -/
def decodeNullary (i : Instr) (rest : List Byte) : Except DecodeError Instr :=
  match rest with
  | [] => .ok i
  | _ :: _ => .error .trailingBytes

/-- D.WRCMD after HOP: op, n, payload (R117). -/
def decodeWrcmd : List Byte → Except DecodeError Instr
  | op :: n :: payload => exactly n payload (.dWrcmd op payload)
  | _ => .error .tooShort

/-- D.SETWIN after HOP: x0, y0, x1, y1, each s16 (R117). -/
def decodeSetwin : List Byte → Except DecodeError Instr
  | [x0h, x0l, y0h, y0l, x1h, x1l, y1h, y1l] =>
    .ok (.dSetwin (s16 x0h x0l) (s16 y0h y0l) (s16 x1h x1l) (s16 y1h y1l))
  | bs => .error (lengthError bs.length 8)

/-- D.FILLRECT after HOP: x, y, w, h, each s16, and color, u16 (R117). -/
def decodeFillrect : List Byte → Except DecodeError Instr
  | [xh, xl, yh, yl, wh, wl, hh, hl, ch, cl] =>
    .ok (.dFillrect (s16 xh xl) (s16 yh yl) (s16 wh wl) (s16 hh hl) (unbe16 ch cl))
  | bs => .error (lengthError bs.length 10)

/-- D.GLYPH after HOP: ch, u8; x, y, s16; fg, bg, u16 (R117). -/
def decodeGlyph : List Byte → Except DecodeError Instr
  | [ch, xh, xl, yh, yl, fh, fl, bh, bl] =>
    .ok (.dGlyph ch (s16 xh xl) (s16 yh yl) (unbe16 fh fl) (unbe16 bh bl))
  | bs => .error (lengthError bs.length 9)

/-- D.TEXT after HOP: x, y, s16; fg, bg, u16; n, u8; text (R117). -/
def decodeText : List Byte → Except DecodeError Instr
  | xh :: xl :: yh :: yl :: fh :: fl :: bh :: bl :: n :: text =>
    exactly n text (.dText (s16 xh xl) (s16 yh yl) (unbe16 fh fl) (unbe16 bh bl) text)
  | _ => .error .tooShort

/-- D.TEXTD after HOP: x, y, s16; fg, u16; n, u8; text (R117). -/
def decodeTextd : List Byte → Except DecodeError Instr
  | xh :: xl :: yh :: yl :: fh :: fl :: n :: text =>
    exactly n text (.dTextd (s16 xh xl) (s16 yh yl) (unbe16 fh fl) text)
  | _ => .error .tooShort

/-- D.CPACK after HOP: r, g, b, each u8 (R117). -/
def decodeCpack : List Byte → Except DecodeError Instr
  | [r, g, b] => .ok (.dCpack r g b)
  | bs => .error (lengthError bs.length 3)

/-- T.NORM after HOP: rawX, rawY, each s16 (R117). -/
def decodeNorm : List Byte → Except DecodeError Instr
  | [xh, xl, yh, yl] => .ok (.tNorm (s16 xh xl) (s16 yh yl))
  | bs => .error (lengthError bs.length 4)

/-- The host descriptor decoder (R115 to R119, R121): byte 0 is the host opcode HOP. -/
def decode : List Byte → Except DecodeError Instr
  | [] => .error .empty
  | hop :: rest =>
    if hop = 0x01 then decodeNullary .dReset rest
    else if hop = 0x02 then decodeNullary .dInit rest
    else if hop = 0x03 then decodeWrcmd rest
    else if hop = 0x04 then decodeSetwin rest
    else if hop = 0x05 then decodeFillrect rest
    else if hop = 0x06 then decodeGlyph rest
    else if hop = 0x07 then decodeText rest
    else if hop = 0x08 then decodeTextd rest
    else if hop = 0x09 then decodeCpack rest
    else if hop = 0x10 then decodeNullary .tSample rest
    else if hop = 0x11 then decodeNullary .tGettouch rest
    else if hop = 0x12 then decodeNorm rest
    else .error .reservedHop

/-- A command frame read by its bytes on the transport: the opcode, then its payload (R101, R103 to R107). -/
def decodePanelFrame (c : Config) : List Byte → Except DecodeError Instr
  | [] => .error .empty
  | [op, a, b, d, e] =>
    if op = c.opCaset then .ok (.wireCaset (unbe16 a b) (unbe16 d e))
    else if op = c.opRaset then .ok (.wireRaset (unbe16 a b) (unbe16 d e))
    else .error .unknownFrame
  | [op] =>
    if op = c.opRamwr then .ok .wireRamwr
    else if op = c.opSlpout then .ok .wireSlpout
    else if op = c.opDispon then .ok .wireDispon
    else .error .unknownFrame
  | _ => .error .unknownFrame

/-- A conversion request frame read by the bytes sent: the opcode and two zero bytes (R113). -/
def decodeTouchFrame (c : Config) : List Byte → Except DecodeError Instr
  | [] => .error .empty
  | [op, a, b] =>
    if a = 0 ∧ b = 0 ∧ op = c.opConvX then .ok .wireConvX
    else if a = 0 ∧ b = 0 ∧ op = c.opConvY then .ok .wireConvY
    else .error .unknownFrame
  | _ => .error .unknownFrame

/-- The frame decoder of the wire layer, by target. -/
def decodeFrame (c : Config) : Target → List Byte → Except DecodeError Instr
  | .panel, bs => decodePanelFrame c bs
  | .digitizer, bs => decodeTouchFrame c bs

/-- The bytes of an instruction: a descriptor (R115 to R117), or the bytes of a frame (R103 to R107, R113). -/
def encode (c : Config) : Instr → List Byte
  | .dReset => [0x01]
  | .dInit => [0x02]
  | .dWrcmd op payload => 0x03 :: op :: BitVec.ofNat 8 payload.length :: payload
  | .dSetwin x0 y0 x1 y1 => 0x04 :: (s16Bytes x0 ++ s16Bytes y0 ++ s16Bytes x1 ++ s16Bytes y1)
  | .dFillrect x y w h color => 0x05 :: (s16Bytes x ++ s16Bytes y ++ s16Bytes w ++ s16Bytes h ++ be16 color)
  | .dGlyph ch x y fg bg => 0x06 :: ch :: (s16Bytes x ++ s16Bytes y ++ be16 fg ++ be16 bg)
  | .dText x y fg bg text =>
    0x07 :: (s16Bytes x ++ s16Bytes y ++ be16 fg ++ be16 bg ++ BitVec.ofNat 8 text.length :: text)
  | .dTextd x y fg text => 0x08 :: (s16Bytes x ++ s16Bytes y ++ be16 fg ++ BitVec.ofNat 8 text.length :: text)
  | .dCpack r g b => [0x09, r, g, b]
  | .tSample => [0x10]
  | .tGettouch => [0x11]
  | .tNorm rawX rawY => 0x12 :: (s16Bytes rawX ++ s16Bytes rawY)
  | .wireCaset x0 x1 => c.opCaset :: (be16 x0 ++ be16 x1)
  | .wireRaset y0 y1 => c.opRaset :: (be16 y0 ++ be16 y1)
  | .wireRamwr => [c.opRamwr]
  | .wireSlpout => [c.opSlpout]
  | .wireDispon => [c.opDispon]
  | .wireConvX => [c.opConvX, 0x00, 0x00]
  | .wireConvY => [c.opConvY, 0x00, 0x00]

/-- The decoder of an instruction's own layer. -/
def decodeLayer (c : Config) (i : Instr) (bs : List Byte) : Except DecodeError Instr :=
  if i.isHost then decode bs else decodeFrame c i.target bs

/-- The length of a descriptor, found from byte 0 and, for three operations, one more byte (R116, R121). -/
def descriptorLength (bs : List Byte) : Nat :=
  let hop := bs.headD 0
  if hop = 0x03 then 3 + (bs.getD 2 0).toNat
  else if hop = 0x04 then 9
  else if hop = 0x05 then 11
  else if hop = 0x06 then 10
  else if hop = 0x07 then 10 + (bs.getD 9 0).toNat
  else if hop = 0x08 then 8 + (bs.getD 7 0).toNat
  else if hop = 0x09 then 4
  else if hop = 0x12 then 5
  else 1

/-- The number of bytes of a command frame of a named wire opcode (R103). -/
def panelFrameLength (c : Config) (bs : List Byte) : Nat :=
  if bs.headD 0 = c.opCaset ∨ bs.headD 0 = c.opRaset then 5 else 1

/-- `n` bytes of the number `w`, byte 0 in bits 7..0. -/
def bytesOfNat : Nat → Nat → List Byte
  | 0, _ => []
  | n + 1, w => BitVec.ofNat 8 w :: bytesOfNat n (w / 256)

/-- `bs` with zero bytes after it, up to length `n`. -/
def padTo (n : Nat) (bs : List Byte) : List Byte := bs ++ List.replicate (n - bs.length) 0

/-- What the bits of an opcode-table row are: a descriptor the host presents, or a frame for a target. -/
inductive Presented where
  | descriptor (bytes : List Byte)
  | frame (target : Target) (bytes : List Byte)
  deriving DecidableEq, Repr

/-- The two layers share no selector in the bits. DESIGN CHOICE (log 13): bits that are a descriptor are one; else,
where they are a frame of the configuration `c`, they are that frame; else they are a descriptor, refused by R119. -/
def present (c : Config) (nbits w : Nat) : Presented :=
  let bs := bytesOfNat ((nbits + 7) / 8) w
  let d := padTo (descriptorLength bs) bs
  let p := padTo (panelFrameLength c bs) bs
  let t := padTo 3 bs
  match decode d with
  | .ok _ => .descriptor d
  | .error _ =>
    match decodeFrame c .panel p with
    | .ok _ => .frame .panel p
    | .error _ =>
      match decodeFrame c .digitizer t with
      | .ok _ => .frame .digitizer t
      | .error _ => .descriptor d

/-- The instruction the decoder reads from what is presented. -/
def decodePresented (c : Config) : Presented → Option Instr
  | .descriptor d => (decode d).toOption
  | .frame t bs => (decodeFrame c t bs).toOption

/-- The decoder on the bits of an opcode-table row, bit 0 the least significant bit of the first byte, with the
opcodes of the configuration State.reset is constructed with. -/
def decodeTableWord (nbits w : Nat) : Option Instr := decodePresented Config.tc1 (present Config.tc1 nbits w)

end Sys2Proof
end

