-- ==== Sys2Proof/Machine/State.lean ====
section
/-! DEFINITION. The state of the machine: the block (spec/10_state.md R20 to R29, R34), the panel at the far end of
the display protocol (spec/20_memory.md R68), the host's program (R30, R271) and the environment's answers
(spec/93_implementation_defined.md U9 to U12); and the state right after block reset (R35, R260). -/

namespace Sys2Proof.Machine

/-- Level of a chip-select line (R13, R24). -/
inductive Select where
  | asserted
  | deasserted
  deriving DecidableEq, Repr

/-- Level of the data/command-select line (R13, R24). -/
inductive DcLevel where
  | command
  | data
  deriving DecidableEq, Repr

/-- Level of the panel's reset line (R13, R24). -/
inductive RstLevel where
  | low
  | high
  deriving DecidableEq, Repr

/-- One output line and the level it is driven to: the two arguments of `L(l, v)` (R13). -/
inductive Drive where
  | csD (v : Select)
  | dc (v : DcLevel)
  | rst (v : RstLevel)
  | csT (v : Select)
  deriving DecidableEq, Repr

/-- The events of R13, the lowest things a rule names (R3). -/
inductive Event where
  /-- `L(l, v)`. -/
  | line (d : Drive)
  /-- `W(bs)`. -/
  | write (bs : List Byte)
  /-- `X(bs, rs)`. -/
  | xfer (bs rs : List Byte)
  /-- `S(n)`. -/
  | sleep (ms : Nat)
  deriving DecidableEq, Repr

/-- STATUS, the outcome of the last completed operation (R25). -/
inductive Status where
  | ok
  | transportFault
  | operandRange
  | illegalOp
  deriving DecidableEq, Repr

/-- RES_KIND, what the last completed operation returned (R27). -/
inductive ResKind where
  | none
  | colour
  | sample
  | noTouch
  | point
  deriving DecidableEq, Repr

/-- One answer of the environment to one transport call (U9 to U12). -/
inductive Answer where
  /-- The call completes; for a `BusXfer` these are the bytes read back. -/
  | ok (readback : List Byte)
  /-- The call raises TransportFault after this many of its bytes reached the target (R62, R231, U11). -/
  | fault (delivered : Nat)
  /-- The call never returns; this many of its bytes reached the target (R249, U12). -/
  | stall (delivered : Nat)
  deriving DecidableEq, Repr

/-- Why the panel model has no next state: the cases of R74 and U19. -/
inductive PanelRefusal where
  /-- A data byte when `P.cmd = none`. -/
  | dataWithoutCommand
  /-- A fifth payload byte to column- or row-address-set. -/
  | fifthBoundByte
  /-- A pixel arrives while `P.xs > P.xe`, `P.ys > P.ye`, `P.xe ≥ PANEL_W` or `P.ye ≥ PANEL_H`. -/
  | windowNotOnPanel
  /-- A pixel arrives with the stream pointer off the panel, where P.gram has no pixel (R68); no run reaches it. -/
  | pointerNotOnPanel
  /-- A pixel after `P.done`. -/
  | pixelAfterDone
  /-- A command byte while half a pixel is pending. -/
  | commandMidPixel
  /-- A pixel before `P.ready`. -/
  | pixelBeforeReady
  /-- A memory-write command before both bounds have been set since the last panel reset. -/
  | memoryWriteBeforeBounds
  /-- A window command (column-address-set, row-address-set, memory-write) before `P.ready` (U19, R273). -/
  | windowBeforeReady
  deriving DecidableEq, Repr

/-- A memory: a list of (address, byte) pairs with strictly rising addresses; an address that is not listed has no
value (log 6). -/
abbrev Memory := List Host.Cell

/-- The panel, as the reference receiver of R68. -/
structure Panel where
  /-- P.cmd. -/
  cmd : Option Byte
  /-- P.args. -/
  args : List Byte
  /-- P.xs. -/
  xs : Half
  /-- P.xe. -/
  xe : Half
  /-- P.ys. -/
  ys : Half
  /-- P.ye. -/
  ye : Half
  /-- The column bounds have been set since the last panel reset: R74 tests it. -/
  colsSet : Bool
  /-- The row bounds have been set since the last panel reset: R74 tests it. -/
  rowsSet : Bool
  /-- P.streaming. -/
  streaming : Bool
  /-- P.px. -/
  px : Nat
  /-- P.py. -/
  py : Nat
  /-- P.done. -/
  done : Bool
  /-- P.half. -/
  half : Option Byte
  /-- P.gram, a byte at a time (log 6). -/
  gram : Memory
  /-- P.awake. -/
  awake : Bool
  /-- P.on. -/
  on : Bool
  /-- P.ready, a ghost flag (R70). -/
  ready : Bool
  /-- The panel is freshly reset: it has received no command since its reset, and no D.INIT has started. The premise
  InitTableOK asks it of D.INIT (R73, U21). A ghost flag (log 7). -/
  fresh : Bool
  /-- The premise InitTableOK (R73) still stands: since the last panel reset every D.INIT started on a freshly reset
  panel, and no opaque command came from outside D.INIT (U21). A ghost flag (log 7). -/
  initTableOK : Bool
  /-- The panel model has stopped under R74. -/
  refused : Option PanelRefusal
  deriving DecidableEq, Repr

/-- The panel when nothing is known of it but that it is freshly reset: after the panel reset pulse (R68, D40). Where R68
leaves a value unspecified this names one: DESIGN CHOICE (log 5), unsafe; the frame memory has no values (log 6), safe. -/
def Panel.unknown : Panel where
  cmd := none
  args := []
  xs := 0
  xe := 0
  ys := 0
  ye := 0
  colsSet := false
  rowsSet := false
  streaming := false
  px := 0
  py := 0
  done := false
  half := none
  gram := []
  awake := false
  on := false
  ready := false
  fresh := true
  initTableOK := true
  refused := none

/-- The panel after block reset, which does not touch it (R35, R261). With a reset line it is not freshly reset until
D.RESET has run; without one D.INIT runs on it as its power-up left it, which R263 accepts: DEDUCED (log 7). -/
def Panel.powerUp (c : Config) : Panel := { Panel.unknown with fresh := !c.hasRst }

/-- A pair of 13-bit readings (R27, R29). -/
abbrev Sample13 := BitVec 13 × BitVec 13

/-- The working registers of R29. No operation reads one that it has not written. -/
structure Work where
  /-- GBUF. -/
  gbuf : List Byte
  /-- CBUF. -/
  cbuf : List Byte
  /-- PCNT. -/
  pcnt : Nat
  /-- WX0. -/
  wx0 : Half
  /-- WY0. -/
  wy0 : Half
  /-- WX1. -/
  wx1 : Half
  /-- WY1. -/
  wy1 : Half
  /-- TIDX. -/
  tidx : Nat
  /-- S1. -/
  s1 : Sample13
  /-- S2. -/
  s2 : Sample13
  /-- S3. -/
  s3 : Sample13
  deriving DecidableEq, Repr

/-- The working registers after block reset: "unspecified, never read before written" (R35).
DESIGN CHOICE (log 4), unsafe: zeros of the registers' sizes. -/
def Work.unspecified (c : Config) : Work where
  gbuf := List.replicate 128 0
  cbuf := List.replicate (2 * c.chunk) 0
  pcnt := 0
  wx0 := 0
  wy0 := 0
  wx1 := 0
  wy1 := 0
  tidx := 0
  s1 := (0, 0)
  s2 := (0, 0)
  s3 := (0, 0)

/-- One frame of the wire layer by itself (log 12). -/
structure WireFrame where
  target : Target
  bytes : List Byte
  deriving DecidableEq, Repr

/-- Why a machine stops with no next state. -/
inductive Fault where
  /-- A descriptor presented while BUSY = 1 has no move (R28, D2). Raised by every meaning. Safe. -/
  | busy
  /-- BUSY = 1 between steps: a transport call never returned and the run hangs, "stuck (no next state)" (R249, U12).
  Raised by step. Safe. -/
  | stalled
  deriving DecidableEq, Repr

/-- Why the model gives no meaning. -/
inductive Refusal where
  /-- An instruction without a meaning, by its mnemonic in spec/opcode_table.json. Raised by exec's refused arms.
  Safe. -/
  | notModelled (mnemonic : String)
  /-- A transport call while FAULT = 1: "A model refuses every operation that uses the transport while FAULT = 1"
  (R272, U13). Raised by every operation that reaches a transport call. Safe. -/
  | transportAfterFault
  /-- The frame slot holds bytes that are none of the seven wire commands (log 12). Raised by step. Safe. -/
  | unknownFrame
  deriving DecidableEq, Repr

/-- The machine: the block (R20), the panel (R68), the host (R30) and the environment's answers. -/
structure State where
  /-- The configuration registers and tables (R21, R22). -/
  cfg : Config
  /-- CS_D (R24). -/
  csD : Select
  /-- DC (R24). -/
  dc : DcLevel
  /-- RST (R24); without HAS_RST there is no such line, and nothing drives this register. -/
  rst : RstLevel
  /-- CS_T (R24). -/
  csT : Select
  /-- STATUS (R25). -/
  status : Status
  /-- FAULT, sticky (R26). -/
  fault : Bool
  /-- REFUSED, sticky (R26). -/
  refused : Bool
  /-- RES_KIND (R27). -/
  resKind : ResKind
  /-- RES_X (R27). -/
  resX : Half
  /-- RES_Y (R27). -/
  resY : Half
  /-- RES_C (R27). -/
  resC : Half
  /-- BUSY (R28). -/
  busy : Bool
  /-- The working registers (R29). -/
  work : Work
  /-- The trace, oldest event first (R34). -/
  trace : List Event
  /-- The panel (R68). -/
  panel : Panel
  /-- The host's list of descriptors (R30, R271). -/
  program : List (List Byte)
  /-- The host's sequence index (R30). -/
  hpc : Nat
  /-- The host has stopped at a status other than OK (R30, R271). -/
  hostStopped : Bool
  /-- A wire frame handed to a unit's sequencer by itself (log 12). -/
  frame : Option WireFrame
  /-- The environment's answers to the coming transport calls, oldest first (log 10). -/
  env : List Answer
  /-- How many transport calls have been made: the index of the free read-back bytes (log 11). -/
  busCalls : Nat
  deriving DecidableEq, Repr

/-- The state after block reset with the construction arguments `c` (R35, R260). What R35 leaves unspecified is named
here: DC and RST (log 2), RES_X, RES_Y, RES_C (log 3), the working registers (log 4), the panel (logs 5, 6). -/
def State.resetWith (c : Config) : State where
  cfg := c
  csD := .deasserted
  dc := .command
  rst := .high
  csT := .deasserted
  status := .ok
  fault := false
  refused := false
  resKind := .none
  resX := 0
  resY := 0
  resC := 0
  busy := false
  work := Work.unspecified c
  trace := []
  panel := Panel.powerUp c
  program := []
  hpc := 0
  hostStopped := false
  frame := none
  env := []
  busCalls := 0

/-- Construction (R260): "a model refuses to construct the block" from a configuration that breaks a constraint (R7). -/
def State.construct (c : Config) : Option State := if c.valid then some (State.resetWith c) else none

/-- The state right after block reset, constructed with the configuration TC1 (log 1). -/
def State.reset : State := State.resetWith Config.tc1

end Sys2Proof.Machine
end

