-- ==== Sys2Proof/Machine/Operands.lean ====
section
/-! DEFINITION. Arithmetic on decoded operands: the constants of spec/00_scope.md R6, clipping and truncating
division (R10, R11), the fill window of R162, the range tests of R161, R182 and R183, colour packing (R164), the
rasterizer (R180), the range filter (R202), the consistency check and the average (R204), and Normalize (R206). -/

namespace Sys2Proof.Machine

/-- T_RST, in milliseconds (R6). -/
abbrev tRst : Nat := 50
/-- T_SLPOUT, in milliseconds (R6). -/
abbrev tSlpout : Nat := 120
/-- T_SETTLE, in milliseconds (R6). -/
abbrev tSettle : Nat := 2
/-- RANGE_LO (R6). -/
abbrev rangeLo : Nat := 100
/-- RANGE_HI (R6). -/
abbrev rangeHi : Nat := 4000
/-- DELTA_MAX (R6). -/
abbrev deltaMax : Nat := 50
/-- SAMPLE_SHIFT (R6). -/
abbrev sampleShift : Nat := 3
/-- GLYPH_W and GLYPH_H (R6). -/
abbrev glyphSize : Nat := 8
/-- ADVANCE (R6). -/
abbrev advance : Nat := 8

/-- `clip(v, lo, hi) = min(hi, max(lo, v))` (R11). -/
def clip (v lo hi : Int) : Int := min hi (max lo v)

/-- `a div b`, truncating toward zero (R10). -/
def truncDiv (a b : Int) : Int := Int.tdiv a b

/-- `rep(bs, n)`: `bs` concatenated `n` times (R8). -/
def rep (bs : List Byte) (n : Nat) : List Byte := (List.replicate n bs).flatten

/-- A window in panel coordinates, both corners included (R66). -/
structure Window where
  x0 : Int
  y0 : Int
  x1 : Int
  y1 : Int
  deriving DecidableEq, Repr

/-- The clipped rectangle (xc, yc, wc, hc) of D.FILLRECT, the four clips in R162's order. -/
structure FillRect where
  xc : Int
  yc : Int
  wc : Int
  hc : Int
  deriving DecidableEq, Repr

/-- The four clips of R162: each on the result of the one before. -/
def fillRect (c : Config) (x y w h : Int) : FillRect :=
  let xc := clip x 0 (c.panelW - 1)
  let yc := clip y 0 (c.panelH - 1)
  let wc := clip w 1 (c.panelW - xc)
  let hc := clip h 1 (c.panelH - yc)
  ⟨xc, yc, wc, hc⟩

/-- The window D.FILLRECT sets (R162). -/
def FillRect.window (r : FillRect) : Window := ⟨r.xc, r.yc, r.xc + r.wc - 1, r.yc + r.hc - 1⟩

/-- The number of pixels D.FILLRECT streams: wc × hc (R162). -/
def FillRect.pixels (r : FillRect) : Nat := (r.wc * r.hc).toNat

/-- A bound with no 16-bit encoding (R161, R233). -/
def boundBad (v : Int) : Bool := decide (v < 0) || decide (65535 < v)

/-- The range test of D.SETWIN (R161). -/
def setwinBad (x0 y0 x1 y1 : Int) : Bool := boundBad x0 || boundBad y0 || boundBad x1 || boundBad y1

/-- The range test of D.GLYPH (R182). -/
def glyphBad (x y : Int) : Bool :=
  decide (x < 0) || decide (y < 0) || decide (65535 < x + 7) || decide (65535 < y + 7)

/-- The range test of D.TEXT, made once for `n` characters (R183). -/
def textBad (x y : Int) (n : Nat) : Bool :=
  decide (1 ≤ n)
    && (decide (x < 0) || decide (y < 0) || decide (65535 < x + advance * ((n : Int) - 1) + 7)
        || decide (65535 < y + 7))

/-- `((r & 0xF8) << 8) | ((g & 0xFC) << 3) | (b >> 3)` (R110, R164). -/
def colorPack (r g b : Byte) : Half :=
  ((r &&& 0xF8).setWidth 16 <<< 8) ||| ((g &&& 0xFC).setWidth 16 <<< 3) ||| (b >>> 3).setWidth 16

/-- The glyph of a character code: `FONT(c)`, a total table look-up (R22, R82, R111). -/
def glyphOf (c : Config) (ch : Byte) : List Byte := c.font.getD ch.toNat []

/-- The colour of column `k` of a glyph row: bit 7 − k, 1 is foreground (R111, R180). -/
def glyphPixel (row : Byte) (k : Nat) (fg bg : Half) : Half := if row.getLsbD (7 - k) then fg else bg

/-- The 16 bytes of one glyph row, columns 0 to 7 (R180). -/
def rasterRow (fg bg : Half) (row : Byte) : List Byte :=
  (List.range glyphSize).flatMap (fun k => be16 (glyphPixel row k fg bg))

/-- Raster(g, fg, bg): rows 0 to 7 in order, 128 bytes (R180, R112). -/
def raster (g : List Byte) (fg bg : Half) : List Byte :=
  (List.range glyphSize).flatMap (fun r => rasterRow fg bg (g.getD r 0))

/-- Reading: the 16-bit big-endian response in bytes 1 and 2 read back, shifted right by 3, no mask (R114, R201). -/
def reading (rs : List Byte) : Nat := (unbe16 (rs.getD 1 0) (rs.getD 2 0)).toNat >>> sampleShift

/-- A reading outside [RANGE_LO, RANGE_HI], both bounds included in the range (R202). -/
def outOfRange (r : Nat) : Bool := decide (r < rangeLo) || decide (rangeHi < r)

/-- The range filter of Sample: (0, 0) when either axis is out of range (R202). -/
def rangeFilter (rx ry : Nat) : Nat × Nat := if outOfRange rx || outOfRange ry then (0, 0) else (rx, ry)

/-- The RawSample of the bytes read back for X and then for Y (R202). -/
def sampleOf (reads : List (List Byte)) : Nat × Nat :=
  rangeFilter (reading (reads.getD 0 [])) (reading (reads.getD 1 []))

/-- The working register form of a sample: a pair of 13-bit values (R29). -/
def sample13 (p : Nat × Nat) : Sample13 := (BitVec.ofNat 13 p.1, BitVec.ofNat 13 p.2)

/-- `|a − b| > DELTA_MAX` (R204 step 4). -/
def apart (a b : Nat) : Bool := decide (deltaMax < ((a : Int) - (b : Int)).natAbs)

/-- The consistency check: |x1 − x2|, |x1 − x3| and |y1 − y2|, no other difference (R204 step 4, R205). -/
def inconsistent (s1 s2 s3 : Nat × Nat) : Bool := apart s1.1 s2.1 || apart s1.1 s3.1 || apart s1.2 s2.2

/-- The average of one axis, one sum and one division (R204 step 5, D26). -/
def average (a b d : Nat) : Int := truncDiv ((a : Int) + b + d) 3

/-- One axis of the calibration map, before the clip (R206). -/
def mapAxis (raw cal0 cal1 : Int) (size : Nat) : Int := truncDiv ((raw - cal0) * size) (cal1 - cal0)

/-- Normalize(rawX, rawY) (R206). -/
def normalize (c : Config) (rawX rawY : Int) : Int × Int :=
  (clip (mapAxis rawX c.calX0 c.calX1 c.panelW) 0 c.panelW, clip (mapAxis rawY c.calY0 c.calY1 c.panelH) 0 c.panelH)

end Sys2Proof.Machine
end

