-- ==== Sys2Proof/Machine/Flags.lean ====
section
/-! DEFINITION. The status, fault and result registers as the host reads them (spec/10_state.md R25 to R27) and the
one operation that writes them: `end(s)` of the envelope (spec/40_display_framing.md R140). -/

namespace Sys2Proof.Machine

/-- STATUS as its 2-bit field (R25). -/
def statusCode : Status → BitVec 2
  | .ok => 0
  | .transportFault => 1
  | .operandRange => 2
  | .illegalOp => 3

/-- RES_KIND as its code (R27). The codes 0 to 4 are the spec's; it gives the field no width, and the 3 bits are the
model's: DESIGN CHOICE, unsafe (log 17). -/
def resKindCode : ResKind → BitVec 3
  | .none => 0
  | .colour => 1
  | .sample => 2
  | .noTouch => 3
  | .point => 4

/-- The result an operation returns (R27). -/
inductive Result where
  | none
  | colour (c : Half)
  | sample (x y : Half)
  | noTouch
  | point (x y : Half)
  deriving DecidableEq, Repr

/-- A RawSample as a result (R203). -/
def sampleResult (p : Nat × Nat) : Result := .sample (BitVec.ofNat 16 p.1) (BitVec.ofNat 16 p.2)

/-- A TouchPoint as a result (R206). -/
def pointResult (p : Int × Int) : Result := .point (BitVec.ofInt 16 p.1) (BitVec.ofInt 16 p.2)

/-- "set RES_KIND and the result registers from v" (R140, R27). A register the result does not use keeps its value:
DEDUCED (log 3). -/
def setResult (v : Result) (s : State) : State :=
  match v with
  | .none => { s with resKind := .none }
  | .colour c => { s with resKind := .colour, resC := c }
  | .sample x y => { s with resKind := .sample, resX := x, resY := y }
  | .noTouch => { s with resKind := .noTouch }
  | .point x y => { s with resKind := .point, resX := x, resY := y }

/-- FAULT after an operation that ends with `st`: set by TransportFault, cleared by nothing (R26, R140). -/
def faultAfter (st : Status) (old : Bool) : Bool := old || decide (st = .transportFault)

/-- REFUSED after an operation that ends with `st`: set by OperandRange and IllegalOp, cleared by nothing (R26, R140). -/
def refusedAfter (st : Status) (old : Bool) : Bool := old || decide (st = .operandRange) || decide (st = .illegalOp)

/-- The result of an operation that ends with `st`: `v` with status OK, none with any other (R27, R140). -/
def resultAfter (st : Status) (v : Result) : Result := if st = .ok then v else .none

end Sys2Proof.Machine
end

