-- ==== Sys2Proof/Machine/Memory.lean ====
section
/-! DEFINITION. The panel's frame memory as a canonical list of bytes (spec/20_memory.md R60, R66, R68). A pixel
(x, y) is the two bytes at `gramAddr x y`, high byte first. An address that is not listed has no value: nothing is
known of a pixel that has not been written since the last panel reset (U20; log 6). -/

namespace Sys2Proof.Machine

/-- The canonical form: addresses strictly rising. No byte equals what an unlisted address reads as, which is no
value at all. -/
def Memory.wf : Memory → Bool
  | [] => true
  | [_] => true
  | c :: d :: m => decide (c.1 < d.1) && Memory.wf (d :: m)

/-- The byte at an address, or no value. -/
def Memory.read : Memory → Nat → Option Byte
  | [], _ => none
  | c :: m, a => if c.1 = a then some c.2 else if a < c.1 then none else Memory.read m a

/-- Write a byte, keeping the canonical form. -/
def Memory.write : Memory → Nat → Byte → Memory
  | [], a, b => [(a, b)]
  | c :: m, a, b =>
    if a < c.1 then (a, b) :: c :: m
    else if a = c.1 then (a, b) :: m
    else c :: Memory.write m a b

/-- The address of the high byte of pixel (x, y); DESIGN CHOICE (log 6): LD gives the frame memory no addresses. -/
def gramAddr (x y : Nat) : Nat := 2 * (65536 * y + x)

/-- `GramWrite(x, y, v)`: one 16-bit pixel (R15, R72). -/
def gramWrite (m : Memory) (x y : Nat) (v : Half) : Memory :=
  Memory.write (Memory.write m (gramAddr x y) (hi8 v)) (gramAddr x y + 1) (lo8 v)

/-- `P.gram(x, y)`, or no value. -/
def gramRead (m : Memory) (x y : Nat) : Option Half :=
  match Memory.read m (gramAddr x y), Memory.read m (gramAddr x y + 1) with
  | some a, some b => some (unbe16 a b)
  | _, _ => none

/-- The pixel of a panel (R68). -/
def Panel.pixel (p : Panel) (x y : Nat) : Option Half := gramRead p.gram x y

end Sys2Proof.Machine
end

