-- ==== Sys2Proof/Machine/Panel.lean ====
section
/-! DEFINITION. The panel's end of the display protocol, the reference receiver of spec/20_memory.md R68 to R74. It
is part of the environment; what it shows is claimed under the premise InitTableOK (R73). -/

namespace Sys2Proof.Machine

/-- A case LD does not reach: "the panel model has no next state, so no claim about the frame memory can be proved
through it" (R74). Everything known of the panel is forgotten, and it takes no byte until the next panel reset
pulse (log 8). -/
def Panel.refuse (r : PanelRefusal) : Panel :=
  { Panel.unknown with fresh := false, initTableOK := false, refused := some r }

/-- One of the three window commands: column-address-set, row-address-set, memory-write (R103, R160). -/
def Config.isWindowOp (c : Config) (b : Byte) : Bool := [c.opCaset, c.opRaset, c.opRamwr].contains b

/-- Command byte `b` (R70), with the refusals of R74 (half a pixel pending; memory-write before both bounds) and of U19
(a window command before D.INIT has completed, R273). -/
def Panel.command (c : Config) (p : Panel) (b : Byte) : Panel :=
  if p.half.isSome then Panel.refuse .commandMidPixel
  else if p.ready = false ∧ Config.isWindowOp c b = true then Panel.refuse .windowBeforeReady
  else if b = c.opRamwr ∧ ¬ (p.colsSet = true ∧ p.rowsSet = true) then Panel.refuse .memoryWriteBeforeBounds
  else
    { p with
      cmd := some b
      args := []
      half := none
      streaming := decide (b = c.opRamwr)
      px := if b = c.opRamwr then p.xs.toNat else p.px
      py := if b = c.opRamwr then p.ys.toNat else p.py
      done := if b = c.opRamwr then false else p.done
      awake := p.awake || decide (b = c.opSlpout)
      on := p.on || decide (b = c.opDispon)
      fresh := false }

/-- A payload byte of column-address-set (R71); the fifth is refused (R74). -/
def Panel.colByte (p : Panel) (b : Byte) : Panel :=
  match p.args with
  | [a0, a1, a2] =>
    { p with args := [a0, a1, a2, b], xs := unbe16 a0 a1, xe := unbe16 a2 b, colsSet := true }
  | _ => if 4 ≤ p.args.length then Panel.refuse .fifthBoundByte else { p with args := p.args ++ [b] }

/-- A payload byte of row-address-set (R71); the fifth is refused (R74). -/
def Panel.rowByte (p : Panel) (b : Byte) : Panel :=
  match p.args with
  | [a0, a1, a2] =>
    { p with args := [a0, a1, a2, b], ys := unbe16 a0 a1, ye := unbe16 a2 b, rowsSet := true }
  | _ => if 4 ≤ p.args.length then Panel.refuse .fifthBoundByte else { p with args := p.args ++ [b] }

/-- The window lies on the panel with its corners in order: what R72 requires of a pixel's window. -/
def Panel.windowOnPanel (c : Config) (p : Panel) : Bool :=
  decide (p.xs.toNat ≤ p.xe.toNat) && decide (p.ys.toNat ≤ p.ye.toNat)
    && decide (p.xe.toNat < c.panelW) && decide (p.ye.toNat < c.panelH)

/-- The stream pointer and the done flag after a pixel: x runs fastest (R72). -/
def Panel.advance (p : Panel) : Panel :=
  if p.px < p.xe.toNat then { p with px := p.px + 1 }
  else if p.py < p.ye.toNat then { p with px := p.xs.toNat, py := p.py + 1 }
  else { p with done := true }

/-- A whole pixel arrives (R72), or one of R74's cases. -/
def Panel.pixelArrives (c : Config) (p : Panel) (v : Half) : Panel :=
  if p.ready = false then Panel.refuse .pixelBeforeReady
  else if p.windowOnPanel c = false then Panel.refuse .windowNotOnPanel
  else if p.done then Panel.refuse .pixelAfterDone
  else if c.panelW ≤ p.px ∨ c.panelH ≤ p.py then Panel.refuse .pointerNotOnPanel
  else Panel.advance { p with half := none, gram := gramWrite p.gram p.px p.py v }

/-- A byte of the pixel stream: the first of a pixel is latched, the second completes it (R72). -/
def Panel.streamByte (c : Config) (p : Panel) (b : Byte) : Panel :=
  match p.half with
  | none => { p with half := some b }
  | some a => Panel.pixelArrives c p (unbe16 a b)

/-- A data byte: R71 for the two address commands, R72 while streaming, R73 for any other command, R74 for none. -/
def Panel.data (c : Config) (p : Panel) (b : Byte) : Panel :=
  match p.cmd with
  | none => Panel.refuse .dataWithoutCommand
  | some op =>
    if op = c.opCaset then p.colByte b
    else if op = c.opRaset then p.rowByte b
    else if p.streaming then p.streamByte c b
    else { p with args := p.args ++ [b] }

/-- Reception of one byte with CS_D asserted: a command byte or a data byte by the level of DC (R69). -/
def Panel.receive (c : Config) (dc : DcLevel) (p : Panel) (b : Byte) : Panel :=
  if p.refused.isSome then p
  else
    match dc with
    | .command => p.command c b
    | .data => p.data c b

/-- Reception of a byte sequence, in order (R62, R69). -/
def Panel.receiveAll (c : Config) (dc : DcLevel) (p : Panel) (bs : List Byte) : Panel :=
  bs.foldl (Panel.receive c dc) p

/-- What the panel holds after `bs` with the lines at these levels: bytes sent while CS_D is deasserted do not reach
it (R69). -/
def Panel.listen (c : Config) (csD : Select) (dc : DcLevel) (p : Panel) (bs : List Byte) : Panel :=
  match csD with
  | .asserted => p.receiveAll c dc bs
  | .deasserted => p

/-- `L(RST, low)`: the panel reset pulse makes everything unspecified and the flags false (R68, R70). A panel model that
stopped under R74 starts again here: DEDUCED (log 8). -/
def Panel.onDrive (p : Panel) : Drive → Panel
  | .rst .low => Panel.unknown
  | .rst .high => p
  | .csD _ => p
  | .dc _ => p
  | .csT _ => p

/-- D.INIT starts. InitTableOK "covers only D.INIT run from a freshly reset panel" (U21): started on any other it ends
the premise, until the next panel reset pulse (R73, R263; log 7). -/
def Panel.beginInit (p : Panel) : Panel := { p with fresh := false, initTableOK := p.initTableOK && p.fresh }

/-- D.INIT has ended with status OK: `P.ready` becomes true (R70). A stopped panel model stays stopped (R74). -/
def Panel.markReady (p : Panel) : Panel := if p.refused.isSome then p else { p with ready := true }

/-- One of the five named opcodes of R103. -/
def Config.namesPanelOp (c : Config) (op : Byte) : Bool :=
  [c.opCaset, c.opRaset, c.opRamwr, c.opSlpout, c.opDispon].contains op

/-- "An opaque command sent by D.WRCMD outside D.INIT is outside that premise" (U21): InitTableOK no longer stands. -/
def Panel.noteCommand (c : Config) (p : Panel) (op : Byte) : Panel :=
  if Config.namesPanelOp c op then p else { p with initTableOK := false }

end Sys2Proof.Machine
end

