-- ==== Sys2Proof/Machine/Ops.lean ====
section
/-! DEFINITION. The shared operations: the event primitives of spec/00_scope.md R13 and R14, the procedures CmdXact,
DataXact and SetWindow as lists of primitives (R144, R146, R160), the runner of such a list, and the operation
envelope with `end(s)` (R140), through which every status is taken, TransportFault among them (R232). -/

namespace Sys2Proof.Machine

/-- A write to the working registers of R29. -/
inductive WorkWrite where
  | window (x0 y0 x1 y1 : Half)
  | tidx (n : Nat)
  | pcnt (n : Nat)
  | cbuf (bs : List Byte)
  | gbuf (bs : List Byte)
  | s1 (p : Sample13)
  | s2 (p : Sample13)
  | s3 (p : Sample13)
  deriving DecidableEq, Repr

/-- One primitive of R13, or a write to a working register. -/
inductive Act where
  /-- `Line(l) <- v`. -/
  | line (d : Drive)
  /-- `BusWrite(bs)`. -/
  | write (bs : List Byte)
  /-- `BusXfer(bs)`. -/
  | xfer (bs : List Byte)
  /-- `Sleep(n)`. -/
  | sleep (ms : Nat)
  /-- `NAME <- v`. -/
  | work (w : WorkWrite)
  deriving DecidableEq, Repr

/-- How a run of primitives comes out. -/
inductive Run (α : Type) where
  /-- It ran to its end with this value. -/
  | done (a : α) (s : State)
  /-- `raise`: the operation ends here with this status (R14). -/
  | ended (st : Status) (s : State)
  /-- A transport call never returns (R249). -/
  | stalled (s : State)
  /-- The model gives the operation no meaning. -/
  | noMeaning (r : Refusal)

/-- One run after another. -/
def Run.andThen {α β : Type} (r : Run α) (k : α → State → Run β) : Run β :=
  match r with
  | .done a s => k a s
  | .ended st s => .ended st s
  | .stalled s => .stalled s
  | .noMeaning x => .noMeaning x

/-- Write a working register (R29). -/
def writeWork (w : WorkWrite) (k : Work) : Work :=
  match w with
  | .window x0 y0 x1 y1 => { k with wx0 := x0, wy0 := y0, wx1 := x1, wy1 := y1 }
  | .tidx n => { k with tidx := n }
  | .pcnt n => { k with pcnt := n }
  | .cbuf bs => { k with cbuf := bs }
  | .gbuf bs => { k with gbuf := bs }
  | .s1 p => { k with s1 := p }
  | .s2 p => { k with s2 := p }
  | .s3 p => { k with s3 := p }

/-- Set the line register of R24. -/
def setLine (d : Drive) (s : State) : State :=
  match d with
  | .csD v => { s with csD := v }
  | .dc v => { s with dc := v }
  | .rst v => { s with rst := v }
  | .csT v => { s with csT := v }

/-- Append an event to the trace (R13, R34). -/
def emit (e : Event) (s : State) : State := { s with trace := s.trace ++ [e] }

/-- `Line(l) <- v`: it "always appends its event, also when the line already has that level" (R13); the panel sees RST. -/
def driveLine (d : Drive) (s : State) : State :=
  emit (.line d) { setLine d s with panel := s.panel.onDrive d }

/-- The environment's answer to the next transport call; past the end of the script a call completes (log 10). -/
def nextAnswer (s : State) : Answer := s.env.headD (.ok [])

/-- A transport call has been made: its answer is used up. -/
def usedAnswer (s : State) : State := { s with env := s.env.tail, busCalls := s.busCalls + 1 }

/-- The `n` bytes read back, `|rs| = |bs|` (R13, D31): the answer's, and free values where it names none (log 11). -/
def readback (call : Nat) (given : List Byte) (n : Nat) : List Byte :=
  (List.range n).map (fun k => given.getD k (Config.freeReadback call k))

/-- The bytes of a write reach whoever is selected (R62, R69). -/
def deliver (bs : List Byte) (s : State) : State := { s with panel := s.panel.listen s.cfg s.csD s.dc bs }

/-- `BusWrite(bs)` (R13, R62): whole, or a fault or a stall after a prefix; refused while FAULT = 1 (R272). -/
def busWrite (bs : List Byte) (s : State) : Run (List (List Byte)) :=
  if s.fault then .noMeaning .transportAfterFault
  else
    match nextAnswer s with
    | .ok _ => .done [] (emit (.write bs) (deliver bs (usedAnswer s)))
    | .fault k => .ended .transportFault (deliver (bs.take k) (usedAnswer s))
    | .stall k => .stalled (deliver (bs.take k) (usedAnswer s))

/-- `BusXfer(bs) -> rs` (R13): it does not reach the panel (R69); otherwise as `BusWrite`. -/
def busXfer (bs : List Byte) (s : State) : Run (List (List Byte)) :=
  if s.fault then .noMeaning .transportAfterFault
  else
    match nextAnswer s with
    | .ok given =>
      .done [readback s.busCalls given bs.length]
        (emit (.xfer bs (readback s.busCalls given bs.length)) (usedAnswer s))
    | .fault _ => .ended .transportFault (usedAnswer s)
    | .stall _ => .stalled (usedAnswer s)

/-- One primitive; the value is the list of byte sequences read back. -/
def runAct (a : Act) (s : State) : Run (List (List Byte)) :=
  match a with
  | .line d => .done [] (driveLine d s)
  | .write bs => busWrite bs s
  | .xfer bs => busXfer bs s
  | .sleep ms => .done [] (emit (.sleep ms) s)
  | .work w => .done [] { s with work := writeWork w s.work }

/-- The primitives in order; the byte sequences read back in order. -/
def runActs : List Act → State → Run (List (List Byte))
  | [], s => .done [] s
  | a :: as, s =>
    (runAct a s).andThen fun r t => (runActs as t).andThen fun rs u => .done (r ++ rs) u

/-- CmdXact(op, pl), the command framer (R144, R101). -/
def cmdXact (op : Byte) (pl : List Byte) : List Act :=
  [.line (.csD .asserted), .line (.dc .command), .write [op]]
    ++ (if pl.isEmpty then [] else [.line (.dc .data), .write pl])
    ++ [.line (.csD .deasserted)]

/-- DataXact(bs), the data frame (R146, R102). -/
def dataXact (bs : List Byte) : List Act :=
  [.line (.csD .asserted), .line (.dc .data), .write bs, .line (.csD .deasserted)]

/-- SetWindow(x0, y0, x1, y1) (R160). Its callers establish the range 0..65535. -/
def setWindow (c : Config) (w : Window) : List Act :=
  let x0 : Half := BitVec.ofInt 16 w.x0
  let y0 : Half := BitVec.ofInt 16 w.y0
  let x1 : Half := BitVec.ofInt 16 w.x1
  let y1 : Half := BitVec.ofInt 16 w.y1
  [.work (.window x0 y0 x1 y1)]
    ++ cmdXact c.opCaset (be16 x0 ++ be16 x1)
    ++ cmdXact c.opRaset (be16 y0 ++ be16 y1)
    ++ cmdXact c.opRamwr []

/-- `end(s)` with result `v` (R140): the one place where STATUS, FAULT, REFUSED and the result registers are written,
and BUSY falls. With `TransportFault` it is fault entry (R232, R239): the lines stay as they are. -/
def endOp (st : Status) (v : Result) (s : State) : State :=
  let t := setResult (resultAfter st v) s
  { t with status := st, fault := faultAfter st s.fault, refused := refusedAfter st s.refused, busy := false }

/-- The operation envelope (R140): BUSY rises, the operation runs, `end(s)` writes the registers. A stalled operation
never ends and BUSY stays 1 (R249). -/
def operation (body : State → Run Result) (s : State) : Host.Outcome State Fault Refusal :=
  if s.busy then .fault .busy
  else
    match body { s with busy := true } with
    | .done v t => .next (endOp .ok v t)
    | .ended st t => .next (endOp st .none t)
    | .stalled t => .next t
    | .noMeaning r => .refused r

/-- An operation that only runs primitives and returns `v`. -/
def runReturning (acts : List Act) (v : Result) (s : State) : Run Result :=
  (runActs acts s).andThen fun _ t => .done v t

/-- `raise OperandRange` before any event (R14, R233). -/
def raiseOperandRange (s : State) : Run Result := .ended .operandRange s

/-- A descriptor that decodes to no operation: `end(IllegalOp)` (R119, R140, R234). -/
def rejectDescriptor (s : State) : Host.Outcome State Fault Refusal :=
  operation (fun t => .ended .illegalOp t) s

/-- One frame of the wire layer by itself (log 12): it is no operation, so only a TransportFault, which ends the
operation it is part of (R14), writes the registers of `end(s)`. -/
def frameAlone (acts : List Act) (s : State) : Host.Outcome State Fault Refusal :=
  if s.busy then .fault .busy
  else
    match runActs acts { s with busy := true } with
    | .done _ t => .next { t with busy := false }
    | .ended st t => .next (endOp st .none t)
    | .stalled t => .next t
    | .noMeaning r => .refused r

end Sys2Proof.Machine
end

