-- ==== Sys2Proof/Machine/Framing.lean ====
section
/-! DEFINITION. The operations of spec/40_display_framing.md: D.RESET (R141), D.INIT (R142), D.WRCMD (R143). -/

namespace Sys2Proof.Machine

/-- The panel reset pulse (R141). -/
def resetActs (c : Config) : List Act :=
  if c.hasRst then [.line (.rst .low), .sleep tRst, .line (.rst .high), .sleep tRst] else []

/-- D.RESET (R141). -/
def execDReset (s : State) : Host.Outcome State Fault Refusal :=
  operation (fun t => runReturning (resetActs t.cfg) .none t) s

/-- The table loop of D.INIT, from index `i` on (R142). -/
def tableActs : Nat → List InitEntry → List Act
  | _, [] => []
  | i, e :: es => .work (.tidx i) :: (cmdXact e.op e.payload ++ tableActs (i + 1) es)

/-- The initialisation sequence (R142): the table, sleep-out, T_SLPOUT, display-on. -/
def initActs (c : Config) : List Act :=
  tableActs 0 c.initTable ++ cmdXact c.opSlpout [] ++ [.sleep tSlpout] ++ cmdXact c.opDispon []

/-- The body of D.INIT (R142): "at the moment an operation D.INIT ends with status OK" P.ready becomes true (R70), and
the premise InitTableOK rests on the panel D.INIT starts on (R73, U21). -/
def initBody (t : State) : Run Result :=
  (runActs (initActs t.cfg) { t with panel := t.panel.beginInit }).andThen fun _ u =>
    .done .none { u with panel := u.panel.markReady }

/-- D.INIT (R142). -/
def execDInit (s : State) : Host.Outcome State Fault Refusal := operation initBody s

/-- D.WRCMD op, payload (R143): one command frame, whatever the opcode (R120). -/
def execDWrcmd (op : Byte) (payload : List Byte) (s : State) : Host.Outcome State Fault Refusal :=
  operation
    (fun t => runReturning (cmdXact op payload) .none { t with panel := t.panel.noteCommand t.cfg op }) s

end Sys2Proof.Machine
end

