-- ==== Sys2Proof/Machine/Text.lean ====
section
/-! DEFINITION. The operations of spec/42_display_glyph_text.md: D.GLYPH (R182), D.TEXT (R183), D.TEXTD (R184), and
the procedure DrawGlyph (R181). -/

namespace Sys2Proof.Machine

/-- DrawGlyph(c, x, y, fg, bg) (R181): the window, the glyph, one frame of 128 bytes. -/
def drawGlyph (c : Config) (ch : Byte) (x y : Int) (fg bg : Half) : List Act :=
  let buf := raster (glyphOf c ch) fg bg
  setWindow c ⟨x, y, x + 7, y + 7⟩ ++ .work (.gbuf buf) :: dataXact buf

/-- D.GLYPH ch, x, y, fg, bg (R182). -/
def execDGlyph (ch : Byte) (x y : Int) (fg bg : Half) (s : State) : Host.Outcome State Fault Refusal :=
  operation
    (fun t =>
      if glyphBad x y then raiseOperandRange t else runReturning (drawGlyph t.cfg ch x y fg bg) .none t) s

/-- The character loop of D.TEXT, from character number `i` on: glyph `i` at column x + 8i (R183). -/
def textLoop (c : Config) (x y : Int) (fg bg : Half) : Nat → List Byte → List Act
  | _, [] => []
  | i, ch :: text =>
    .work (.tidx i) :: (drawGlyph c ch (x + advance * (i : Int)) y fg bg ++ textLoop c x y fg bg (i + 1) text)

/-- The body shared by D.TEXT and D.TEXTD (R183, R184): the range test once, then the loop. -/
def textBody (x y : Int) (fg bg : Half) (text : List Byte) (t : State) : Run Result :=
  if textBad x y text.length then raiseOperandRange t
  else runReturning (textLoop t.cfg x y fg bg 0 text) .none t

/-- D.TEXT x, y, fg, bg, text (R183). -/
def execDText (x y : Int) (fg bg : Half) (text : List Byte) (s : State) : Host.Outcome State Fault Refusal :=
  operation (textBody x y fg bg text) s

/-- D.TEXTD x, y, fg, text: as D.TEXT with bg = BG_DEFAULT (R184). -/
def execDTextd (x y : Int) (fg : Half) (text : List Byte) (s : State) : Host.Outcome State Fault Refusal :=
  operation (fun t => textBody x y fg t.cfg.bgDefault text t) s

end Sys2Proof.Machine
end

