-- ==== Sys2Proof/Machine/Touch.lean ====
section
/-! DEFINITION. The operations of spec/43_touch.md: T.SAMPLE (R203), T.GETTOUCH (R204), T.NORM (R207), and the
procedures Convert (R200) and Sample (R202). -/

namespace Sys2Proof.Machine

/-- The primitives of Convert(op) (R200, R113). -/
def convert (op : Byte) : List Act :=
  [.line (.csT .asserted), .xfer [op, 0x00, 0x00], .line (.csT .deasserted)]

/-- The primitives of Sample: X, then Y always (R202). -/
def sampleActs (c : Config) : List Act := convert c.opConvX ++ convert c.opConvY

/-- Sample() (R202). -/
def sample (s : State) : Run (Nat × Nat) :=
  (runActs (sampleActs s.cfg) s).andThen fun reads t => .done (sampleOf reads) t

/-- Put a sample into its working register (R29). -/
def latch (w : WorkWrite) (s : State) : State := { s with work := writeWork w s.work }

/-- T.SAMPLE (R203). -/
def execTSample (s : State) : Host.Outcome State Fault Refusal :=
  operation (fun t => (sample t).andThen fun p u => .done (sampleResult p) u) s

/-- Steps 3 to 5 of T.GETTOUCH on the three samples (R204). -/
def touchResult (c : Config) (p1 p2 p3 : Nat × Nat) : Result :=
  if p2 = (0, 0) ∨ p3 = (0, 0) then .noTouch
  else if inconsistent p1 p2 p3 then .noTouch
  else pointResult (normalize c (average p1.1 p2.1 p3.1) (average p1.2 p2.2 p3.2))

/-- `Sleep(T_SETTLE)` and a sample: step 2 of T.GETTOUCH, twice (R204). -/
def settledSample (s : State) : Run (Nat × Nat) :=
  (runActs [.sleep tSettle] s).andThen fun _ t => sample t

/-- The pipeline of T.GETTOUCH (R204): S1, early return, S2 and S3 always both taken, then steps 3 to 5. -/
def touchBody (s : State) : Run Result :=
  (sample s).andThen fun p1 t =>
    let t := latch (.s1 (sample13 p1)) t
    if p1 = (0, 0) then .done .noTouch t
    else
      (settledSample t).andThen fun p2 u =>
        (settledSample (latch (.s2 (sample13 p2)) u)).andThen fun p3 v =>
          .done (touchResult v.cfg p1 p2 p3) (latch (.s3 (sample13 p3)) v)

/-- T.GETTOUCH (R204). -/
def execTGettouch (s : State) : Host.Outcome State Fault Refusal := operation touchBody s

/-- T.NORM rawX, rawY (R207). -/
def execTNorm (rawX rawY : Int) (s : State) : Host.Outcome State Fault Refusal :=
  operation (fun t => .done (pointResult (normalize t.cfg rawX rawY)) t) s

end Sys2Proof.Machine
end

