-- ==== Sys2Proof/Machine/Window.lean ====
section
/-! DEFINITION. The operations of spec/41_display_window_stream.md: D.SETWIN (R161), D.FILLRECT (R162), D.CPACK
(R164), and the pixel streamer StreamColor (R163). -/

namespace Sys2Proof.Machine

/-- D.SETWIN x0, y0, x1, y1 (R161). -/
def execDSetwin (x0 y0 x1 y1 : Int) (s : State) : Host.Outcome State Fault Refusal :=
  operation
    (fun t =>
      if setwinBad x0 y0 x1 y1 then raiseOperandRange t
      else runReturning (setWindow t.cfg ⟨x0, y0, x1, y1⟩) .none t) s

/-- The loop of StreamColor: `k` full frames of CBUF, PCNT counting down, then the short frame (R163). -/
def streamLoop (color : Half) (chunk : Nat) : Nat → Nat → List Act
  | 0, pcnt => if pcnt = 0 then [] else dataXact (rep (be16 color) pcnt) ++ [.work (.pcnt 0)]
  | k + 1, pcnt =>
    dataXact (rep (be16 color) chunk) ++ .work (.pcnt (pcnt - chunk)) :: streamLoop color chunk k (pcnt - chunk)

/-- StreamColor(c, n) (R163): `n div CHUNK` full data frames and, where something remains, a short one. -/
def streamColor (c : Config) (color : Half) (n : Nat) : List Act :=
  [.work (.pcnt n), .work (.cbuf (rep (be16 color) c.chunk))] ++ streamLoop color c.chunk (n / c.chunk) n

/-- D.FILLRECT's primitives: the zero-area test, the window, the stream (R162). -/
def fillActs (c : Config) (x y w h : Int) (color : Half) : List Act :=
  let r := fillRect c x y w h
  if r.wc * r.hc = 0 then [] else setWindow c r.window ++ streamColor c color r.pixels

/-- D.FILLRECT x, y, w, h, color (R162). -/
def execDFillrect (x y w h : Int) (color : Half) (s : State) : Host.Outcome State Fault Refusal :=
  operation (fun t => runReturning (fillActs t.cfg x y w h color) .none t) s

/-- D.CPACK r, g, b (R164). -/
def execDCpack (r g b : Byte) (s : State) : Host.Outcome State Fault Refusal :=
  operation (fun t => .done (.colour (colorPack r g b)) t) s

end Sys2Proof.Machine
end

