-- ==== Sys2Proof/Machine/Wire.lean ====
section
/-! DEFINITION. The seven wire commands of spec/opcode_table.json, each as one frame by itself (log 12): the five
command frames of spec/30_encoding.md R103 to R107 with what the panel does on receiving them (spec/20_memory.md R70,
R71), and the two conversion request frames of R113. -/

namespace Sys2Proof.Machine

/-- wire.CASET x0, x1 (R104). -/
def execWireCaset (x0 x1 : Half) (s : State) : Host.Outcome State Fault Refusal :=
  frameAlone (cmdXact s.cfg.opCaset (be16 x0 ++ be16 x1)) s

/-- wire.RASET y0, y1 (R105). -/
def execWireRaset (y0 y1 : Half) (s : State) : Host.Outcome State Fault Refusal :=
  frameAlone (cmdXact s.cfg.opRaset (be16 y0 ++ be16 y1)) s

/-- wire.RAMWR (R106). -/
def execWireRamwr (s : State) : Host.Outcome State Fault Refusal := frameAlone (cmdXact s.cfg.opRamwr []) s

/-- wire.SLPOUT (R107). -/
def execWireSlpout (s : State) : Host.Outcome State Fault Refusal := frameAlone (cmdXact s.cfg.opSlpout []) s

/-- wire.DISPON (R107). -/
def execWireDispon (s : State) : Host.Outcome State Fault Refusal := frameAlone (cmdXact s.cfg.opDispon []) s

/-- wire.CONV_X (R113, R200). -/
def execWireConvX (s : State) : Host.Outcome State Fault Refusal := frameAlone (convert s.cfg.opConvX) s

/-- wire.CONV_Y (R113, R200). -/
def execWireConvY (s : State) : Host.Outcome State Fault Refusal := frameAlone (convert s.cfg.opConvY) s

end Sys2Proof.Machine
end

