-- ==== Sys2Proof/Machine/Dispatch.lean ====
section
/-! DEFINITION. The meaning of every instruction, one arm per constructor. -/

namespace Sys2Proof.Machine

def exec (i : Instr) (s : State) : Host.Outcome State Fault Refusal :=
  match i with
  | .dReset => Sys2Proof.Machine.execDReset s
  | .dInit => Sys2Proof.Machine.execDInit s
  | .dWrcmd op payload => Sys2Proof.Machine.execDWrcmd op payload s
  | .dSetwin x0 y0 x1 y1 => Sys2Proof.Machine.execDSetwin x0 y0 x1 y1 s
  | .dFillrect x y w h color => Sys2Proof.Machine.execDFillrect x y w h color s
  | .dGlyph ch x y fg bg => Sys2Proof.Machine.execDGlyph ch x y fg bg s
  | .dText x y fg bg text => Sys2Proof.Machine.execDText x y fg bg text s
  | .dTextd x y fg text => Sys2Proof.Machine.execDTextd x y fg text s
  | .dCpack r g b => Sys2Proof.Machine.execDCpack r g b s
  | .tSample => Sys2Proof.Machine.execTSample s
  | .tGettouch => Sys2Proof.Machine.execTGettouch s
  | .tNorm rawX rawY => Sys2Proof.Machine.execTNorm rawX rawY s
  | .wireCaset x0 x1 => Sys2Proof.Machine.execWireCaset x0 x1 s
  | .wireRaset y0 y1 => Sys2Proof.Machine.execWireRaset y0 y1 s
  | .wireRamwr => Sys2Proof.Machine.execWireRamwr s
  | .wireSlpout => Sys2Proof.Machine.execWireSlpout s
  | .wireDispon => Sys2Proof.Machine.execWireDispon s
  | .wireConvX => Sys2Proof.Machine.execWireConvX s
  | .wireConvY => Sys2Proof.Machine.execWireConvY s

end Sys2Proof.Machine
end

