-- ==== Sys2Proof/Machine/Issue.lean ====
section
/-! DEFINITION. How an instruction comes to run: the host issues descriptor number hpc (spec/10_state.md R30,
spec/70_reset_and_hazards.md R271), or a unit's sequencer is handed one wire frame by itself (log 12). -/

namespace Sys2Proof.Machine

/-- Change the next state of an outcome. -/
def onNext (o : Host.Outcome State Fault Refusal) (f : State → State) : Host.Outcome State Fault Refusal :=
  match o with
  | .next t => .next (f t)
  | .fault r => .fault r
  | .refused r => .refused r

/-- Present a descriptor to the block: decode, then run (R140). -/
def issue (d : List Byte) (s : State) : Host.Outcome State Fault Refusal :=
  match decode d with
  | .ok i => exec i s
  | .error _ => rejectDescriptor s

/-- What the host does when an operation has ended: hpc counts up at status OK, otherwise the host stops (R30). While
BUSY = 1 the operation has not ended. -/
def hostAdvance (t : State) : State :=
  if t.busy then t
  else if t.status = .ok then { t with hpc := t.hpc + 1 }
  else { t with hostStopped := true }

/-- The frame slot has been used. -/
def clearFrame (t : State) : State := { t with frame := none }

/-- Run the frame in the slot (log 12). -/
def runFrame (f : WireFrame) (s : State) : Host.Outcome State Fault Refusal :=
  match decodeFrame s.cfg f.target f.bytes with
  | .ok i => onNext (exec i s) clearFrame
  | .error _ => .refused .unknownFrame

/-- The host's next descriptor: none once it has stopped or come to the end of its list (R30, R271). -/
def nextDescriptor (s : State) : Option (List Byte) := if s.hostStopped then none else s.program[s.hpc]?

/-- The host's turn: "the block executes nothing until the host issues an operation" (R35). -/
def hostTurn (s : State) : Host.Outcome State Fault Refusal :=
  match nextDescriptor s with
  | none => .next s
  | some d => onNext (issue d s) hostAdvance

/-- One step of the machine. -/
def stepOnce (s : State) : Host.Outcome State Fault Refusal :=
  if s.busy then .fault .stalled
  else
    match s.frame with
    | some f => runFrame f s
    | none => hostTurn s

/-- The host's list with `d` as descriptor number `n`. -/
def placeAt : List (List Byte) → Nat → List Byte → List (List Byte)
  | [], 0, d => [d]
  | _ :: ds, 0, d => d :: ds
  | [], n + 1, d => [] :: placeAt [] n d
  | e :: ds, n + 1, d => e :: placeAt ds n d

/-- The state with what is presented placed where the next step takes it from (log 9, log 12). -/
def placeNext (p : Presented) (s : State) : State :=
  match p with
  | .descriptor d => { s with busy := false, frame := none, hostStopped := false, program := placeAt s.program s.hpc d }
  | .frame t bs => { s with busy := false, frame := some ⟨t, bs⟩ }

/-- The host has this program, from its first descriptor on (R30). -/
def State.withProgram (s : State) (ds : List (List Byte)) : State :=
  { s with program := ds, hpc := 0, hostStopped := false }

/-- The environment will answer the coming transport calls so (log 10). -/
def State.withAnswers (s : State) (as : List Answer) : State := { s with env := as }

end Sys2Proof.Machine
end

