-- ==== Sys2Proof/Machine/Step.lean ====
section
/-! DEFINITION. One step of the machine, and how an instruction word is placed where the next step takes it from. -/

namespace Sys2Proof.Machine

/-- One step: while BUSY = 1 none (R249); the frame in the slot; or the host's next descriptor (R30). -/
def step (s : State) : Host.Outcome State Fault Refusal := stepOnce s

/-- `s` with the instruction whose bits are `w` placed as the next to run (log 9, log 12, log 13). -/
def State.withFetchWord (s : State) (nbits w : Nat) : State := placeNext (present s.cfg nbits w) s

end Sys2Proof.Machine
end

