-- ==== Sys2Proof/Machine/Asm.lean ====
section
/-! DEFINITION. The assembler syntax of spec/30_encoding.md R122: one operation per line, the mnemonic, then the
operands in descriptor order separated by commas; `;` starts a comment. There are no pseudo-instructions: every
line is one host operation. What R122 leaves open about spaces is DESIGN CHOICE (log 15). -/

namespace Sys2Proof.Machine

/-- An operand as it is written (R122). -/
inductive AsmOperand where
  | number (v : Int)
  | payload (bs : List Byte)
  | text (bs : List Byte)
  deriving DecidableEq, Repr

/-- Spaces and tabs between the parts of a line (log 15). -/
def asmBlank (ch : Char) : Bool := ch == ' ' || ch == '\t'

/-- The line without its comment; a `;` inside a quoted text is a character of the text. -/
def stripComment : Bool → List Char → List Char
  | _, [] => []
  | inText, ch :: rest =>
    if ch == ';' && !inText then []
    else ch :: stripComment (if ch == '"' then !inText else inText) rest

/-- The characters without blanks at either end. -/
def trimBlanks (cs : List Char) : List Char := ((cs.dropWhile asmBlank).reverse.dropWhile asmBlank).reverse

/-- The value of a digit in base 10 or 16. -/
def digitValue (base : Nat) (ch : Char) : Option Nat :=
  let n := ch.toNat
  let v := if 48 ≤ n ∧ n ≤ 57 then n - 48
    else if 65 ≤ n ∧ n ≤ 70 then n - 55
    else if 97 ≤ n ∧ n ≤ 102 then n - 87
    else 16
  if v < base then some v else none

/-- Digits to a number, most significant first. -/
def digitsValue (base : Nat) : Nat → List Char → Option Nat
  | acc, [] => some acc
  | acc, ch :: rest =>
    match digitValue base ch with
    | some d => digitsValue base (base * acc + d) rest
    | none => none

/-- At least one digit. -/
def naturalValue (base : Nat) (cs : List Char) : Option Nat := if cs.isEmpty then none else digitsValue base 0 cs

/-- An integer: hexadecimal with `0x`, or decimal with an optional leading `-` (R122). -/
def integerValue (cs : List Char) : Option Int :=
  match cs with
  | '0' :: 'x' :: hex => (naturalValue 16 hex).map Int.ofNat
  | '-' :: dec => (naturalValue 10 dec).map (fun n => -(Int.ofNat n))
  | dec => (naturalValue 10 dec).map Int.ofNat

/-- Cut at the commas that stand in no bracket and in no text. `cur` is the part being read, last character first. -/
def splitOperands : (inText inList : Bool) → (cur : List Char) → List Char → List (List Char)
  | _, _, cur, [] => [cur.reverse]
  | inText, inList, cur, ch :: rest =>
    if ch == ',' && !inText && !inList then cur.reverse :: splitOperands false false [] rest
    else
      splitOperands (if ch == '"' then !inText else inText)
        (if inText then inList else if ch == '[' then true else if ch == ']' then false else inList)
        (ch :: cur) rest

/-- A byte written as an integer. -/
def byteValue (cs : List Char) : Option Byte :=
  match integerValue (trimBlanks cs) with
  | some v => if 0 ≤ v ∧ v ≤ 255 then some (BitVec.ofInt 8 v) else none
  | none => none

/-- All of them, or none. -/
def allValues {α : Type} : List (Option α) → Option (List α)
  | [] => some []
  | none :: _ => none
  | some a :: rest => (allValues rest).map (a :: ·)

/-- The bytes between the brackets of a payload. -/
def payloadValue (cs : List Char) : Option (List Byte) :=
  if (trimBlanks cs).isEmpty then some [] else allValues ((splitOperands false false [] cs).map byteValue)

/-- The characters of a text, each standing for its ASCII code (R122). -/
def textValue (cs : List Char) : Option (List Byte) :=
  if cs.all (fun ch => decide (ch.toNat < 128) && ch != '"') then some (cs.map (fun ch => BitVec.ofNat 8 ch.toNat))
  else none

/-- One operand: a bracketed payload, a double-quoted text, or an integer (R122). -/
def operandValue (cs : List Char) : Option AsmOperand :=
  match cs, cs.getLast? with
  | '[' :: rest, some ']' => (payloadValue rest.dropLast).map .payload
  | '"' :: rest, some '"' => if rest.isEmpty then none else (textValue rest.dropLast).map .text
  | _, _ => (integerValue cs).map .number

/-- A u8 operand. -/
def asmByte (v : Int) : Option Byte := if 0 ≤ v ∧ v ≤ 255 then some (BitVec.ofInt 8 v) else none

/-- A u16 operand. -/
def asmHalf (v : Int) : Option Half := if 0 ≤ v ∧ v ≤ 65535 then some (BitVec.ofInt 16 v) else none

/-- The operation of a mnemonic and its operands, in descriptor order (R116, R122). -/
def assemble (m : List Char) (ops : List AsmOperand) : Option Instr :=
  if m = "D.RESET".toList ∧ ops = [] then some .dReset
  else if m = "D.INIT".toList ∧ ops = [] then some .dInit
  else if m = "T.SAMPLE".toList ∧ ops = [] then some .tSample
  else if m = "T.GETTOUCH".toList ∧ ops = [] then some .tGettouch
  else
    match ops with
    | [.number op] => if m = "D.WRCMD".toList then (asmByte op).map (fun o => .dWrcmd o []) else none
    | [.number op, .payload pl] => if m = "D.WRCMD".toList then (asmByte op).map (fun o => .dWrcmd o pl) else none
    | [.number a, .number b] => if m = "T.NORM".toList then some (.tNorm a b) else none
    | [.number a, .number b, .number d] =>
      if m = "D.CPACK".toList then
        match asmByte a, asmByte b, asmByte d with
        | some r, some g, some bl => some (.dCpack r g bl)
        | _, _, _ => none
      else none
    | [.number a, .number b, .number d, .number e] =>
      if m = "D.SETWIN".toList then some (.dSetwin a b d e) else none
    | [.number a, .number b, .number d, .number e, .number f] =>
      if m = "D.FILLRECT".toList then (asmHalf f).map (fun color => .dFillrect a b d e color)
      else if m = "D.GLYPH".toList then
        match asmByte a, asmHalf e, asmHalf f with
        | some ch, some fg, some bg => some (.dGlyph ch b d fg bg)
        | _, _, _ => none
      else none
    | [.number a, .number b, .number d, .text t] =>
      if m = "D.TEXTD".toList then (asmHalf d).map (fun fg => .dTextd a b fg t) else none
    | [.number a, .number b, .number d, .number e, .text t] =>
      if m = "D.TEXT".toList then
        match asmHalf d, asmHalf e with
        | some fg, some bg => some (.dText a b fg bg t)
        | _, _ => none
      else none
    | _ => none

/-- One line of assembler (R122): the operation, where the line is one and its operands fit their fields. -/
def parseLine (line : List Char) : Option Instr :=
  let body := trimBlanks (stripComment false line)
  let m := body.takeWhile (fun ch => !asmBlank ch)
  let rest := trimBlanks (body.dropWhile (fun ch => !asmBlank ch))
  let ops := if rest.isEmpty then some []
    else allValues ((splitOperands false false [] rest).map (fun cs => operandValue (trimBlanks cs)))
  match ops with
  | some os => (assemble m os).filter Instr.wellFormed
  | none => none

end Sys2Proof.Machine
end

