-- ==== Sys2Proof/Machine/Trace.lean ====
section
/-! DEFINITION. Traces as the far ends see them: the frame formats of the wire layer (spec/30_encoding.md R100 to R108,
R113), what the panel makes of a list of events (spec/20_memory.md R69), panel-equivalence (spec/00_scope.md R16), and
counts over a trace (spec/42_display_glyph_text.md R185, spec/70_reset_and_hazards.md R268). -/

namespace Sys2Proof.Machine

/-- The command frame of R101 as a list of events. -/
def commandFrame (op : Byte) : List Byte → List Event
  | [] => [.line (.csD .asserted), .line (.dc .command), .write [op], .line (.csD .deasserted)]
  | b :: bs =>
    [.line (.csD .asserted), .line (.dc .command), .write [op], .line (.dc .data), .write (b :: bs),
      .line (.csD .deasserted)]

/-- The data frame of R102 as a list of events. -/
def dataFrame (bs : List Byte) : List Event :=
  [.line (.csD .asserted), .line (.dc .data), .write bs, .line (.csD .deasserted)]

/-- The conversion request frame of R113 as a list of events. -/
def conversionFrame (op : Byte) (rs : List Byte) : List Event :=
  [.line (.csT .asserted), .xfer [op, 0x00, 0x00] rs, .line (.csT .deasserted)]

/-- The three frames that set a window (R103 to R106, R160). -/
def windowFrames (c : Config) (x0 y0 x1 y1 : Half) : List Event :=
  commandFrame c.opCaset (be16 x0 ++ be16 x1) ++ commandFrame c.opRaset (be16 y0 ++ be16 y1)
    ++ commandFrame c.opRamwr []

/-- The data frames of `n` pixels of one colour, `chunk` pixels to a full frame, the short frame last (R163). -/
def chunkFrames (color : Half) (chunk n : Nat) : List Event :=
  (List.replicate (n / chunk) (dataFrame (rep (be16 color) chunk))).flatten
    ++ (if n % chunk = 0 then [] else dataFrame (rep (be16 color) (n % chunk)))

/-- The frames of one glyph (R181). -/
def glyphFrames (c : Config) (ch : Byte) (x y : Int) (fg bg : Half) : List Event :=
  windowFrames c (BitVec.ofInt 16 x) (BitVec.ofInt 16 y) (BitVec.ofInt 16 (x + 7)) (BitVec.ofInt 16 (y + 7))
    ++ dataFrame (raster (glyphOf c ch) fg bg)

/-- The frames of a text at fixed advance 8 (R183). -/
def textFrames (c : Config) (x y : Int) (fg bg : Half) : List Byte → List Event
  | [] => []
  | ch :: text => glyphFrames c ch x y fg bg ++ textFrames c (x + 8) y fg bg text

/-- The frames of a sample: X, then Y (R202). -/
def sampleFrames (c : Config) (rsX rsY : List Byte) : List Event :=
  conversionFrame c.opConvX rsX ++ conversionFrame c.opConvY rsY

/-- The frames of the initialisation table (R108, R142). -/
def tableFrames : List InitEntry → List Event
  | [] => []
  | e :: es => commandFrame e.op e.payload ++ tableFrames es

/-- The events of D.INIT (R142). -/
def initFrames (c : Config) : List Event :=
  tableFrames c.initTable ++ commandFrame c.opSlpout [] ++ [.sleep 120] ++ commandFrame c.opDispon []

/-- The events of D.RESET (R141). -/
def resetPulse (c : Config) : List Event :=
  if c.hasRst then [.line (.rst .low), .sleep 50, .line (.rst .high), .sleep 50] else []

/-- The two lines the panel listens to, and the panel (R69). -/
structure Heard where
  csD : Select
  dc : DcLevel
  panel : Panel
  deriving DecidableEq, Repr

/-- What an event does at the panel's end (R69). -/
def Heard.event (c : Config) (h : Heard) : Event → Heard
  | .line (.csD v) => { h with csD := v }
  | .line (.dc v) => { h with dc := v }
  | .line (.rst v) => { h with panel := h.panel.onDrive (.rst v) }
  | .line (.csT _) => h
  | .write bs => { h with panel := h.panel.listen c h.csD h.dc bs }
  | .xfer _ _ => h
  | .sleep _ => h

/-- What a list of events does at the panel's end. -/
def Heard.events (c : Config) (h : Heard) (es : List Event) : Heard := es.foldl (Heard.event c) h

/-- The panel's end of a state. -/
def State.heard (s : State) : Heard := ⟨s.csD, s.dc, s.panel⟩

/-- The panel after a state's panel has heard these events. -/
def panelHears (s : State) (es : List Event) : Panel := (s.heard.events s.cfg es).panel

/-- The data transaction a run has gathered so far, if any. -/
def gathered : Option (List Byte) → List Event
  | none => []
  | some bs => dataFrame bs

/-- Every maximal run of consecutive data transactions replaced by one with the concatenation of their bytes (R16). -/
def mergeData : Option (List Byte) → List Event → List Event
  | acc, .line (.csD .asserted) :: .line (.dc .data) :: .write bs :: .line (.csD .deasserted) :: es =>
    mergeData (some (acc.getD [] ++ bs)) es
  | acc, e :: es => gathered acc ++ e :: mergeData none es
  | acc, [] => gathered acc

/-- Panel-equivalence of two traces (R16). -/
def panelEquivalent (es fs : List Event) : Prop := mergeData none es = mergeData none fs

/-- The sum of the sleeps: a lower bound on elapsed milliseconds (R268). -/
def sleepTotal : List Event → Nat
  | [] => 0
  | .sleep n :: es => n + sleepTotal es
  | .line _ :: es => sleepTotal es
  | .write _ :: es => sleepTotal es
  | .xfer _ _ :: es => sleepTotal es

/-- The conversion round-trips of a list of events (R209). -/
def xferCount : List Event → Nat
  | [] => 0
  | .xfer _ _ :: es => 1 + xferCount es
  | .line _ :: es => xferCount es
  | .write _ :: es => xferCount es
  | .sleep _ :: es => xferCount es

/-- The `W` events of a list of events (R185). -/
def writeCount : List Event → Nat
  | [] => 0
  | .write _ :: es => 1 + writeCount es
  | .line _ :: es => writeCount es
  | .xfer _ _ :: es => writeCount es
  | .sleep _ :: es => writeCount es

/-- The bytes that the `W` events carry, in order (R185). -/
def writtenBytes : List Event → List Byte
  | [] => []
  | .write bs :: es => bs ++ writtenBytes es
  | .line _ :: es => writtenBytes es
  | .xfer _ _ :: es => writtenBytes es
  | .sleep _ :: es => writtenBytes es

end Sys2Proof.Machine
end

