-- ==== Sys2Proof/Safety.lean ====
section
/-! DEFINITION. The terms claims are stated in: when the transport answers, which events an operation sends, a good
run (spec/70_reset_and_hazards.md R271), and the invariant of the machine. -/

namespace Sys2Proof.Machine

/-- The environment completes this transport call. -/
def Answer.completes : Answer → Bool
  | .ok _ => true
  | .fault _ => false
  | .stall _ => false

/-- The bytes this answer names for a read-back. -/
def Answer.given : Answer → List Byte
  | .ok bs => bs
  | .fault _ => []
  | .stall _ => []

/-- The block accepts an operation, no fault is recorded, and the environment completes the next `n` transport calls:
the premise of every claim that an operation runs to its end (R28, R249, R272). -/
def busReady (n : Nat) (s : State) : Prop :=
  s.busy = false ∧ s.fault = false ∧ (s.env.take n).all Answer.completes = true

/-- The three bytes that transport call number `k` from now reads back when it completes (R13, U9). -/
def answerBytes (s : State) (k : Nat) : List Byte :=
  readback (s.busCalls + k) ((s.env.getD k (.ok [])).given) 3

/-- The reading of transport call number `k` from now (R201). -/
def answerReading (s : State) (k : Nat) : Nat := reading (answerBytes s k)

/-- The sample that calls `k` and `k + 1` from now give (R202). -/
def answerSample (s : State) (k : Nat) : Nat × Nat := rangeFilter (answerReading s k) (answerReading s (k + 1))

/-- The events an instruction sends to the panel's end when every transport call completes (R101, R141, R142, R160,
R163, R181, R183, R184); none for the touch unit's and for D.CPACK, and none for an operation refused by its range
test. -/
def displayFrames (c : Config) : Instr → List Event
  | .dReset => resetPulse c
  | .dInit => initFrames c
  | .dWrcmd op payload => commandFrame op payload
  | .dSetwin x0 y0 x1 y1 =>
    if setwinBad x0 y0 x1 y1 then []
    else windowFrames c (BitVec.ofInt 16 x0) (BitVec.ofInt 16 y0) (BitVec.ofInt 16 x1) (BitVec.ofInt 16 y1)
  | .dFillrect x y w h color =>
    let r := fillRect c x y w h
    if r.wc * r.hc = 0 then []
    else
      windowFrames c (BitVec.ofInt 16 r.window.x0) (BitVec.ofInt 16 r.window.y0) (BitVec.ofInt 16 r.window.x1)
          (BitVec.ofInt 16 r.window.y1)
        ++ chunkFrames color c.chunk r.pixels
  | .dGlyph ch x y fg bg => if glyphBad x y then [] else glyphFrames c ch x y fg bg
  | .dText x y fg bg text => if textBad x y text.length then [] else textFrames c x y fg bg text
  | .dTextd x y fg text => if textBad x y text.length then [] else textFrames c x y fg c.bgDefault text
  | .dCpack _ _ _ => []
  | .tSample => []
  | .tGettouch => []
  | .tNorm _ _ => []
  | .wireCaset x0 x1 => commandFrame c.opCaset (be16 x0 ++ be16 x1)
  | .wireRaset y0 y1 => commandFrame c.opRaset (be16 y0 ++ be16 y1)
  | .wireRamwr => commandFrame c.opRamwr []
  | .wireSlpout => commandFrame c.opSlpout []
  | .wireDispon => commandFrame c.opDispon []
  | .wireConvX => []
  | .wireConvY => []

/-- The events a touch operation or a conversion request appends when every transport call completes and, for T.GETTOUCH,
the first sample is not (0, 0): its sample frames with the bytes the environment has for them (R113, R200, R202, R204). -/
def touchFrames (s : State) : Instr → List Event
  | .tSample => sampleFrames s.cfg (answerBytes s 0) (answerBytes s 1)
  | .tGettouch =>
    sampleFrames s.cfg (answerBytes s 0) (answerBytes s 1) ++ [.sleep tSettle]
      ++ sampleFrames s.cfg (answerBytes s 2) (answerBytes s 3) ++ [.sleep tSettle]
      ++ sampleFrames s.cfg (answerBytes s 4) (answerBytes s 5)
  | .wireConvX => conversionFrame s.cfg.opConvX (answerBytes s 0)
  | .wireConvY => conversionFrame s.cfg.opConvY (answerBytes s 0)
  | .dReset => []
  | .dInit => []
  | .dWrcmd _ _ => []
  | .dSetwin _ _ _ _ => []
  | .dFillrect _ _ _ _ _ => []
  | .dGlyph _ _ _ _ _ => []
  | .dText _ _ _ _ _ => []
  | .dTextd _ _ _ _ => []
  | .dCpack _ _ _ => []
  | .tNorm _ _ => []
  | .wireCaset _ _ => []
  | .wireRaset _ _ => []
  | .wireRamwr => []
  | .wireSlpout => []
  | .wireDispon => []

/-- The state after these events, when the transport completes every call: the trace, the three lines of the display
unit, the panel, and the environment's answers used up. -/
def State.afterEvents (s : State) (es : List Event) : State :=
  { s with
    csD := (s.heard.events s.cfg es).csD
    dc := (s.heard.events s.cfg es).dc
    panel := (s.heard.events s.cfg es).panel
    trace := s.trace ++ es
    env := s.env.drop (writeCount es)
    busCalls := s.busCalls + writeCount es }

/-- The host's side is as it was: its program, its index, whether it has stopped, and the frame slot. -/
def sameHost (s t : State) : Prop :=
  t.program = s.program ∧ t.hpc = s.hpc ∧ t.hostStopped = s.hostStopped ∧ t.frame = s.frame

/-- The result registers are as they were. -/
def sameResults (s t : State) : Prop :=
  t.resKind = s.resKind ∧ t.resX = s.resX ∧ t.resY = s.resY ∧ t.resC = s.resC

/-- The working registers of the display unit are as they were. -/
def sameDisplayWork (s t : State) : Prop :=
  t.work.gbuf = s.work.gbuf ∧ t.work.cbuf = s.work.cbuf ∧ t.work.pcnt = s.work.pcnt ∧ t.work.wx0 = s.work.wx0
    ∧ t.work.wy0 = s.work.wy0 ∧ t.work.wx1 = s.work.wx1 ∧ t.work.wy1 = s.work.wy1 ∧ t.work.tidx = s.work.tidx

/-- The working registers of the touch unit are as they were. -/
def sameTouchWork (s t : State) : Prop := t.work.s1 = s.work.s1 ∧ t.work.s2 = s.work.s2 ∧ t.work.s3 = s.work.s3

/-- Every byte of the frame memory that belongs to no pixel of the window (x0, y0) to (x1, y1) reads as before, unless
the panel model has stopped (R74). -/
def bytesKeptOutside (s t : State) (x0 y0 x1 y1 : Int) : Prop :=
  t.panel.refused = none → ∀ a : Nat,
    (∀ x y : Nat, x0 ≤ (x : Int) → (x : Int) ≤ x1 → y0 ≤ (y : Int) → (y : Int) ≤ y1 →
      a ≠ gramAddr x y ∧ a ≠ gramAddr x y + 1) →
    Memory.read t.panel.gram a = Memory.read s.panel.gram a

/-- Every byte of the frame memory reads as before, unless the panel model has stopped (R74). -/
def memoryKept (s t : State) : Prop :=
  t.panel.refused = none → ∀ a : Nat, Memory.read t.panel.gram a = Memory.read s.panel.gram a

/-- The panel model is live and takes a new window: ready, not stopped, no half pixel pending (R70, R74, R75), and the
premise InitTableOK stands (R73, U21). -/
def Panel.takesWindow (p : Panel) : Prop :=
  p.ready = true ∧ p.refused = none ∧ p.half = none ∧ p.initTableOK = true

/-- A good run: it "ends with hpc = m, FAULT = 0, REFUSED = 0, CS_D = deasserted and CS_T = deasserted" (R271). -/
def goodRun (s : State) : Prop :=
  s.hpc = s.program.length ∧ s.fault = false ∧ s.refused = false ∧ s.csD = .deasserted ∧ s.csT = .deasserted

/-- The sizes of the working registers (R29). -/
def workSizes (s : State) : Prop :=
  s.work.gbuf.length = 128 ∧ s.work.cbuf.length = 2 * s.cfg.chunk ∧ s.work.pcnt ≤ s.cfg.panelW * s.cfg.panelH

/-- At most one peripheral is mid-transaction, and between operations none is unless a fault is recorded (R61, R232). -/
def linesExclusive (s : State) : Prop :=
  ¬ (s.csD = .asserted ∧ s.csT = .asserted)
    ∧ (s.busy = false → s.fault = false → s.csD = .deasserted ∧ s.csT = .deasserted)

/-- STATUS, FAULT, REFUSED and RES_KIND agree (R25, R26, R27). -/
def flagsAgree (s : State) : Prop :=
  (s.status = .transportFault → s.fault = true) ∧ (s.status = .operandRange → s.refused = true)
    ∧ (s.status = .illegalOp → s.refused = true) ∧ (s.status ≠ .ok → s.resKind = .none)

/-- The ranges of the result registers (R27): a sample is (0, 0) or has both readings in [100, 4000]; a point is in
[0, PANEL_W] × [0, PANEL_H]. -/
def resultsInRange (s : State) : Prop :=
  (s.resKind = .sample →
      (s.resX.toNat = 0 ∧ s.resY.toNat = 0)
        ∨ (100 ≤ s.resX.toNat ∧ s.resX.toNat ≤ 4000 ∧ 100 ≤ s.resY.toNat ∧ s.resY.toNat ≤ 4000))
    ∧ (s.resKind = .point → s.resX.toNat ≤ s.cfg.panelW ∧ s.resY.toNat ≤ s.cfg.panelH)

/-- Every byte of the frame memory belongs to a pixel of the panel, and the memory is in canonical form (R60, R68). -/
def gramOnPanel (s : State) : Prop :=
  Memory.wf s.panel.gram = true
    ∧ ∀ cell ∈ s.panel.gram, ∃ x y : Nat, x < s.cfg.panelW ∧ y < s.cfg.panelH
        ∧ (cell.1 = gramAddr x y ∨ cell.1 = gramAddr x y + 1)

/-- The invariant of the machine. -/
def Inv (s : State) : Prop :=
  s.cfg.valid = true ∧ workSizes s ∧ linesExclusive s ∧ flagsAgree s ∧ resultsInRange s ∧ gramOnPanel s

end Sys2Proof.Machine
end

