-- ==== Sys2Proof/Certificates/Slice0/Obligations.lean ====
section
/-! DEFINITION. The statements for the provers. Each docstring names the rules of spec/ it formalises and, where it
rests on a choice of the model, the log entry.

A statement of the form "exec i s = .next { s with … }" gives the whole next state: what it does not name is
unchanged. The fields env and busCalls are the model's own (logs 10 and 11). -/

open Sys2Proof Sys2Proof.Machine

/-! ### Encoding and decoding -/

/-- R115 to R118: a descriptor decodes back to the host operation it encodes, with every operand. -/
def Obligations.HostDescriptorRoundTrip : Prop :=
  ∀ (c : Config) (i : Instr), i.isHost = true → i.wellFormed = true → decode (encode c i) = .ok i

/-- R115 to R119: what decodes is a well-formed host operation, and the descriptor is its encoding: no descriptor is
read in two ways and no bit of one is dropped. -/
def Obligations.DecodedDescriptorIsItsEncoding : Prop :=
  ∀ (c : Config) (bs : List Byte) (i : Instr), decode bs = .ok i →
    i.isHost = true ∧ i.wellFormed = true ∧ encode c i = bs

/-- R101, R103 to R107, R113: a frame of the wire layer decodes back, under any seven opcodes that can be told apart. -/
def Obligations.WireFrameRoundTrip : Prop :=
  ∀ (c : Config) (i : Instr), c.wireDistinct = true → i.isHost = false →
    decodeFrame c i.target (encode c i) = .ok i

/-- R119, R234: a descriptor that is empty, has a reserved HOP, or is not as long as its layout needs ends at once
with status IllegalOp, REFUSED set, no result and no event; and the host stops (R30). Every other one decodes. That
RES_X, RES_Y and RES_C keep their values is the model's choice (log 3). -/
def Obligations.MalformedDescriptorEndsIllegalOp : Prop :=
  ∀ (s : State) (d : List Byte), s.busy = false → s.frame = none → nextDescriptor s = some d →
    ((d = [] ∨ d.headD 0 ∉ [0x01, 0x02, 0x03, 0x04, 0x05, 0x06, 0x07, 0x08, 0x09, 0x10, 0x11, 0x12]
          ∨ d.length ≠ descriptorLength d) →
        step s = .next { s with status := .illegalOp, refused := true, resKind := .none, hostStopped := true })
      ∧ (¬ (d = [] ∨ d.headD 0 ∉ [0x01, 0x02, 0x03, 0x04, 0x05, 0x06, 0x07, 0x08, 0x09, 0x10, 0x11, 0x12]
          ∨ d.length ≠ descriptorLength d) →
        ∃ i, decode d = .ok i)

/-- R117 and R103, R113: words written out from the tables of field positions, at least one per family; R122: the rule's
own example lines. -/
def Obligations.WrittenOutWordsAndLinesDecode : Prop :=
  (decode [0x01] = .ok .dReset
      ∧ decode [0x03, 0x36, 0x01, 0x48] = .ok (.dWrcmd 0x36 [0x48])
      ∧ decode [0x05, 0xFF, 0xFB, 0x00, 0x14, 0x00, 0x1E, 0x80, 0x00, 0xF8, 0x00]
          = .ok (.dFillrect (-5) 20 30 (-32768) 0xF800)
      ∧ decode [0x06, 0x41, 0x00, 0x10, 0x00, 0x18, 0xFF, 0xFF, 0x00, 0x01] = .ok (.dGlyph 0x41 16 24 0xFFFF 0x0001)
      ∧ decode [0x12, 0x07, 0xD0, 0x80, 0x00] = .ok (.tNorm 2000 (-32768))
      ∧ decodeFrame Config.tc1 .panel [0x2A, 0x00, 0x0A, 0x00, 0x27] = .ok (.wireCaset 10 39)
      ∧ decodeFrame Config.tc1 .digitizer [0xD0, 0x00, 0x00] = .ok .wireConvX)
    ∧ parseLine "D.FILLRECT 10, 20, 30, 40, 0xF800".toList = some (.dFillrect 10 20 30 40 0xF800)
    ∧ parseLine "D.WRCMD 0x36, [0x48]".toList = some (.dWrcmd 0x36 [0x48])
    ∧ parseLine "D.WRCMD 0x29".toList = some (.dWrcmd 0x29 [])
    ∧ parseLine "D.TEXT 0, 0, 0xFFFF, 0x0000, \"Hi\"".toList = some (.dText 0 0 0xFFFF 0x0000 [0x48, 0x69])
    ∧ parseLine "D.TEXTD 0, 0, 0xFFFF, \"Hi\"".toList = some (.dTextd 0 0 0xFFFF [0x48, 0x69])
    ∧ parseLine "T.GETTOUCH".toList = some .tGettouch

/-- R118 and R12: the value of a two-byte field, unsigned and signed, and its bytes, most significant first. -/
def Obligations.TwoByteFieldValues : Prop :=
  ∀ a b : Byte,
    (unbe16 a b).toNat = a.toNat * 256 + b.toNat ∧ be16 (unbe16 a b) = [a, b]
      ∧ s16 a b = (if a.toNat * 256 + b.toNat < 32768 then ((a.toNat * 256 + b.toNat : Nat) : Int)
          else ((a.toNat * 256 + b.toNat : Nat) : Int) - 65536)
      ∧ -32768 ≤ s16 a b ∧ s16 a b ≤ 32767

/-! ### The step -/

/-- R30, R140: when the host's next descriptor decodes to an instruction, step is exec of it and then the host's own
move. -/
def Obligations.StepRunsTheDescriptor : Prop :=
  ∀ (s : State) (d : List Byte) (i : Instr), s.busy = false → s.frame = none → nextDescriptor s = some d →
    decode d = .ok i → step s = onNext (exec i s) hostAdvance

/-- Log 12: when the frame slot holds a frame that decodes to an instruction, step is exec of it, and the slot is
empty. -/
def Obligations.StepRunsTheFrame : Prop :=
  ∀ (s : State) (f : WireFrame) (i : Instr), s.busy = false → s.frame = some f →
    decodeFrame s.cfg f.target f.bytes = .ok i → step s = onNext (exec i s) clearFrame

/-- R30: hpc counts up when an operation ends with status OK, the host stops when it ends with another, and it issues
nothing past the end of its list; R35: the block executes nothing until the host issues an operation. -/
def Obligations.HostIndexCountsOkOperations : Prop :=
  ∀ (s : State), s.busy = false → s.frame = none →
    (nextDescriptor s = none → step s = .next s)
      ∧ ∀ (d : List Byte) (t : State), nextDescriptor s = some d → step s = .next t →
          t.program = s.program
            ∧ (t.busy = false → t.status = .ok → t.hpc = s.hpc + 1 ∧ t.hostStopped = false)
            ∧ (t.busy = false → t.status ≠ .ok → t.hpc = s.hpc ∧ t.hostStopped = true)
            ∧ (t.busy = true → t.hpc = s.hpc ∧ t.hostStopped = false)

/-- R28, D2: the block accepts no second operation while BUSY = 1. R249, U12: a run whose transport call never returned
has no next state. -/
def Obligations.BusyBlockHasNoMove : Prop :=
  ∀ (s : State), s.busy = true → (∀ i : Instr, exec i s = .fault .busy) ∧ step s = .fault .stalled

/-! ### Construction and reset -/

/-- R7: a configuration that breaks a constraint is not constructed, and every other one is. R21, R35, R68: what block
reset leaves, as far as the rules give a value. -/
def Obligations.ConstructionAndResetValues : Prop :=
  ∀ c : Config,
    (((1 ≤ c.panelW ∧ c.panelW ≤ 32767) ∧ (1 ≤ c.panelH ∧ c.panelH ≤ 32767) ∧ 1 ≤ c.chunk
        ∧ (c.opCaset ≠ c.opRaset ∧ c.opCaset ≠ c.opRamwr ∧ c.opRaset ≠ c.opRamwr)
        ∧ (-32768 ≤ c.calX0 ∧ c.calX0 ≤ 32767) ∧ (-32768 ≤ c.calY0 ∧ c.calY0 ≤ 32767)
        ∧ (-32768 ≤ c.calX1 ∧ c.calX1 ≤ 32767) ∧ (-32768 ≤ c.calY1 ∧ c.calY1 ≤ 32767)
        ∧ c.calX1 ≠ c.calX0 ∧ c.calY1 ≠ c.calY0
        ∧ c.font.length = 256 ∧ ∀ g ∈ c.font, g.length = 8)
      ↔ (State.construct c).isSome = true)
      ∧ ∀ s, State.construct c = some s →
          s.cfg = c ∧ s.csD = .deasserted ∧ s.csT = .deasserted ∧ s.status = .ok ∧ s.fault = false
            ∧ s.refused = false ∧ s.resKind = .none ∧ s.busy = false ∧ s.trace = [] ∧ s.hpc = 0
            ∧ s.panel.ready = false

/-- R25, R27: the codes of STATUS and RES_KIND. That the code of RES_KIND is 3 bits wide is the model's choice (log 17). -/
def Obligations.StatusAndResultCodes : Prop :=
  (statusCode .ok = 0 ∧ statusCode .transportFault = 1 ∧ statusCode .operandRange = 2 ∧ statusCode .illegalOp = 3)
    ∧ (resKindCode .none = 0 ∧ resKindCode .colour = 1 ∧ resKindCode .sample = 2 ∧ resKindCode .noTouch = 3
        ∧ resKindCode .point = 4)

/-! ### Arithmetic -/

/-- R165: the window of D.FILLRECT lies on the panel, for all integers. R166: the zero-area test never fires; a width
or height of 0 or less becomes 1. -/
def Obligations.FillWindowIsOnPanelAndNotEmpty : Prop :=
  ∀ (c : Config) (x y w h : Int), c.valid = true →
    let r := fillRect c x y w h
    (0 ≤ r.xc ∧ r.xc ≤ r.xc + r.wc - 1 ∧ r.xc + r.wc - 1 ≤ (c.panelW : Int) - 1)
      ∧ (0 ≤ r.yc ∧ r.yc ≤ r.yc + r.hc - 1 ∧ r.yc + r.hc - 1 ≤ (c.panelH : Int) - 1)
      ∧ (1 ≤ r.wc ∧ 1 ≤ r.hc ∧ r.wc * r.hc ≠ 0)
      ∧ (w ≤ 0 → r.wc = 1) ∧ (h ≤ 0 → r.hc = 1)

/-- R110: the packing formula on integers, which bits of the colour each component gives, and LD's examples. -/
def Obligations.ColourPackingFormula : Prop :=
  (∀ r g b : Byte,
    (colorPack r g b).toNat = ((r.toNat &&& 0xF8) <<< 8) ||| ((g.toNat &&& 0xFC) <<< 3) ||| (b.toNat >>> 3)
      ∧ (colorPack r g b).extractLsb' 11 5 = r.extractLsb' 3 5
      ∧ (colorPack r g b).extractLsb' 5 6 = g.extractLsb' 2 6
      ∧ (colorPack r g b).extractLsb' 0 5 = b.extractLsb' 3 5)
    ∧ colorPack 255 0 0 = 0xF800 ∧ colorPack 0 255 0 = 0x07E0 ∧ colorPack 0 0 255 = 0x001F

/-- R180: the 128 bytes of the glyph buffer, pixel p = 8r + k in bytes 2p and 2p + 1, bit 7 − k of row r. -/
def Obligations.RasterPixelBytes : Prop :=
  ∀ (g : List Byte) (fg bg : Half), g.length = 8 →
    (raster g fg bg).length = 128
      ∧ ∀ r k : Nat, r < 8 → k < 8 →
          (raster g fg bg)[2 * (8 * r + k)]?
              = some (if ((g.getD r 0).toNat >>> (7 - k)) &&& 1 = 1 then hi8 fg else hi8 bg)
            ∧ (raster g fg bg)[2 * (8 * r + k) + 1]?
              = some (if ((g.getD r 0).toNat >>> (7 - k)) &&& 1 = 1 then lo8 fg else lo8 bg)

/-- R114: the reading is the big-endian value of bytes 1 and 2 read back shifted right by 3, no mask, in [0, 8191];
byte 0 is ignored; a reading of 4096 or more is rejected by the range filter, on either axis. -/
def Obligations.ReadingIsTheShiftedResponse : Prop :=
  ∀ a b d a' : Byte,
    reading [a, b, d] = (b.toNat * 256 + d.toNat) / 8 ∧ reading [a, b, d] ≤ 8191
      ∧ reading [a', b, d] = reading [a, b, d]
      ∧ ∀ r : Nat, 4096 ≤ reading [a, b, d] →
          rangeFilter (reading [a, b, d]) r = (0, 0) ∧ rangeFilter r (reading [a, b, d]) = (0, 0)

/-- R202: a sample is the pair of readings when both lie in [100, 4000], and (0, 0) otherwise; so it is (0, 0) or has
both coordinates in [100, 4000]. R204 (e): the averages of three in-range samples are in [100, 4000]. -/
def Obligations.RangeFilterAndAverage : Prop :=
  (∀ rx ry : Nat,
      (100 ≤ rx ∧ rx ≤ 4000 ∧ 100 ≤ ry ∧ ry ≤ 4000 → rangeFilter rx ry = (rx, ry))
        ∧ (¬ (100 ≤ rx ∧ rx ≤ 4000 ∧ 100 ≤ ry ∧ ry ≤ 4000) → rangeFilter rx ry = (0, 0)))
    ∧ ∀ a b d : Nat, 100 ≤ a → a ≤ 4000 → 100 ≤ b → b ≤ 4000 → 100 ≤ d → d ≤ 4000 →
        average a b d = ((a + b + d) / 3 : Nat) ∧ 100 ≤ average a b d ∧ average a b d ≤ 4000

/-- R205: exactly three differences are tested, and a difference of exactly 50 passes; the rule's consequence. -/
def Obligations.ConsistencyCheckIsAsymmetric : Prop :=
  (inconsistent (1000, 1000) (1000, 1000) (1000, 3000) = false ∧ average 1000 1000 1000 = 1000
      ∧ average 1000 1000 3000 = 1666)
    ∧ ∀ x1 y1 x2 y2 x3 y3 : Nat,
    (inconsistent (x1, y1) (x2, y2) (x3, y3) = false ↔
      ((x1 : Int) - x2).natAbs ≤ 50 ∧ ((x1 : Int) - x3).natAbs ≤ 50 ∧ ((y1 : Int) - y2).natAbs ≤ 50)
      ∧ ∀ y3' : Nat, inconsistent (x1, y1) (x2, y2) (x3, y3') = inconsistent (x1, y1) (x2, y2) (x3, y3)

/-- R206, R207: the formula; the result is in [0, PANEL_W] × [0, PANEL_H]; the reference points map to the corners;
beyond them the result is 0 or the panel's size, whichever way the axis runs. -/
def Obligations.NormalizeMapsTheReferencePoints : Prop :=
  ∀ (c : Config) (rawX rawY : Int), c.valid = true →
    normalize c rawX rawY
        = (min (c.panelW : Int) (max 0 (((rawX - c.calX0) * c.panelW).tdiv (c.calX1 - c.calX0))),
           min (c.panelH : Int) (max 0 (((rawY - c.calY0) * c.panelH).tdiv (c.calY1 - c.calY0))))
      ∧ (0 ≤ (normalize c rawX rawY).1 ∧ (normalize c rawX rawY).1 ≤ c.panelW)
      ∧ (0 ≤ (normalize c rawX rawY).2 ∧ (normalize c rawX rawY).2 ≤ c.panelH)
      ∧ normalize c c.calX0 c.calY0 = (0, 0)
      ∧ normalize c c.calX1 c.calY1 = ((c.panelW : Int), (c.panelH : Int))
      ∧ (c.calX0 < c.calX1 →
          (rawX ≤ c.calX0 → (normalize c rawX rawY).1 = 0)
            ∧ (c.calX1 ≤ rawX → (normalize c rawX rawY).1 = c.panelW))
      ∧ (c.calX1 < c.calX0 →
          (c.calX0 ≤ rawX → (normalize c rawX rawY).1 = 0)
            ∧ (rawX ≤ c.calX1 → (normalize c rawX rawY).1 = c.panelW))
      ∧ (c.calY0 < c.calY1 →
          (rawY ≤ c.calY0 → (normalize c rawX rawY).2 = 0)
            ∧ (c.calY1 ≤ rawY → (normalize c rawX rawY).2 = c.panelH))
      ∧ (c.calY1 < c.calY0 →
          (c.calY0 ≤ rawY → (normalize c rawX rawY).2 = 0)
            ∧ (rawY ≤ c.calY1 → (normalize c rawX rawY).2 = c.panelH))

/-- R208: truncation and floor give the same Normalize. -/
def Obligations.TruncationAndFloorAgree : Prop :=
  ∀ (c : Config) (rawX rawY : Int), c.valid = true →
    normalize c rawX rawY
      = (clip (((rawX - c.calX0) * c.panelW).fdiv (c.calX1 - c.calX0)) 0 c.panelW,
         clip (((rawY - c.calY0) * c.panelH).fdiv (c.calY1 - c.calY0)) 0 c.panelH)

/-! ### What each operation does when it runs to its end -/

/-- R141, R68: with the reset line the pulse, and a panel whose streaming, ready, awake and on flags are false;
without it no event at all. D.RESET uses no transport call, so nothing is asked of the environment or of FAULT. That
RES_X, RES_Y and RES_C keep their values is the model's choice (log 3). -/
def Obligations.ResetPulseCompletes : Prop :=
  ∀ s : State, s.busy = false →
    (s.cfg.hasRst = true →
      ∃ p : Panel, (p.streaming = false ∧ p.ready = false ∧ p.awake = false ∧ p.on = false) ∧
        exec .dReset s = .next
          { s with
            rst := .high
            trace := s.trace ++ [.line (.rst .low), .sleep 50, .line (.rst .high), .sleep 50]
            panel := p
            status := .ok
            resKind := .none })
      ∧ (s.cfg.hasRst = false → exec .dReset s = .next { s with status := .ok, resKind := .none })

/-- R142, R144, R107, R108: every table entry as a command frame in order, sleep-out, 120 ms, display-on. R70: a panel
model that has not stopped is then ready, awake and on; one that has stopped stays so (log 8). R73, U21: the premise
InitTableOK stands after it only where the panel was freshly reset (log 7). That RES_X, RES_Y and RES_C keep their values
is the model's choice (log 3). -/
def Obligations.InitSequenceCompletes : Prop :=
  ∀ s : State, busReady (writeCount (initFrames s.cfg)) s →
    ∃ (n : Nat) (t : State), exec .dInit s = .next t
      ∧ t =
        { s with
          csD := .deasserted
          dc := .command
          trace := s.trace ++ initFrames s.cfg
          panel := (panelHears { s with panel := s.panel.beginInit } (initFrames s.cfg)).markReady
          work := { s.work with tidx := n }
          status := .ok
          resKind := .none
          env := s.env.drop (writeCount (initFrames s.cfg))
          busCalls := s.busCalls + writeCount (initFrames s.cfg) }
      ∧ (t.panel.refused = none → t.panel.ready = true ∧ t.panel.awake = true ∧ t.panel.on = true
          ∧ t.panel.initTableOK = (s.panel.initTableOK && s.panel.fresh))

/-- R143, R144, R101: one command frame, whatever the opcode and the payload; after it DC is data when there was a
payload and command when there was none. That an opaque opcode ends the premise InitTableOK is log 7; that RES_X, RES_Y
and RES_C keep their values is log 3. -/
def Obligations.RawCommandCompletes : Prop :=
  ∀ (s : State) (op : Byte) (payload : List Byte), busReady (if payload.isEmpty then 1 else 2) s →
    exec (.dWrcmd op payload) s = .next
      { s with
        csD := .deasserted
        dc := if payload.isEmpty then .command else .data
        trace := s.trace ++ commandFrame op payload
        panel := panelHears { s with panel := s.panel.noteCommand s.cfg op } (commandFrame op payload)
        status := .ok
        resKind := .none
        env := s.env.drop (if payload.isEmpty then 1 else 2)
        busCalls := s.busCalls + (if payload.isEmpty then 1 else 2) }

/-- R160, R161, R103 to R106: three frames, the bounds as given, no clipping. That RES_X, RES_Y and RES_C keep their
values is log 3. -/
def Obligations.SetWindowCompletes : Prop :=
  ∀ (s : State) (x0 y0 x1 y1 : Half), busReady 5 s →
    exec (.dSetwin x0.toNat y0.toNat x1.toNat y1.toNat) s = .next
      { s with
        csD := .deasserted
        dc := .command
        trace := s.trace ++ windowFrames s.cfg x0 y0 x1 y1
        panel := panelHears s (windowFrames s.cfg x0 y0 x1 y1)
        work := { s.work with wx0 := x0, wy0 := y0, wx1 := x1, wy1 := y1 }
        status := .ok
        resKind := .none
        env := s.env.drop 5
        busCalls := s.busCalls + 5 }

/-- R162, R160, R163: the clipped window, then the pixels in chunks, full chunks first, the short one last. That RES_X,
RES_Y and RES_C keep their values is log 3. -/
def Obligations.FillRectCompletes : Prop :=
  ∀ (s : State) (x y w h : Int) (color : Half), s.cfg.valid = true →
    busReady (writeCount (displayFrames s.cfg (.dFillrect x y w h color))) s →
    exec (.dFillrect x y w h color) s = .next
      { s with
        csD := .deasserted
        dc := .data
        trace := s.trace
          ++ windowFrames s.cfg (BitVec.ofInt 16 (fillRect s.cfg x y w h).xc)
              (BitVec.ofInt 16 (fillRect s.cfg x y w h).yc)
              (BitVec.ofInt 16 ((fillRect s.cfg x y w h).xc + (fillRect s.cfg x y w h).wc - 1))
              (BitVec.ofInt 16 ((fillRect s.cfg x y w h).yc + (fillRect s.cfg x y w h).hc - 1))
          ++ chunkFrames color s.cfg.chunk ((fillRect s.cfg x y w h).wc * (fillRect s.cfg x y w h).hc).toNat
        panel := panelHears s (displayFrames s.cfg (.dFillrect x y w h color))
        work := { s.work with
          wx0 := BitVec.ofInt 16 (fillRect s.cfg x y w h).xc
          wy0 := BitVec.ofInt 16 (fillRect s.cfg x y w h).yc
          wx1 := BitVec.ofInt 16 ((fillRect s.cfg x y w h).xc + (fillRect s.cfg x y w h).wc - 1)
          wy1 := BitVec.ofInt 16 ((fillRect s.cfg x y w h).yc + (fillRect s.cfg x y w h).hc - 1)
          cbuf := rep (be16 color) s.cfg.chunk
          pcnt := 0 }
        status := .ok
        resKind := .none
        env := s.env.drop (writeCount (displayFrames s.cfg (.dFillrect x y w h color)))
        busCalls := s.busCalls + writeCount (displayFrames s.cfg (.dFillrect x y w h color)) }

/-- R181, R182: for a glyph whose window has an encoding, the window's three frames and one data frame of 128 bytes.
That RES_X, RES_Y and RES_C keep their values is log 3. -/
def Obligations.GlyphCompletes : Prop :=
  ∀ (s : State) (ch : Byte) (x y : Int) (fg bg : Half), 0 ≤ x → x + 7 ≤ 65535 → 0 ≤ y → y + 7 ≤ 65535 →
    busReady 6 s →
    exec (.dGlyph ch x y fg bg) s = .next
      { s with
        csD := .deasserted
        dc := .data
        trace := s.trace ++ glyphFrames s.cfg ch x y fg bg
        panel := panelHears s (glyphFrames s.cfg ch x y fg bg)
        work := { s.work with
          wx0 := BitVec.ofInt 16 x, wy0 := BitVec.ofInt 16 y
          wx1 := BitVec.ofInt 16 (x + 7), wy1 := BitVec.ofInt 16 (y + 7)
          gbuf := raster (glyphOf s.cfg ch) fg bg }
        status := .ok
        resKind := .none
        env := s.env.drop 6
        busCalls := s.busCalls + 6 }

/-- R183: glyph i at column x + 8i, every glyph with its own window; an empty text appends no event and has no range
test. That an empty text keeps this meaning while FAULT = 1 is log 14; that RES_X, RES_Y and RES_C keep their values is
log 3. -/
def Obligations.TextCompletes : Prop :=
  ∀ (s : State) (x y : Int) (fg bg : Half),
    (s.busy = false → exec (.dText x y fg bg []) s = .next { s with status := .ok, resKind := .none })
      ∧ ∀ (ch : Byte) (text : List Byte), 0 ≤ x → x + 8 * (text.length : Int) + 7 ≤ 65535 → 0 ≤ y → y + 7 ≤ 65535 →
          busReady (6 * (text.length + 1)) s →
          exec (.dText x y fg bg (ch :: text)) s = .next
            { s with
              csD := .deasserted
              dc := .data
              trace := s.trace ++ textFrames s.cfg x y fg bg (ch :: text)
              panel := panelHears s (textFrames s.cfg x y fg bg (ch :: text))
              work := { s.work with
                wx0 := BitVec.ofInt 16 (x + 8 * (text.length : Int)), wy0 := BitVec.ofInt 16 y
                wx1 := BitVec.ofInt 16 (x + 8 * (text.length : Int) + 7), wy1 := BitVec.ofInt 16 (y + 7)
                gbuf := raster (glyphOf s.cfg (text.getLastD ch)) fg bg
                tidx := text.length }
              status := .ok
              resKind := .none
              env := s.env.drop (6 * (text.length + 1))
              busCalls := s.busCalls + 6 * (text.length + 1) }

/-- R184: as D.TEXT with BG_DEFAULT, in every state, and so it completes where D.TEXT does (R183). That RES_X, RES_Y and
RES_C keep their values is log 3. -/
def Obligations.TextDefaultCompletes : Prop :=
  ∀ (s : State) (x y : Int) (fg : Half),
    (∀ text : List Byte, exec (.dTextd x y fg text) s = exec (.dText x y fg s.cfg.bgDefault text) s)
      ∧ ∀ (ch : Byte) (text : List Byte), 0 ≤ x → x + 8 * (text.length : Int) + 7 ≤ 65535 → 0 ≤ y → y + 7 ≤ 65535 →
          busReady (6 * (text.length + 1)) s →
          exec (.dTextd x y fg (ch :: text)) s = .next
            { s with
              csD := .deasserted
              dc := .data
              trace := s.trace ++ textFrames s.cfg x y fg s.cfg.bgDefault (ch :: text)
              panel := panelHears s (textFrames s.cfg x y fg s.cfg.bgDefault (ch :: text))
              work := { s.work with
                wx0 := BitVec.ofInt 16 (x + 8 * (text.length : Int)), wy0 := BitVec.ofInt 16 y
                wx1 := BitVec.ofInt 16 (x + 8 * (text.length : Int) + 7), wy1 := BitVec.ofInt 16 (y + 7)
                gbuf := raster (glyphOf s.cfg (text.getLastD ch)) fg s.cfg.bgDefault
                tidx := text.length }
              status := .ok
              resKind := .none
              env := s.env.drop (6 * (text.length + 1))
              busCalls := s.busCalls + 6 * (text.length + 1) }

/-- R164, R272: the colour, and no event; D.CPACK keeps its meaning after a fault. RES_X and RES_Y keep their values
(log 3). -/
def Obligations.ColourPackCompletes : Prop :=
  ∀ (s : State) (r g b : Byte), s.busy = false →
    exec (.dCpack r g b) s = .next
      { s with
        status := .ok
        resKind := .colour
        resC := BitVec.ofNat 16 (((r.toNat &&& 0xF8) <<< 8) ||| ((g.toNat &&& 0xFC) <<< 3) ||| (b.toNat >>> 3)) }

/-- R203, R202, R200: two conversions, X then Y, whatever the readings, and the sample. That RES_C keeps its value is
log 3. -/
def Obligations.SampleCompletes : Prop :=
  ∀ s : State, busReady 2 s →
    exec .tSample s = .next
      { s with
        csT := .deasserted
        trace := s.trace
          ++ [.line (.csT .asserted), .xfer [s.cfg.opConvX, 0x00, 0x00] (answerBytes s 0), .line (.csT .deasserted),
              .line (.csT .asserted), .xfer [s.cfg.opConvY, 0x00, 0x00] (answerBytes s 1), .line (.csT .deasserted)]
        status := .ok
        resKind := .sample
        resX := BitVec.ofNat 16 (answerSample s 0).1
        resY := BitVec.ofNat 16 (answerSample s 0).2
        env := s.env.drop 2
        busCalls := s.busCalls + 2 }

/-- R204 step 1 and corner case (a): when S1 = (0, 0) the operation ends after two conversions and no sleep. That
RES_X, RES_Y and RES_C keep their values is log 3. -/
def Obligations.TouchAbsentCompletes : Prop :=
  ∀ s : State, busReady 2 s → answerSample s 0 = (0, 0) →
    exec .tGettouch s = .next
      { s with
        csT := .deasserted
        trace := s.trace ++ sampleFrames s.cfg (answerBytes s 0) (answerBytes s 1)
        work := { s.work with s1 := (0, 0) }
        status := .ok
        resKind := .noTouch
        env := s.env.drop 2
        busCalls := s.busCalls + 2 }

/-- R204 steps 2 to 5: when S1 is not (0, 0), six conversions and two sleeps, always; then no touch when S2 or S3 is
(0, 0) or one of the three tested differences exceeds 50, else the normalized truncating average. That RES_C keeps its
value, and with no touch RES_X and RES_Y theirs, is log 3. -/
def Obligations.TouchPipelineCompletes : Prop :=
  ∀ s : State, busReady 6 s → answerSample s 0 ≠ (0, 0) →
    ∃ t : State,
      t = { s with
            csT := .deasserted
            trace := s.trace ++ sampleFrames s.cfg (answerBytes s 0) (answerBytes s 1) ++ [.sleep 2]
              ++ sampleFrames s.cfg (answerBytes s 2) (answerBytes s 3) ++ [.sleep 2]
              ++ sampleFrames s.cfg (answerBytes s 4) (answerBytes s 5)
            work := { s.work with
              s1 := sample13 (answerSample s 0), s2 := sample13 (answerSample s 2)
              s3 := sample13 (answerSample s 4) }
            status := .ok
            env := s.env.drop 6
            busCalls := s.busCalls + 6 }
      ∧ ((answerSample s 2 = (0, 0) ∨ answerSample s 4 = (0, 0)
            ∨ 50 < (((answerSample s 0).1 : Int) - (answerSample s 2).1).natAbs
            ∨ 50 < (((answerSample s 0).1 : Int) - (answerSample s 4).1).natAbs
            ∨ 50 < (((answerSample s 0).2 : Int) - (answerSample s 2).2).natAbs) →
          exec .tGettouch s = .next { t with resKind := .noTouch })
      ∧ (¬ (answerSample s 2 = (0, 0) ∨ answerSample s 4 = (0, 0)
            ∨ 50 < (((answerSample s 0).1 : Int) - (answerSample s 2).1).natAbs
            ∨ 50 < (((answerSample s 0).1 : Int) - (answerSample s 4).1).natAbs
            ∨ 50 < (((answerSample s 0).2 : Int) - (answerSample s 2).2).natAbs) →
          exec .tGettouch s = .next
            { t with
              resKind := .point
              resX := BitVec.ofInt 16 (normalize s.cfg
                (((answerSample s 0).1 + (answerSample s 2).1 + (answerSample s 4).1 : Nat) / 3 : Nat)
                (((answerSample s 0).2 + (answerSample s 2).2 + (answerSample s 4).2 : Nat) / 3 : Nat)).1
              resY := BitVec.ofInt 16 (normalize s.cfg
                (((answerSample s 0).1 + (answerSample s 2).1 + (answerSample s 4).1 : Nat) / 3 : Nat)
                (((answerSample s 0).2 + (answerSample s 2).2 + (answerSample s 4).2 : Nat) / 3 : Nat)).2 })

/-- R207, R206, R272: the calibrated point, and no event; T.NORM keeps its meaning after a fault. RES_C keeps its value
(log 3). -/
def Obligations.NormalizeCompletes : Prop :=
  ∀ (s : State) (rawX rawY : Int), s.busy = false →
    exec (.tNorm rawX rawY) s = .next
      { s with
        status := .ok
        resKind := .point
        resX := BitVec.ofInt 16 (min (s.cfg.panelW : Int)
          (max 0 (((rawX - s.cfg.calX0) * s.cfg.panelW).tdiv (s.cfg.calX1 - s.cfg.calX0))))
        resY := BitVec.ofInt 16 (min (s.cfg.panelH : Int)
          (max 0 (((rawY - s.cfg.calY0) * s.cfg.panelH).tdiv (s.cfg.calY1 - s.cfg.calY0)))) }

/-- R101, R104 to R107: each wire command is its one frame; STATUS and the result registers are no business of a frame
(log 12). -/
def Obligations.WireCommandFramesComplete : Prop :=
  ∀ s : State,
    (∀ a b : Half, busReady 2 s →
      exec (.wireCaset a b) s = .next
          { s with
            csD := .deasserted, dc := .data, trace := s.trace ++ commandFrame s.cfg.opCaset (be16 a ++ be16 b)
            panel := panelHears s (commandFrame s.cfg.opCaset (be16 a ++ be16 b))
            env := s.env.drop 2, busCalls := s.busCalls + 2 }
        ∧ exec (.wireRaset a b) s = .next
          { s with
            csD := .deasserted, dc := .data, trace := s.trace ++ commandFrame s.cfg.opRaset (be16 a ++ be16 b)
            panel := panelHears s (commandFrame s.cfg.opRaset (be16 a ++ be16 b))
            env := s.env.drop 2, busCalls := s.busCalls + 2 })
      ∧ ∀ (i : Instr) (op : Byte),
          (i = .wireRamwr ∧ op = s.cfg.opRamwr) ∨ (i = .wireSlpout ∧ op = s.cfg.opSlpout)
            ∨ (i = .wireDispon ∧ op = s.cfg.opDispon) →
          busReady 1 s →
          exec i s = .next
            { s with
              csD := .deasserted, dc := .command, trace := s.trace ++ commandFrame op []
              panel := panelHears s (commandFrame op [])
              env := s.env.drop 1, busCalls := s.busCalls + 1 }

/-- R113, R200: each conversion request is its one frame, with the bytes the environment returns. -/
def Obligations.WireConversionFramesComplete : Prop :=
  ∀ (s : State) (i : Instr) (op : Byte),
    (i = .wireConvX ∧ op = s.cfg.opConvX) ∨ (i = .wireConvY ∧ op = s.cfg.opConvY) → busReady 1 s →
    exec i s = .next
      { s with
        csT := .deasserted
        trace := s.trace
          ++ [.line (.csT .asserted), .xfer [op, 0x00, 0x00] (answerBytes s 0), .line (.csT .deasserted)]
        env := s.env.drop 1
        busCalls := s.busCalls + 1 }

/-! ### Refusals, faults and stalls -/

/-- R233, R161, R182, R183: a window bound with no 16-bit encoding ends the operation before any event, status
OperandRange, REFUSED set, no result. The range test stands before the transport, so FAULT is not asked (log 14). That
RES_X, RES_Y and RES_C keep their values is log 3. -/
def Obligations.OperandRangeRefused : Prop :=
  ∀ s : State, s.busy = false →
    (∀ x0 y0 x1 y1 : Int,
        (x0 < 0 ∨ 65535 < x0 ∨ y0 < 0 ∨ 65535 < y0 ∨ x1 < 0 ∨ 65535 < x1 ∨ y1 < 0 ∨ 65535 < y1) →
        exec (.dSetwin x0 y0 x1 y1) s = .next { s with status := .operandRange, refused := true, resKind := .none })
      ∧ (∀ (ch : Byte) (x y : Int) (fg bg : Half), (x < 0 ∨ y < 0 ∨ 65535 < x + 7 ∨ 65535 < y + 7) →
        exec (.dGlyph ch x y fg bg) s = .next { s with status := .operandRange, refused := true, resKind := .none })
      ∧ ∀ (x y : Int) (fg bg : Half) (ch : Byte) (text : List Byte),
        (x < 0 ∨ y < 0 ∨ 65535 < x + 8 * (text.length : Int) + 7 ∨ 65535 < y + 7) →
        exec (.dText x y fg bg (ch :: text)) s
            = .next { s with status := .operandRange, refused := true, resKind := .none }
          ∧ exec (.dTextd x y fg (ch :: text)) s
            = .next { s with status := .operandRange, refused := true, resKind := .none }

/-- R232, R144, R62: a fault in the opcode byte leaves CS_D asserted and DC = command; a fault in the payload leaves
CS_D asserted and DC = data; the failing call appends no event, and a prefix of its bytes, of a length the environment
chooses, reaches the panel (U11); nothing runs after it. The environment's script is log 10; that an opaque opcode ends
the premise InitTableOK, even when its write faults, is log 7; that RES_X, RES_Y and RES_C keep their values is log 3. -/
def Obligations.CommandFrameFaults : Prop :=
  ∀ (s : State) (op b : Byte) (pl : List Byte) (k : Nat) (q : List Byte) (rest : List Answer),
    s.busy = false → s.fault = false →
    (s.env = .fault k :: rest → ∀ payload : List Byte,
      exec (.dWrcmd op payload) s = .next
        { s with
          csD := .asserted, dc := .command
          panel := (s.panel.noteCommand s.cfg op).receiveAll s.cfg .command ([op].take k)
          trace := s.trace ++ [.line (.csD .asserted), .line (.dc .command)]
          status := .transportFault, fault := true, resKind := .none, env := rest, busCalls := s.busCalls + 1 })
      ∧ (s.env = .ok q :: .fault k :: rest →
        exec (.dWrcmd op (b :: pl)) s = .next
          { s with
            csD := .asserted, dc := .data
            panel := ((s.panel.noteCommand s.cfg op).receive s.cfg .command op).receiveAll s.cfg .data
              ((b :: pl).take k)
            trace := s.trace ++ [.line (.csD .asserted), .line (.dc .command), .write [op], .line (.dc .data)]
            status := .transportFault, fault := true, resKind := .none, env := rest, busCalls := s.busCalls + 2 })

/-- R232, R239: a TransportFault in a display operation: the trace holds exactly the events before the failing call,
which is the next of the operation's own; CS_D stays asserted, CS_T as it was; no result. That the fault of a wire command
by itself writes STATUS, FAULT and RES_KIND is log 12. -/
def Obligations.DisplayFaultStopsAtTheFailingCall : Prop :=
  ∀ (i : Instr) (s t : State), i.target = .panel → s.fault = false → exec i s = .next t → t.fault = true →
    t.status = .transportFault ∧ t.resKind = .none ∧ t.busy = false ∧ t.csD = .asserted ∧ t.csT = s.csT
      ∧ ∃ (es : List Event) (bs : List Byte), t.trace = s.trace ++ es
          ∧ (es ++ [.write bs]) <+: displayFrames s.cfg i
          ∧ t.dc = (s.heard.events s.cfg es).dc

/-- R232, R239, R200: a TransportFault in a touch operation leaves CS_T asserted, the other three lines as they were, and
no result, neither a touch nor "no touch" (R204); the trace holds exactly the events before the failing exchange, which
is the next of the operation's own sample frames. That the fault of a conversion request by itself writes STATUS, FAULT
and RES_KIND is log 12. -/
def Obligations.TouchFaultStopsAtTheFailingCall : Prop :=
  ∀ (i : Instr) (s t : State), i.target = .digitizer → s.fault = false → exec i s = .next t → t.fault = true →
    t.status = .transportFault ∧ t.resKind = .none ∧ t.busy = false ∧ t.csT = .asserted ∧ t.csD = s.csD
      ∧ t.dc = s.dc ∧ t.rst = s.rst
      ∧ ∃ (es : List Event) (bs rs : List Byte), t.trace = s.trace ++ es ++ [.line (.csT .asserted)]
          ∧ (es ++ [.line (.csT .asserted), .xfer bs rs]) <+: touchFrames s i

/-- R249: a call that never returns leaves BUSY = 1 for ever: no register of the envelope is written, and the machine
has no further move. -/
def Obligations.StalledOperationHangs : Prop :=
  ∀ (i : Instr) (s t : State), exec i s = .next t → t.busy = true →
    (t.status = s.status ∧ t.fault = s.fault ∧ t.refused = s.refused ∧ sameResults s t ∧ sameHost s t)
      ∧ step t = .fault .stalled

/-- R272: while FAULT = 1 an operation that reaches a transport call is refused. D.CPACK, T.NORM and D.RESET keep their
meaning: their completion statements ask nothing of FAULT. -/
def Obligations.TransportRefusedAfterFault : Prop :=
  ∀ s : State, s.busy = false → s.fault = true →
    (exec .dInit s = .refused .transportAfterFault ∧ exec .tSample s = .refused .transportAfterFault
        ∧ exec .tGettouch s = .refused .transportAfterFault)
      ∧ (∀ (op : Byte) (pl : List Byte), exec (.dWrcmd op pl) s = .refused .transportAfterFault)
      ∧ (∀ x0 y0 x1 y1 : Half,
          exec (.dSetwin x0.toNat y0.toNat x1.toNat y1.toNat) s = .refused .transportAfterFault)
      ∧ (s.cfg.valid = true → ∀ (x y w h : Int) (color : Half),
          exec (.dFillrect x y w h color) s = .refused .transportAfterFault)
      ∧ (∀ (ch : Byte) (x y : Int) (fg bg : Half) (text : List Byte), 0 ≤ x →
          x + 8 * (text.length : Int) + 7 ≤ 65535 → 0 ≤ y → y + 7 ≤ 65535 →
          exec (.dGlyph ch x y fg bg) s = .refused .transportAfterFault
            ∧ exec (.dText x y fg bg (ch :: text)) s = .refused .transportAfterFault
            ∧ exec (.dTextd x y fg (ch :: text)) s = .refused .transportAfterFault)
      ∧ ∀ i : Instr, i.isHost = false → exec i s = .refused .transportAfterFault

/-- R140: what the end of a host operation writes: FAULT by TransportFault alone, REFUSED by OperandRange alone (a
decoded operation never ends with IllegalOp), and no result with any status but OK. -/
def Obligations.EndWritesTheFlags : Prop :=
  ∀ (i : Instr) (s t : State), i.isHost = true → exec i s = .next t → t.busy = false →
    t.status ≠ .illegalOp
      ∧ t.fault = (s.fault || decide (t.status = .transportFault))
      ∧ t.refused = (s.refused || decide (t.status = .operandRange))
      ∧ (t.status ≠ .ok → t.resKind = .none ∧ t.resX = s.resX ∧ t.resY = s.resY ∧ t.resC = s.resC)

/-- R26: FAULT and REFUSED are sticky through every step, and each rises only with its own statuses. -/
def Obligations.FaultAndRefusedAreSticky : Prop :=
  ∀ s t : State, step s = .next t →
    (s.fault = true → t.fault = true) ∧ (s.refused = true → t.refused = true)
      ∧ (t.fault = true → s.fault = true ∨ t.status = .transportFault)
      ∧ (t.refused = true → s.refused = true ∨ t.status = .operandRange ∨ t.status = .illegalOp)

/-! ### What is left unchanged -/

/-- R21, R22: no operation writes the configuration. R34: the trace is only ever appended to. -/
def Obligations.ConfigurationAndTraceKept : Prop :=
  ∀ s t : State, step s = .next t → t.cfg = s.cfg ∧ ∃ es : List Event, t.trace = s.trace ++ es

/-- R24, R27, R29, R140: the frame of the display unit's operations that drive no reset line (D.INIT, D.WRCMD, D.SETWIN,
D.FILLRECT, D.GLYPH, D.TEXT, D.TEXTD and the five command frames), however they come out. The panel and its memory:
the statements about the frame memory below. -/
def Obligations.DisplayFrameCondition : Prop :=
  ∀ (i : Instr) (s t : State), i.target = .panel → i ≠ .dReset → (∀ r g b, i ≠ .dCpack r g b) →
    exec i s = .next t →
    t.cfg = s.cfg ∧ t.rst = s.rst ∧ t.csT = s.csT ∧ t.resX = s.resX ∧ t.resY = s.resY ∧ t.resC = s.resC
      ∧ sameTouchWork s t ∧ sameHost s t
      ∧ ∃ es : List Event, t.trace = s.trace ++ es ∧ xferCount es = 0

/-- R24, R29, R69, R200: the frame of the touch unit's operations (T.SAMPLE, T.GETTOUCH, T.NORM and the two conversion
frames), however they come out: the display unit's lines, the whole panel with every byte of its memory, and RES_C. -/
def Obligations.TouchFrameCondition : Prop :=
  ∀ (i : Instr) (s t : State), i.target = .digitizer → exec i s = .next t →
    t.cfg = s.cfg ∧ t.csD = s.csD ∧ t.dc = s.dc ∧ t.rst = s.rst ∧ t.panel = s.panel ∧ t.refused = s.refused
      ∧ t.resC = s.resC ∧ sameDisplayWork s t ∧ sameHost s t
      ∧ ∃ es : List Event, t.trace = s.trace ++ es ∧ writeCount es = 0

/-- R160, R106, R107: a window command stores no pixel: D.SETWIN and the five command frames leave every byte of the
frame memory, however they come out. -/
def Obligations.WindowCommandsStoreNothing : Prop :=
  ∀ (i : Instr) (s t : State),
    ((∃ x0 y0 x1 y1, i = .dSetwin x0 y0 x1 y1) ∨ (i.isHost = false ∧ i.target = .panel)) →
    exec i s = .next t → memoryKept s t

/-- R162, R72: D.FILLRECT stores only inside the window it sets, however it comes out. -/
def Obligations.FillStoresOnlyInItsWindow : Prop :=
  ∀ (s t : State) (x y w h : Int) (color : Half), s.cfg.valid = true → Memory.wf s.panel.gram = true →
    exec (.dFillrect x y w h color) s = .next t →
    bytesKeptOutside s t (fillRect s.cfg x y w h).xc (fillRect s.cfg x y w h).yc
      ((fillRect s.cfg x y w h).xc + (fillRect s.cfg x y w h).wc - 1)
      ((fillRect s.cfg x y w h).yc + (fillRect s.cfg x y w h).hc - 1)

/-- R181 to R184, R72: a glyph stores only in its 8 × 8 window, and a text of n characters only in its strip of 8n × 8
pixels, however they come out. -/
def Obligations.TextStoresOnlyInItsStrip : Prop :=
  ∀ (s t : State) (x y : Int) (fg bg : Half), s.cfg.valid = true → Memory.wf s.panel.gram = true →
    (∀ ch : Byte, exec (.dGlyph ch x y fg bg) s = .next t → bytesKeptOutside s t x y (x + 7) (y + 7))
      ∧ ∀ text : List Byte,
          (exec (.dText x y fg bg text) s = .next t →
            bytesKeptOutside s t x y (x + 8 * (text.length : Int) - 1) (y + 7))
            ∧ (exec (.dTextd x y fg text) s = .next t →
              bytesKeptOutside s t x y (x + 8 * (text.length : Int) - 1) (y + 7))

/-- R120, R143, R70 to R73: a raw command stores only when it is memory-write, and then only inside the window the
panel holds; the initialisation sequence stores nothing in a panel that is not ready, or from a table without
memory-write, and otherwise only on the panel. -/
def Obligations.RawCommandsStoreOnlyInTheWindow : Prop :=
  ∀ s t : State, s.cfg.valid = true → Memory.wf s.panel.gram = true →
    (∀ (op : Byte) (pl : List Byte), exec (.dWrcmd op pl) s = .next t →
        (op ≠ s.cfg.opRamwr → memoryKept s t)
          ∧ (op = s.cfg.opRamwr →
            bytesKeptOutside s t s.panel.xs.toNat s.panel.ys.toNat s.panel.xe.toNat s.panel.ye.toNat))
      ∧ (exec .dInit s = .next t →
        ((s.panel.ready = false ∨ ∀ e ∈ s.cfg.initTable, e.op ≠ s.cfg.opRamwr) → memoryKept s t)
          ∧ bytesKeptOutside s t 0 0 ((s.cfg.panelW : Int) - 1) ((s.cfg.panelH : Int) - 1))

/-! ### Invariants -/

/-- R21, R29, R61, R25 to R27, R60: every step keeps the invariant, from every state that has it. -/
def Obligations.StepKeepsTheInvariant : Prop := ∀ s t : State, Inv s → step s = .next t → Inv t

/-- R35: the invariant holds after block reset with every legal configuration, and in State.reset. -/
def Obligations.ResetHasTheInvariant : Prop :=
  (∀ c : Config, c.valid = true → Inv (State.resetWith c)) ∧ Inv State.reset

/-! ### The panel's end -/

/-- R71: four payload bytes of an address command set its two bounds, big-endian, and change nothing else of the
panel; R74: a fifth is refused. -/
def Obligations.AddressBytesSetTheBounds : Prop :=
  ∀ (c : Config) (p : Panel) (a b d e f : Byte), c.valid = true → p.refused = none → p.args = [] →
    (p.cmd = some c.opCaset →
      p.receiveAll c .data [a, b, d, e]
          = { p with args := [a, b, d, e], xs := unbe16 a b, xe := unbe16 d e, colsSet := true }
        ∧ (p.receiveAll c .data [a, b, d, e, f]).refused = some .fifthBoundByte)
      ∧ (p.cmd = some c.opRaset →
        p.receiveAll c .data [a, b, d, e]
            = { p with args := [a, b, d, e], ys := unbe16 a b, ye := unbe16 d e, rowsSet := true }
          ∧ (p.receiveAll c .data [a, b, d, e, f]).refused = some .fifthBoundByte)

/-- R74: the cases LD does not reach, and U19's (R273): the panel model stops, it has no pixel to make a claim about, and
no byte starts it again (log 8). -/
def Obligations.PanelRefusesTheUnreachedCases : Prop :=
  ∀ (c : Config) (p : Panel) (a b : Byte), c.valid = true → p.refused = none →
    let stops := fun q : Panel =>
      q.refused.isSome = true ∧ (∀ x y, q.pixel x y = none) ∧ ∀ dc bs, q.receiveAll c dc bs = q
    (p.cmd = none → stops (p.receive c .data b))
      ∧ ((p.cmd = some c.opCaset ∨ p.cmd = some c.opRaset) → 4 ≤ p.args.length → stops (p.receive c .data b))
      ∧ (p.half ≠ none → stops (p.receive c .command b))
      ∧ (p.ready = false → (b = c.opCaset ∨ b = c.opRaset ∨ b = c.opRamwr) → stops (p.receive c .command b))
      ∧ (p.colsSet = false ∨ p.rowsSet = false → stops (p.receive c .command c.opRamwr))
      ∧ (p.cmd = some c.opRamwr → p.streaming = true → p.half = some a →
          (p.ready = false ∨ p.done = true ∨ p.xe.toNat < p.xs.toNat ∨ p.ye.toNat < p.ys.toNat
            ∨ c.panelW ≤ p.xe.toNat ∨ c.panelH ≤ p.ye.toNat) →
          stops (p.receive c .data b))

/-- R75: after SetWindow and exactly the window's pixels, in any split into data transactions, pixel k stands at
(x0 + k mod w, y0 + k div w), every other pixel is unchanged, and the window is filled. Under InitTableOK (R73). -/
def Obligations.WindowThenPixelsFillsRowMajor : Prop :=
  ∀ (c : Config) (h : Heard) (x0 y0 x1 y1 : Nat) (splits : List (List Byte)) (pixels : List Half),
    c.valid = true → h.panel.takesWindow → Memory.wf h.panel.gram = true →
    x0 ≤ x1 → x1 < c.panelW → y0 ≤ y1 → y1 < c.panelH →
    pixels.length = (x1 - x0 + 1) * (y1 - y0 + 1) → splits.flatten = pixels.flatMap be16 →
    let g := h.events c
      (windowFrames c (BitVec.ofNat 16 x0) (BitVec.ofNat 16 y0) (BitVec.ofNat 16 x1) (BitVec.ofNat 16 y1)
        ++ splits.flatMap dataFrame)
    g.panel.done = true ∧ g.panel.refused = none
      ∧ (∀ k : Nat, k < pixels.length →
          g.panel.pixel (x0 + k % (x1 - x0 + 1)) (y0 + k / (x1 - x0 + 1)) = pixels[k]?)
      ∧ ∀ x y : Nat, x < 65536 → y < 65536 → ¬ (x0 ≤ x ∧ x ≤ x1 ∧ y0 ≤ y ∧ y ≤ y1) →
          g.panel.pixel x y = h.panel.pixel x y

/-- R75, R162, R163: D.FILLRECT on a ready panel gives every pixel of the clipped rectangle the colour and leaves every
other pixel, for all integers x, y, w, h. Under InitTableOK (R73). -/
def Obligations.FillRectShowsTheRectangle : Prop :=
  ∀ (s : State) (x y w h : Int) (color : Half), s.cfg.valid = true → Memory.wf s.panel.gram = true →
    s.panel.takesWindow → busReady (writeCount (displayFrames s.cfg (.dFillrect x y w h color))) s →
    ∃ t : State, exec (.dFillrect x y w h color) s = .next t ∧ t.status = .ok ∧ t.panel.refused = none
      ∧ t.panel.done = true
      ∧ ∀ px py : Nat, px < 65536 → py < 65536 →
          t.panel.pixel px py
            = if (fillRect s.cfg x y w h).xc ≤ (px : Int)
                  ∧ (px : Int) < (fillRect s.cfg x y w h).xc + (fillRect s.cfg x y w h).wc
                  ∧ (fillRect s.cfg x y w h).yc ≤ (py : Int)
                  ∧ (py : Int) < (fillRect s.cfg x y w h).yc + (fillRect s.cfg x y w h).hc
              then some color else s.panel.pixel px py

/-- R75, R111, R182: D.GLYPH on a ready panel, wholly on it, gives pixel (x + k, y + r) the foreground where bit 7 − k
of row r is 1 and the background where it is 0, and leaves every other pixel. Under InitTableOK (R73). -/
def Obligations.GlyphShowsItsBitmap : Prop :=
  ∀ (s : State) (ch : Byte) (x y : Nat) (fg bg : Half), s.cfg.valid = true → Memory.wf s.panel.gram = true →
    s.panel.takesWindow → x + 7 < s.cfg.panelW → y + 7 < s.cfg.panelH → busReady 6 s →
    ∃ t : State, exec (.dGlyph ch x y fg bg) s = .next t ∧ t.status = .ok ∧ t.panel.refused = none
      ∧ (∀ r k : Nat, r < 8 → k < 8 →
          t.panel.pixel (x + k) (y + r)
            = some (if (((glyphOf s.cfg ch).getD r 0).toNat >>> (7 - k)) &&& 1 = 1 then fg else bg))
      ∧ ∀ px py : Nat, px < 65536 → py < 65536 → ¬ (x ≤ px ∧ px ≤ x + 7 ∧ y ≤ py ∧ py ≤ y + 7) →
          t.panel.pixel px py = s.panel.pixel px py

/-- R16, R163: CHUNK is invisible to the panel: with two chunk sizes the events of any operation are panel-equivalent,
and leave the panel the same. -/
def Obligations.ChunkSizeIsInvisibleToThePanel : Prop :=
  ∀ (c : Config) (k : Nat) (i : Instr) (h : Heard), c.valid = true → 1 ≤ k →
    panelEquivalent (displayFrames c i) (displayFrames { c with chunk := k } i)
      ∧ (h.events c (displayFrames c i)).panel
          = (h.events { c with chunk := k } (displayFrames { c with chunk := k } i)).panel

/-! ### Counts and times -/

/-- R185: a glyph is 20 events, 6 of them writes carrying 139 bytes; a text of n characters is n times that. -/
def Obligations.GlyphAndTextCounts : Prop :=
  ∀ (c : Config) (x y : Int) (fg bg : Half),
    (∀ ch : Byte, (glyphFrames c ch x y fg bg).length = 20 ∧ writeCount (glyphFrames c ch x y fg bg) = 6
        ∧ (writtenBytes (glyphFrames c ch x y fg bg)).length = 139)
      ∧ ∀ text : List Byte, (textFrames c x y fg bg text).length = 20 * text.length
        ∧ writeCount (textFrames c x y fg bg text) = 6 * text.length
        ∧ (writtenBytes (textFrames c x y fg bg text)).length = 139 * text.length

/-- R270, R209: D.RESET sleeps 100 ms when HAS_RST, D.INIT 120 ms, T.GETTOUCH 4 ms with six conversions when S1 is not
(0, 0) and none with two when it is. -/
def Obligations.SleepLowerBounds : Prop :=
  (∀ c : Config, sleepTotal (displayFrames c .dReset) = (if c.hasRst then 100 else 0)
      ∧ sleepTotal (displayFrames c .dInit) = 120)
    ∧ ∀ s t : State, busReady 6 s → exec .tGettouch s = .next t →
        ∃ es : List Event, t.trace = s.trace ++ es
          ∧ (answerSample s 0 ≠ (0, 0) → sleepTotal es = 4 ∧ xferCount es = 6)
          ∧ (answerSample s 0 = (0, 0) → sleepTotal es = 0 ∧ xferCount es = 2)
end

