-- ==== Sys2Proof/Laws/State.lean ====
section
/-! SUPPORT. The small lemmas of the state's updates: one per field and update, so that no later proof unfolds one. -/

namespace Sys2Proof.Machine

/-! ### emit -/

@[simp] theorem emit_cfg (e : Event) (s : State) : (emit e s).cfg = s.cfg := rfl
@[simp] theorem emit_csD (e : Event) (s : State) : (emit e s).csD = s.csD := rfl
@[simp] theorem emit_dc (e : Event) (s : State) : (emit e s).dc = s.dc := rfl
@[simp] theorem emit_rst (e : Event) (s : State) : (emit e s).rst = s.rst := rfl
@[simp] theorem emit_csT (e : Event) (s : State) : (emit e s).csT = s.csT := rfl
@[simp] theorem emit_status (e : Event) (s : State) : (emit e s).status = s.status := rfl
@[simp] theorem emit_fault (e : Event) (s : State) : (emit e s).fault = s.fault := rfl
@[simp] theorem emit_refused (e : Event) (s : State) : (emit e s).refused = s.refused := rfl
@[simp] theorem emit_resKind (e : Event) (s : State) : (emit e s).resKind = s.resKind := rfl
@[simp] theorem emit_resX (e : Event) (s : State) : (emit e s).resX = s.resX := rfl
@[simp] theorem emit_resY (e : Event) (s : State) : (emit e s).resY = s.resY := rfl
@[simp] theorem emit_resC (e : Event) (s : State) : (emit e s).resC = s.resC := rfl
@[simp] theorem emit_busy (e : Event) (s : State) : (emit e s).busy = s.busy := rfl
@[simp] theorem emit_work (e : Event) (s : State) : (emit e s).work = s.work := rfl
@[simp] theorem emit_trace (e : Event) (s : State) : (emit e s).trace = s.trace ++ [e] := rfl
@[simp] theorem emit_panel (e : Event) (s : State) : (emit e s).panel = s.panel := rfl
@[simp] theorem emit_program (e : Event) (s : State) : (emit e s).program = s.program := rfl
@[simp] theorem emit_hpc (e : Event) (s : State) : (emit e s).hpc = s.hpc := rfl
@[simp] theorem emit_hostStopped (e : Event) (s : State) : (emit e s).hostStopped = s.hostStopped := rfl
@[simp] theorem emit_frame (e : Event) (s : State) : (emit e s).frame = s.frame := rfl
@[simp] theorem emit_env (e : Event) (s : State) : (emit e s).env = s.env := rfl
@[simp] theorem emit_busCalls (e : Event) (s : State) : (emit e s).busCalls = s.busCalls := rfl

/-! ### usedAnswer -/

@[simp] theorem usedAnswer_cfg (s : State) : (usedAnswer s).cfg = s.cfg := rfl
@[simp] theorem usedAnswer_csD (s : State) : (usedAnswer s).csD = s.csD := rfl
@[simp] theorem usedAnswer_dc (s : State) : (usedAnswer s).dc = s.dc := rfl
@[simp] theorem usedAnswer_rst (s : State) : (usedAnswer s).rst = s.rst := rfl
@[simp] theorem usedAnswer_csT (s : State) : (usedAnswer s).csT = s.csT := rfl
@[simp] theorem usedAnswer_status (s : State) : (usedAnswer s).status = s.status := rfl
@[simp] theorem usedAnswer_fault (s : State) : (usedAnswer s).fault = s.fault := rfl
@[simp] theorem usedAnswer_refused (s : State) : (usedAnswer s).refused = s.refused := rfl
@[simp] theorem usedAnswer_resKind (s : State) : (usedAnswer s).resKind = s.resKind := rfl
@[simp] theorem usedAnswer_resX (s : State) : (usedAnswer s).resX = s.resX := rfl
@[simp] theorem usedAnswer_resY (s : State) : (usedAnswer s).resY = s.resY := rfl
@[simp] theorem usedAnswer_resC (s : State) : (usedAnswer s).resC = s.resC := rfl
@[simp] theorem usedAnswer_busy (s : State) : (usedAnswer s).busy = s.busy := rfl
@[simp] theorem usedAnswer_work (s : State) : (usedAnswer s).work = s.work := rfl
@[simp] theorem usedAnswer_trace (s : State) : (usedAnswer s).trace = s.trace := rfl
@[simp] theorem usedAnswer_panel (s : State) : (usedAnswer s).panel = s.panel := rfl
@[simp] theorem usedAnswer_program (s : State) : (usedAnswer s).program = s.program := rfl
@[simp] theorem usedAnswer_hpc (s : State) : (usedAnswer s).hpc = s.hpc := rfl
@[simp] theorem usedAnswer_hostStopped (s : State) : (usedAnswer s).hostStopped = s.hostStopped := rfl
@[simp] theorem usedAnswer_frame (s : State) : (usedAnswer s).frame = s.frame := rfl
@[simp] theorem usedAnswer_env (s : State) : (usedAnswer s).env = s.env.tail := rfl
@[simp] theorem usedAnswer_busCalls (s : State) : (usedAnswer s).busCalls = s.busCalls + 1 := rfl

/-! ### deliver -/

@[simp] theorem deliver_cfg (bs : List Byte) (s : State) : (deliver bs s).cfg = s.cfg := rfl
@[simp] theorem deliver_csD (bs : List Byte) (s : State) : (deliver bs s).csD = s.csD := rfl
@[simp] theorem deliver_dc (bs : List Byte) (s : State) : (deliver bs s).dc = s.dc := rfl
@[simp] theorem deliver_rst (bs : List Byte) (s : State) : (deliver bs s).rst = s.rst := rfl
@[simp] theorem deliver_csT (bs : List Byte) (s : State) : (deliver bs s).csT = s.csT := rfl
@[simp] theorem deliver_status (bs : List Byte) (s : State) : (deliver bs s).status = s.status := rfl
@[simp] theorem deliver_fault (bs : List Byte) (s : State) : (deliver bs s).fault = s.fault := rfl
@[simp] theorem deliver_refused (bs : List Byte) (s : State) : (deliver bs s).refused = s.refused := rfl
@[simp] theorem deliver_resKind (bs : List Byte) (s : State) : (deliver bs s).resKind = s.resKind := rfl
@[simp] theorem deliver_resX (bs : List Byte) (s : State) : (deliver bs s).resX = s.resX := rfl
@[simp] theorem deliver_resY (bs : List Byte) (s : State) : (deliver bs s).resY = s.resY := rfl
@[simp] theorem deliver_resC (bs : List Byte) (s : State) : (deliver bs s).resC = s.resC := rfl
@[simp] theorem deliver_busy (bs : List Byte) (s : State) : (deliver bs s).busy = s.busy := rfl
@[simp] theorem deliver_work (bs : List Byte) (s : State) : (deliver bs s).work = s.work := rfl
@[simp] theorem deliver_trace (bs : List Byte) (s : State) : (deliver bs s).trace = s.trace := rfl
@[simp] theorem deliver_panel (bs : List Byte) (s : State) : (deliver bs s).panel = s.panel.listen s.cfg s.csD s.dc bs := rfl
@[simp] theorem deliver_program (bs : List Byte) (s : State) : (deliver bs s).program = s.program := rfl
@[simp] theorem deliver_hpc (bs : List Byte) (s : State) : (deliver bs s).hpc = s.hpc := rfl
@[simp] theorem deliver_hostStopped (bs : List Byte) (s : State) : (deliver bs s).hostStopped = s.hostStopped := rfl
@[simp] theorem deliver_frame (bs : List Byte) (s : State) : (deliver bs s).frame = s.frame := rfl
@[simp] theorem deliver_env (bs : List Byte) (s : State) : (deliver bs s).env = s.env := rfl
@[simp] theorem deliver_busCalls (bs : List Byte) (s : State) : (deliver bs s).busCalls = s.busCalls := rfl

/-! ### latch -/

@[simp] theorem latch_cfg (w : WorkWrite) (s : State) : (latch w s).cfg = s.cfg := rfl
@[simp] theorem latch_csD (w : WorkWrite) (s : State) : (latch w s).csD = s.csD := rfl
@[simp] theorem latch_dc (w : WorkWrite) (s : State) : (latch w s).dc = s.dc := rfl
@[simp] theorem latch_rst (w : WorkWrite) (s : State) : (latch w s).rst = s.rst := rfl
@[simp] theorem latch_csT (w : WorkWrite) (s : State) : (latch w s).csT = s.csT := rfl
@[simp] theorem latch_status (w : WorkWrite) (s : State) : (latch w s).status = s.status := rfl
@[simp] theorem latch_fault (w : WorkWrite) (s : State) : (latch w s).fault = s.fault := rfl
@[simp] theorem latch_refused (w : WorkWrite) (s : State) : (latch w s).refused = s.refused := rfl
@[simp] theorem latch_resKind (w : WorkWrite) (s : State) : (latch w s).resKind = s.resKind := rfl
@[simp] theorem latch_resX (w : WorkWrite) (s : State) : (latch w s).resX = s.resX := rfl
@[simp] theorem latch_resY (w : WorkWrite) (s : State) : (latch w s).resY = s.resY := rfl
@[simp] theorem latch_resC (w : WorkWrite) (s : State) : (latch w s).resC = s.resC := rfl
@[simp] theorem latch_busy (w : WorkWrite) (s : State) : (latch w s).busy = s.busy := rfl
@[simp] theorem latch_work (w : WorkWrite) (s : State) : (latch w s).work = writeWork w s.work := rfl
@[simp] theorem latch_trace (w : WorkWrite) (s : State) : (latch w s).trace = s.trace := rfl
@[simp] theorem latch_panel (w : WorkWrite) (s : State) : (latch w s).panel = s.panel := rfl
@[simp] theorem latch_program (w : WorkWrite) (s : State) : (latch w s).program = s.program := rfl
@[simp] theorem latch_hpc (w : WorkWrite) (s : State) : (latch w s).hpc = s.hpc := rfl
@[simp] theorem latch_hostStopped (w : WorkWrite) (s : State) : (latch w s).hostStopped = s.hostStopped := rfl
@[simp] theorem latch_frame (w : WorkWrite) (s : State) : (latch w s).frame = s.frame := rfl
@[simp] theorem latch_env (w : WorkWrite) (s : State) : (latch w s).env = s.env := rfl
@[simp] theorem latch_busCalls (w : WorkWrite) (s : State) : (latch w s).busCalls = s.busCalls := rfl

/-! ### driveLine -/

@[simp] theorem driveLine_cfg (d : Drive) (s : State) : (driveLine d s).cfg = s.cfg := by cases d <;> rfl
@[simp] theorem driveLine_status (d : Drive) (s : State) : (driveLine d s).status = s.status := by cases d <;> rfl
@[simp] theorem driveLine_fault (d : Drive) (s : State) : (driveLine d s).fault = s.fault := by cases d <;> rfl
@[simp] theorem driveLine_refused (d : Drive) (s : State) : (driveLine d s).refused = s.refused := by cases d <;> rfl
@[simp] theorem driveLine_resKind (d : Drive) (s : State) : (driveLine d s).resKind = s.resKind := by cases d <;> rfl
@[simp] theorem driveLine_resX (d : Drive) (s : State) : (driveLine d s).resX = s.resX := by cases d <;> rfl
@[simp] theorem driveLine_resY (d : Drive) (s : State) : (driveLine d s).resY = s.resY := by cases d <;> rfl
@[simp] theorem driveLine_resC (d : Drive) (s : State) : (driveLine d s).resC = s.resC := by cases d <;> rfl
@[simp] theorem driveLine_busy (d : Drive) (s : State) : (driveLine d s).busy = s.busy := by cases d <;> rfl
@[simp] theorem driveLine_work (d : Drive) (s : State) : (driveLine d s).work = s.work := by cases d <;> rfl
@[simp] theorem driveLine_trace (d : Drive) (s : State) : (driveLine d s).trace = s.trace ++ [.line d] := by cases d <;> rfl
@[simp] theorem driveLine_panel (d : Drive) (s : State) : (driveLine d s).panel = s.panel.onDrive d := rfl
@[simp] theorem driveLine_program (d : Drive) (s : State) : (driveLine d s).program = s.program := by cases d <;> rfl
@[simp] theorem driveLine_hpc (d : Drive) (s : State) : (driveLine d s).hpc = s.hpc := by cases d <;> rfl
@[simp] theorem driveLine_hostStopped (d : Drive) (s : State) : (driveLine d s).hostStopped = s.hostStopped := by cases d <;> rfl
@[simp] theorem driveLine_frame (d : Drive) (s : State) : (driveLine d s).frame = s.frame := by cases d <;> rfl
@[simp] theorem driveLine_env (d : Drive) (s : State) : (driveLine d s).env = s.env := by cases d <;> rfl
@[simp] theorem driveLine_busCalls (d : Drive) (s : State) : (driveLine d s).busCalls = s.busCalls := by cases d <;> rfl
@[simp] theorem driveLine_csD_csD (v : Select) (s : State) : (driveLine (.csD v) s).csD = v := rfl
@[simp] theorem driveLine_csD_dc (v : Select) (s : State) : (driveLine (.csD v) s).dc = s.dc := rfl
@[simp] theorem driveLine_csD_rst (v : Select) (s : State) : (driveLine (.csD v) s).rst = s.rst := rfl
@[simp] theorem driveLine_csD_csT (v : Select) (s : State) : (driveLine (.csD v) s).csT = s.csT := rfl
@[simp] theorem driveLine_dc_csD (v : DcLevel) (s : State) : (driveLine (.dc v) s).csD = s.csD := rfl
@[simp] theorem driveLine_dc_dc (v : DcLevel) (s : State) : (driveLine (.dc v) s).dc = v := rfl
@[simp] theorem driveLine_dc_rst (v : DcLevel) (s : State) : (driveLine (.dc v) s).rst = s.rst := rfl
@[simp] theorem driveLine_dc_csT (v : DcLevel) (s : State) : (driveLine (.dc v) s).csT = s.csT := rfl
@[simp] theorem driveLine_rst_csD (v : RstLevel) (s : State) : (driveLine (.rst v) s).csD = s.csD := rfl
@[simp] theorem driveLine_rst_dc (v : RstLevel) (s : State) : (driveLine (.rst v) s).dc = s.dc := rfl
@[simp] theorem driveLine_rst_rst (v : RstLevel) (s : State) : (driveLine (.rst v) s).rst = v := rfl
@[simp] theorem driveLine_rst_csT (v : RstLevel) (s : State) : (driveLine (.rst v) s).csT = s.csT := rfl
@[simp] theorem driveLine_csT_csD (v : Select) (s : State) : (driveLine (.csT v) s).csD = s.csD := rfl
@[simp] theorem driveLine_csT_dc (v : Select) (s : State) : (driveLine (.csT v) s).dc = s.dc := rfl
@[simp] theorem driveLine_csT_rst (v : Select) (s : State) : (driveLine (.csT v) s).rst = s.rst := rfl
@[simp] theorem driveLine_csT_csT (v : Select) (s : State) : (driveLine (.csT v) s).csT = v := rfl

/-! ### setResult -/

@[simp] theorem setResult_cfg (v : Result) (s : State) : (setResult v s).cfg = s.cfg := by cases v <;> rfl
@[simp] theorem setResult_csD (v : Result) (s : State) : (setResult v s).csD = s.csD := by cases v <;> rfl
@[simp] theorem setResult_dc (v : Result) (s : State) : (setResult v s).dc = s.dc := by cases v <;> rfl
@[simp] theorem setResult_rst (v : Result) (s : State) : (setResult v s).rst = s.rst := by cases v <;> rfl
@[simp] theorem setResult_csT (v : Result) (s : State) : (setResult v s).csT = s.csT := by cases v <;> rfl
@[simp] theorem setResult_status (v : Result) (s : State) : (setResult v s).status = s.status := by cases v <;> rfl
@[simp] theorem setResult_fault (v : Result) (s : State) : (setResult v s).fault = s.fault := by cases v <;> rfl
@[simp] theorem setResult_refused (v : Result) (s : State) : (setResult v s).refused = s.refused := by cases v <;> rfl
@[simp] theorem setResult_busy (v : Result) (s : State) : (setResult v s).busy = s.busy := by cases v <;> rfl
@[simp] theorem setResult_work (v : Result) (s : State) : (setResult v s).work = s.work := by cases v <;> rfl
@[simp] theorem setResult_trace (v : Result) (s : State) : (setResult v s).trace = s.trace := by cases v <;> rfl
@[simp] theorem setResult_panel (v : Result) (s : State) : (setResult v s).panel = s.panel := by cases v <;> rfl
@[simp] theorem setResult_program (v : Result) (s : State) : (setResult v s).program = s.program := by cases v <;> rfl
@[simp] theorem setResult_hpc (v : Result) (s : State) : (setResult v s).hpc = s.hpc := by cases v <;> rfl
@[simp] theorem setResult_hostStopped (v : Result) (s : State) : (setResult v s).hostStopped = s.hostStopped := by cases v <;> rfl
@[simp] theorem setResult_frame (v : Result) (s : State) : (setResult v s).frame = s.frame := by cases v <;> rfl
@[simp] theorem setResult_env (v : Result) (s : State) : (setResult v s).env = s.env := by cases v <;> rfl
@[simp] theorem setResult_busCalls (v : Result) (s : State) : (setResult v s).busCalls = s.busCalls := by cases v <;> rfl
@[simp] theorem setResult_none_resKind (s : State) : (setResult .none s).resKind = .none := rfl
@[simp] theorem setResult_none_resX (s : State) : (setResult .none s).resX = s.resX := rfl
@[simp] theorem setResult_none_resY (s : State) : (setResult .none s).resY = s.resY := rfl
@[simp] theorem setResult_none_resC (s : State) : (setResult .none s).resC = s.resC := rfl
@[simp] theorem setResult_colour_resKind (c : Half) (s : State) : (setResult (.colour c) s).resKind = .colour := rfl
@[simp] theorem setResult_colour_resX (c : Half) (s : State) : (setResult (.colour c) s).resX = s.resX := rfl
@[simp] theorem setResult_colour_resY (c : Half) (s : State) : (setResult (.colour c) s).resY = s.resY := rfl
@[simp] theorem setResult_colour_resC (c : Half) (s : State) : (setResult (.colour c) s).resC = c := rfl
@[simp] theorem setResult_sample_resKind (x y : Half) (s : State) : (setResult (.sample x y) s).resKind = .sample := rfl
@[simp] theorem setResult_sample_resX (x y : Half) (s : State) : (setResult (.sample x y) s).resX = x := rfl
@[simp] theorem setResult_sample_resY (x y : Half) (s : State) : (setResult (.sample x y) s).resY = y := rfl
@[simp] theorem setResult_sample_resC (x y : Half) (s : State) : (setResult (.sample x y) s).resC = s.resC := rfl
@[simp] theorem setResult_noTouch_resKind (s : State) : (setResult .noTouch s).resKind = .noTouch := rfl
@[simp] theorem setResult_noTouch_resX (s : State) : (setResult .noTouch s).resX = s.resX := rfl
@[simp] theorem setResult_noTouch_resY (s : State) : (setResult .noTouch s).resY = s.resY := rfl
@[simp] theorem setResult_noTouch_resC (s : State) : (setResult .noTouch s).resC = s.resC := rfl
@[simp] theorem setResult_point_resKind (x y : Half) (s : State) : (setResult (.point x y) s).resKind = .point := rfl
@[simp] theorem setResult_point_resX (x y : Half) (s : State) : (setResult (.point x y) s).resX = x := rfl
@[simp] theorem setResult_point_resY (x y : Half) (s : State) : (setResult (.point x y) s).resY = y := rfl
@[simp] theorem setResult_point_resC (x y : Half) (s : State) : (setResult (.point x y) s).resC = s.resC := rfl

/-! ### endOp -/

@[simp] theorem endOp_cfg (st : Status) (v : Result) (s : State) : (endOp st v s).cfg = s.cfg := by simp [endOp]
@[simp] theorem endOp_csD (st : Status) (v : Result) (s : State) : (endOp st v s).csD = s.csD := by simp [endOp]
@[simp] theorem endOp_dc (st : Status) (v : Result) (s : State) : (endOp st v s).dc = s.dc := by simp [endOp]
@[simp] theorem endOp_rst (st : Status) (v : Result) (s : State) : (endOp st v s).rst = s.rst := by simp [endOp]
@[simp] theorem endOp_csT (st : Status) (v : Result) (s : State) : (endOp st v s).csT = s.csT := by simp [endOp]
@[simp] theorem endOp_status (st : Status) (v : Result) (s : State) : (endOp st v s).status = st := rfl
@[simp] theorem endOp_fault (st : Status) (v : Result) (s : State) : (endOp st v s).fault = faultAfter st s.fault := rfl
@[simp] theorem endOp_refused (st : Status) (v : Result) (s : State) :
    (endOp st v s).refused = refusedAfter st s.refused := rfl
@[simp] theorem endOp_busy (st : Status) (v : Result) (s : State) : (endOp st v s).busy = false := rfl
@[simp] theorem endOp_work (st : Status) (v : Result) (s : State) : (endOp st v s).work = s.work := by simp [endOp]
@[simp] theorem endOp_trace (st : Status) (v : Result) (s : State) : (endOp st v s).trace = s.trace := by simp [endOp]
@[simp] theorem endOp_panel (st : Status) (v : Result) (s : State) : (endOp st v s).panel = s.panel := by simp [endOp]
@[simp] theorem endOp_program (st : Status) (v : Result) (s : State) : (endOp st v s).program = s.program := by simp [endOp]
@[simp] theorem endOp_hpc (st : Status) (v : Result) (s : State) : (endOp st v s).hpc = s.hpc := by simp [endOp]
@[simp] theorem endOp_hostStopped (st : Status) (v : Result) (s : State) : (endOp st v s).hostStopped = s.hostStopped := by simp [endOp]
@[simp] theorem endOp_frame (st : Status) (v : Result) (s : State) : (endOp st v s).frame = s.frame := by simp [endOp]
@[simp] theorem endOp_env (st : Status) (v : Result) (s : State) : (endOp st v s).env = s.env := by simp [endOp]
@[simp] theorem endOp_busCalls (st : Status) (v : Result) (s : State) : (endOp st v s).busCalls = s.busCalls := by simp [endOp]
@[simp] theorem endOp_resKind (st : Status) (v : Result) (s : State) :
    (endOp st v s).resKind = (setResult (resultAfter st v) s).resKind := rfl
@[simp] theorem endOp_resX (st : Status) (v : Result) (s : State) :
    (endOp st v s).resX = (setResult (resultAfter st v) s).resX := rfl
@[simp] theorem endOp_resY (st : Status) (v : Result) (s : State) :
    (endOp st v s).resY = (setResult (resultAfter st v) s).resY := rfl
@[simp] theorem endOp_resC (st : Status) (v : Result) (s : State) :
    (endOp st v s).resC = (setResult (resultAfter st v) s).resC := rfl

/-! ### clearFrame -/

@[simp] theorem clearFrame_cfg (s : State) : (clearFrame s).cfg = s.cfg := rfl
@[simp] theorem clearFrame_csD (s : State) : (clearFrame s).csD = s.csD := rfl
@[simp] theorem clearFrame_dc (s : State) : (clearFrame s).dc = s.dc := rfl
@[simp] theorem clearFrame_rst (s : State) : (clearFrame s).rst = s.rst := rfl
@[simp] theorem clearFrame_csT (s : State) : (clearFrame s).csT = s.csT := rfl
@[simp] theorem clearFrame_status (s : State) : (clearFrame s).status = s.status := rfl
@[simp] theorem clearFrame_fault (s : State) : (clearFrame s).fault = s.fault := rfl
@[simp] theorem clearFrame_refused (s : State) : (clearFrame s).refused = s.refused := rfl
@[simp] theorem clearFrame_resKind (s : State) : (clearFrame s).resKind = s.resKind := rfl
@[simp] theorem clearFrame_resX (s : State) : (clearFrame s).resX = s.resX := rfl
@[simp] theorem clearFrame_resY (s : State) : (clearFrame s).resY = s.resY := rfl
@[simp] theorem clearFrame_resC (s : State) : (clearFrame s).resC = s.resC := rfl
@[simp] theorem clearFrame_busy (s : State) : (clearFrame s).busy = s.busy := rfl
@[simp] theorem clearFrame_work (s : State) : (clearFrame s).work = s.work := rfl
@[simp] theorem clearFrame_trace (s : State) : (clearFrame s).trace = s.trace := rfl
@[simp] theorem clearFrame_panel (s : State) : (clearFrame s).panel = s.panel := rfl
@[simp] theorem clearFrame_program (s : State) : (clearFrame s).program = s.program := rfl
@[simp] theorem clearFrame_hpc (s : State) : (clearFrame s).hpc = s.hpc := rfl
@[simp] theorem clearFrame_hostStopped (s : State) : (clearFrame s).hostStopped = s.hostStopped := rfl
@[simp] theorem clearFrame_frame (s : State) : (clearFrame s).frame = none := rfl
@[simp] theorem clearFrame_env (s : State) : (clearFrame s).env = s.env := rfl
@[simp] theorem clearFrame_busCalls (s : State) : (clearFrame s).busCalls = s.busCalls := rfl

/-! ### hostAdvance -/

@[simp] theorem hostAdvance_cfg (s : State) : (hostAdvance s).cfg = s.cfg := by unfold hostAdvance; split_ifs <;> rfl
@[simp] theorem hostAdvance_csD (s : State) : (hostAdvance s).csD = s.csD := by unfold hostAdvance; split_ifs <;> rfl
@[simp] theorem hostAdvance_dc (s : State) : (hostAdvance s).dc = s.dc := by unfold hostAdvance; split_ifs <;> rfl
@[simp] theorem hostAdvance_rst (s : State) : (hostAdvance s).rst = s.rst := by unfold hostAdvance; split_ifs <;> rfl
@[simp] theorem hostAdvance_csT (s : State) : (hostAdvance s).csT = s.csT := by unfold hostAdvance; split_ifs <;> rfl
@[simp] theorem hostAdvance_status (s : State) : (hostAdvance s).status = s.status := by unfold hostAdvance; split_ifs <;> rfl
@[simp] theorem hostAdvance_fault (s : State) : (hostAdvance s).fault = s.fault := by unfold hostAdvance; split_ifs <;> rfl
@[simp] theorem hostAdvance_refused (s : State) : (hostAdvance s).refused = s.refused := by unfold hostAdvance; split_ifs <;> rfl
@[simp] theorem hostAdvance_resKind (s : State) : (hostAdvance s).resKind = s.resKind := by unfold hostAdvance; split_ifs <;> rfl
@[simp] theorem hostAdvance_resX (s : State) : (hostAdvance s).resX = s.resX := by unfold hostAdvance; split_ifs <;> rfl
@[simp] theorem hostAdvance_resY (s : State) : (hostAdvance s).resY = s.resY := by unfold hostAdvance; split_ifs <;> rfl
@[simp] theorem hostAdvance_resC (s : State) : (hostAdvance s).resC = s.resC := by unfold hostAdvance; split_ifs <;> rfl
@[simp] theorem hostAdvance_busy (s : State) : (hostAdvance s).busy = s.busy := by unfold hostAdvance; split_ifs <;> rfl
@[simp] theorem hostAdvance_work (s : State) : (hostAdvance s).work = s.work := by unfold hostAdvance; split_ifs <;> rfl
@[simp] theorem hostAdvance_trace (s : State) : (hostAdvance s).trace = s.trace := by unfold hostAdvance; split_ifs <;> rfl
@[simp] theorem hostAdvance_panel (s : State) : (hostAdvance s).panel = s.panel := by unfold hostAdvance; split_ifs <;> rfl
@[simp] theorem hostAdvance_program (s : State) : (hostAdvance s).program = s.program := by unfold hostAdvance; split_ifs <;> rfl
@[simp] theorem hostAdvance_frame (s : State) : (hostAdvance s).frame = s.frame := by unfold hostAdvance; split_ifs <;> rfl
@[simp] theorem hostAdvance_env (s : State) : (hostAdvance s).env = s.env := by unfold hostAdvance; split_ifs <;> rfl
@[simp] theorem hostAdvance_busCalls (s : State) : (hostAdvance s).busCalls = s.busCalls := by unfold hostAdvance; split_ifs <;> rfl

/-! ### Status, fault and refusal after an operation (R26, R140) -/

@[simp] theorem faultAfter_ok (b : Bool) : faultAfter .ok b = b := by simp [faultAfter]
@[simp] theorem faultAfter_transportFault (b : Bool) : faultAfter .transportFault b = true := by simp [faultAfter]
@[simp] theorem faultAfter_operandRange (b : Bool) : faultAfter .operandRange b = b := by simp [faultAfter]
@[simp] theorem faultAfter_illegalOp (b : Bool) : faultAfter .illegalOp b = b := by simp [faultAfter]
@[simp] theorem refusedAfter_ok (b : Bool) : refusedAfter .ok b = b := by simp [refusedAfter]
@[simp] theorem refusedAfter_transportFault (b : Bool) : refusedAfter .transportFault b = b := by simp [refusedAfter]
@[simp] theorem refusedAfter_operandRange (b : Bool) : refusedAfter .operandRange b = true := by simp [refusedAfter]
@[simp] theorem refusedAfter_illegalOp (b : Bool) : refusedAfter .illegalOp b = true := by simp [refusedAfter]
@[simp] theorem resultAfter_ok (v : Result) : resultAfter .ok v = v := rfl
@[simp] theorem resultAfter_transportFault (v : Result) : resultAfter .transportFault v = .none := rfl
@[simp] theorem resultAfter_operandRange (v : Result) : resultAfter .operandRange v = .none := rfl
@[simp] theorem resultAfter_illegalOp (v : Result) : resultAfter .illegalOp v = .none := rfl

/-! ### The runner's combinator -/

@[simp] theorem andThen_done {α β : Type} (a : α) (s : State) (k : α → State → Run β) :
    (Run.done a s).andThen k = k a s := rfl
@[simp] theorem andThen_ended {α β : Type} (st : Status) (s : State) (k : α → State → Run β) :
    (Run.ended st s : Run α).andThen k = .ended st s := rfl
@[simp] theorem andThen_stalled {α β : Type} (s : State) (k : α → State → Run β) :
    (Run.stalled s : Run α).andThen k = .stalled s := rfl
@[simp] theorem andThen_noMeaning {α β : Type} (r : Refusal) (k : α → State → Run β) :
    (Run.noMeaning r : Run α).andThen k = .noMeaning r := rfl

end Sys2Proof.Machine
end

