-- ==== Sys2Proof/Laws/Run.lean ====
section
/-! SUPPORT. What a run of primitives can do, said once: what holds of every state it can come out in, and the exact
state it comes out in when the transport completes every call. -/

namespace Sys2Proof.Machine

/-- A property of every state a run can come out in. -/
def Run.All {α : Type} (P : State → Prop) : Run α → Prop
  | .done _ s => P s
  | .ended _ s => P s
  | .stalled s => P s
  | .noMeaning _ => True

theorem Run.All.andThen {α β : Type} {P Q : State → Prop} {r : Run α} {k : α → State → Run β}
    (hr : r.All P) (hPQ : ∀ s, P s → Q s) (hk : ∀ a s, P s → (k a s).All Q) : (r.andThen k).All Q := by
  cases r with
  | done a s => exact hk a s hr
  | ended st s => exact hPQ s hr
  | stalled s => exact hPQ s hr
  | noMeaning x => trivial

theorem Run.All.mono {α : Type} {P Q : State → Prop} {r : Run α} (hr : r.All P) (h : ∀ s, P s → Q s) :
    r.All Q := by
  cases r with
  | done a s => exact h s hr
  | ended st s => exact h s hr
  | stalled s => exact h s hr
  | noMeaning x => trivial

theorem Run.andThen_assoc {α β γ : Type} (r : Run α) (k : α → State → Run β) (m : β → State → Run γ) :
    (r.andThen k).andThen m = r.andThen fun a s => (k a s).andThen m := by
  cases r <;> rfl

/-- What each primitive keeps, a list of them keeps. -/
theorem runActs_all {P : State → Prop} {acts : List Act}
    (h : ∀ a ∈ acts, ∀ s, P s → (runAct a s).All P) {s : State} (hs : P s) : (runActs acts s).All P := by
  induction acts generalizing s with
  | nil => exact hs
  | cons a as ih =>
    refine Run.All.andThen (h a (by simp) s hs) (fun _ h => h) fun r t ht => ?_
    exact Run.All.andThen (ih (fun b hb => h b (List.mem_cons_of_mem _ hb)) ht) (fun _ h => h) fun _ _ h => h

/-- A run of two lists is a run of the one and then of the other. -/
theorem runActs_append (as bs : List Act) (s : State) :
    runActs (as ++ bs) s
      = (runActs as s).andThen fun r t => (runActs bs t).andThen fun q u => .done (r ++ q) u := by
  induction as generalizing s with
  | nil =>
    simp only [List.nil_append, runActs, andThen_done]
    cases runActs bs s <;> simp
  | cons a as ih =>
    simp only [List.cons_append, runActs, Run.andThen_assoc, andThen_done]
    congr 1
    funext r t
    rw [ih]
    simp only [Run.andThen_assoc, andThen_done, List.append_assoc]

/-- The events of a list of primitives that reads nothing back. -/
def actEvents : List Act → List Event
  | [] => []
  | .line d :: as => .line d :: actEvents as
  | .write bs :: as => .write bs :: actEvents as
  | .sleep n :: as => .sleep n :: actEvents as
  | .work _ :: as => actEvents as
  | .xfer _ :: as => actEvents as

/-- The working registers after a list of primitives. -/
def actWork : List Act → Work → Work
  | [], w => w
  | .work x :: as, w => actWork as (writeWork x w)
  | .line _ :: as, w => actWork as w
  | .write _ :: as, w => actWork as w
  | .sleep _ :: as, w => actWork as w
  | .xfer _ :: as, w => actWork as w

/-- A primitive of the display unit other than on the reset line. -/
def Act.display : Act → Bool
  | .line (.csD _) => true
  | .line (.dc _) => true
  | .line (.rst _) => false
  | .line (.csT _) => false
  | .write _ => true
  | .sleep _ => true
  | .work _ => true
  | .xfer _ => false

theorem actEvents_append (as bs : List Act) : actEvents (as ++ bs) = actEvents as ++ actEvents bs := by
  induction as with
  | nil => rfl
  | cons a as ih => cases a <;> simp [actEvents, ih]

theorem actWork_append (as bs : List Act) (w : Work) : actWork (as ++ bs) w = actWork bs (actWork as w) := by
  induction as generalizing w with
  | nil => rfl
  | cons a as ih => cases a <;> simp [actWork, ih]

theorem writeCount_append (es fs : List Event) : writeCount (es ++ fs) = writeCount es + writeCount fs := by
  induction es with
  | nil => simp [writeCount]
  | cons e es ih => cases e <;> simp [writeCount, ih, Nat.add_assoc]

theorem Heard.events_append (c : Config) (h : Heard) (es fs : List Event) :
    h.events c (es ++ fs) = (h.events c es).events c fs := by
  simp [Heard.events, List.foldl_append]

/-- The next transport call completes when the environment's next `n + 1` calls do. -/
theorem nextAnswer_completes {s : State} {n : Nat} (he : (s.env.take (n + 1)).all Answer.completes = true) :
    ∃ q, nextAnswer s = .ok q ∧ (s.env.tail.take n).all Answer.completes = true := by
  unfold nextAnswer
  cases hE : s.env with
  | nil => exact ⟨[], rfl, by simp⟩
  | cons x xs =>
    rw [hE, List.take_succ_cons, List.all_cons, Bool.and_eq_true] at he
    cases x with
    | ok q => exact ⟨q, rfl, he.2⟩
    | fault k => exact absurd he.1 (by simp [Answer.completes])
    | stall k => exact absurd he.1 (by simp [Answer.completes])

/-- A write that completes (R13, R62). -/
theorem busWrite_ok {s : State} {q : List Byte} (hf : s.fault = false) (hq : nextAnswer s = .ok q)
    (bs : List Byte) : busWrite bs s = .done [] (emit (.write bs) (deliver bs (usedAnswer s))) := by
  simp [busWrite, hf, hq]

/-- A read-back that completes (R13, R62). -/
theorem busXfer_ok {s : State} {q : List Byte} (hf : s.fault = false) (hq : nextAnswer s = .ok q)
    (bs : List Byte) :
    busXfer bs s = .done [readback s.busCalls q bs.length]
      (emit (.xfer bs (readback s.busCalls q bs.length)) (usedAnswer s)) := by
  simp [busXfer, hf, hq]

/-- A list of display primitives runs to its end when the transport completes its calls, and this is the state it
comes out in. -/
theorem runActs_completes (acts : List Act) (hd : ∀ a ∈ acts, a.display = true) (s : State)
    (hf : s.fault = false) (he : (s.env.take (writeCount (actEvents acts))).all Answer.completes = true) :
    runActs acts s = .done [] { s.afterEvents (actEvents acts) with work := actWork acts s.work } := by
  induction acts generalizing s with
  | nil => simp [runActs, actEvents, actWork, State.afterEvents, Heard.events, State.heard, writeCount]
  | cons a as ih =>
    have hd' : ∀ b ∈ as, b.display = true := fun b hb => hd b (List.mem_cons_of_mem _ hb)
    have ha := hd a (by simp)
    cases a with
    | line d =>
      have key := ih hd' (driveLine d s) (by simpa using hf) (by simpa [actEvents, writeCount] using he)
      simp only [runActs, runAct, andThen_done, key, List.nil_append]
      cases d <;> first
        | (simp [Act.display] at ha; done)
        | simp [State.afterEvents, actEvents, actWork, Heard.events, Heard.event, State.heard, driveLine, setLine,
            emit, Panel.onDrive, writeCount]
    | write bs =>
      have he' : (s.env.take (writeCount (actEvents as) + 1)).all Answer.completes = true := by
        simpa [actEvents, writeCount, Nat.add_comm] using he
      obtain ⟨q, hq, htail⟩ := nextAnswer_completes he'
      have key := ih hd' (emit (.write bs) (deliver bs (usedAnswer s))) (by simpa using hf) (by simpa using htail)
      simp only [runActs, runAct, busWrite_ok hf hq, andThen_done, key, List.nil_append]
      simp [State.afterEvents, actEvents, actWork, Heard.events, Heard.event, State.heard, emit, deliver,
        usedAnswer, writeCount, Nat.add_comm 1]
      omega
    | xfer bs => simp [Act.display] at ha
    | sleep n =>
      have key := ih hd' (emit (.sleep n) s) (by simpa using hf) (by simpa [actEvents, writeCount] using he)
      simp only [runActs, runAct, andThen_done, key, List.nil_append]
      simp [State.afterEvents, actEvents, actWork, Heard.events, Heard.event, State.heard, emit, writeCount]
    | work w =>
      have key := ih hd' { s with work := writeWork w s.work } (by simpa using hf)
        (by simpa [actEvents, writeCount] using he)
      simp only [runActs, runAct, andThen_done, key, List.nil_append]
      simp [State.afterEvents, actEvents, actWork, State.heard]

/-- A primitive that is a transport call. -/
def Act.transport : Act → Bool
  | .write _ => true
  | .xfer _ => true
  | .line _ => false
  | .sleep _ => false
  | .work _ => false

/-- While FAULT = 1 a list of primitives with a transport call among them has no meaning (R272). -/
theorem runActs_afterFault {acts : List Act} {s : State} (hf : s.fault = true)
    (ht : ∃ a ∈ acts, a.transport = true) : runActs acts s = .noMeaning .transportAfterFault := by
  induction acts generalizing s with
  | nil => simp at ht
  | cons a as ih =>
    cases a with
    | write bs => simp only [runActs, runAct, busWrite, hf, if_true]; rfl
    | xfer bs => simp only [runActs, runAct, busXfer, hf, if_true]; rfl
    | line d =>
      simp only [runActs, runAct, andThen_done, ih (s := driveLine d s) (by simpa using hf) (by simpa [Act.transport] using ht)]
      rfl
    | sleep n =>
      simp only [runActs, runAct, andThen_done, ih (s := emit (.sleep n) s) (by simpa using hf) (by simpa [Act.transport] using ht)]
      rfl
    | work w =>
      simp only [runActs, runAct, andThen_done,
        ih (s := { s with work := writeWork w s.work }) (by simpa using hf) (by simpa [Act.transport] using ht)]
      rfl

/-- The three ways an operation comes out in a next state. -/
theorem operation_next {body : State → Run Result} {s t : State} (h : operation body s = .next t) :
    s.busy = false ∧
      ((∃ v u, body { s with busy := true } = .done v u ∧ t = endOp .ok v u)
        ∨ (∃ st u, body { s with busy := true } = .ended st u ∧ t = endOp st .none u)
        ∨ body { s with busy := true } = .stalled t) := by
  unfold operation at h
  split_ifs at h with hb
  refine ⟨by simpa using hb, ?_⟩
  revert h
  cases hr : body { s with busy := true } with
  | done v u => intro h; cases h; exact .inl ⟨v, u, rfl, rfl⟩
  | ended st u => intro h; cases h; exact .inr (.inl ⟨st, u, rfl, rfl⟩)
  | stalled u => intro h; cases h; exact .inr (.inr rfl)
  | noMeaning r => intro h; cases h

/-- The three ways a frame by itself comes out in a next state. -/
theorem frameAlone_next {acts : List Act} {s t : State} (h : frameAlone acts s = .next t) :
    s.busy = false ∧
      ((∃ r u, runActs acts { s with busy := true } = .done r u ∧ t = { u with busy := false })
        ∨ (∃ st u, runActs acts { s with busy := true } = .ended st u ∧ t = endOp st .none u)
        ∨ runActs acts { s with busy := true } = .stalled t) := by
  unfold frameAlone at h
  split_ifs at h with hb
  refine ⟨by simpa using hb, ?_⟩
  revert h
  cases hr : runActs acts { s with busy := true } with
  | done v u => intro h; cases h; exact .inl ⟨v, u, rfl, rfl⟩
  | ended st u => intro h; cases h; exact .inr (.inl ⟨st, u, rfl, rfl⟩)
  | stalled u => intro h; cases h; exact .inr (.inr rfl)
  | noMeaning r => intro h; cases h

end Sys2Proof.Machine
end

