-- ==== Sys2Proof/Laws/Frames.lean ====
section
/-! SUPPORT. The procedures' lists of primitives against the wire layer's frames: which events CmdXact, DataXact,
SetWindow, StreamColor, DrawGlyph and the operations' loops append (spec/40_display_framing.md R144, R146,
spec/41_display_window_stream.md R160, R163, spec/42_display_glyph_text.md R181, R183). -/

namespace Sys2Proof.Machine

/-- Every primitive of a list is the display unit's. -/
def allDisplay (acts : List Act) : Prop := ∀ a ∈ acts, a.display = true

theorem allDisplay_append {as bs : List Act} (ha : allDisplay as) (hb : allDisplay bs) : allDisplay (as ++ bs) :=
  fun a h => (List.mem_append.1 h).elim (ha a) (hb a)

theorem allDisplay_cons {a : Act} {as : List Act} (ha : a.display = true) (has : allDisplay as) :
    allDisplay (a :: as) :=
  fun b h => (List.mem_cons.1 h).elim (fun e => e ▸ ha) (has b)

theorem allDisplay_nil : allDisplay [] := fun _ h => nomatch h

theorem cmdXact_display (op : Byte) (pl : List Byte) : allDisplay (cmdXact op pl) := by
  unfold cmdXact
  refine allDisplay_append (allDisplay_append ?_ ?_) (allDisplay_cons rfl allDisplay_nil)
  · exact allDisplay_cons rfl (allDisplay_cons rfl (allDisplay_cons rfl allDisplay_nil))
  · split_ifs
    · exact allDisplay_nil
    · exact allDisplay_cons rfl (allDisplay_cons rfl allDisplay_nil)

theorem dataXact_display (bs : List Byte) : allDisplay (dataXact bs) := by
  intro a h
  simp only [dataXact, List.mem_cons, List.not_mem_nil, or_false] at h
  rcases h with rfl | rfl | rfl | rfl <;> rfl

/-- CmdXact appends the command frame of R101. -/
@[simp] theorem actEvents_cmdXact (op : Byte) (pl : List Byte) : actEvents (cmdXact op pl) = commandFrame op pl := by
  cases pl <;> rfl

@[simp] theorem actWork_cmdXact (op : Byte) (pl : List Byte) (w : Work) : actWork (cmdXact op pl) w = w := by
  cases pl <;> rfl

/-- DataXact appends the data frame of R102. -/
@[simp] theorem actEvents_dataXact (bs : List Byte) : actEvents (dataXact bs) = dataFrame bs := rfl

@[simp] theorem actWork_dataXact (bs : List Byte) (w : Work) : actWork (dataXact bs) w = w := rfl

theorem setWindow_display (c : Config) (w : Window) : allDisplay (setWindow c w) := by
  unfold setWindow
  exact allDisplay_append (allDisplay_append (allDisplay_append
    (allDisplay_cons rfl allDisplay_nil) (cmdXact_display _ _)) (cmdXact_display _ _)) (cmdXact_display _ _)

/-- SetWindow appends its three command frames (R160). -/
@[simp] theorem actEvents_setWindow (c : Config) (w : Window) :
    actEvents (setWindow c w)
      = windowFrames c (BitVec.ofInt 16 w.x0) (BitVec.ofInt 16 w.y0) (BitVec.ofInt 16 w.x1)
          (BitVec.ofInt 16 w.y1) := by
  simp [setWindow, actEvents_append, actEvents, windowFrames]

theorem streamLoop_display (color : Half) (chunk k n : Nat) : allDisplay (streamLoop color chunk k n) := by
  induction k generalizing n with
  | zero =>
    unfold streamLoop
    split_ifs
    · exact allDisplay_nil
    · exact allDisplay_append (dataXact_display _) (allDisplay_cons rfl allDisplay_nil)
  | succ k ih => exact allDisplay_append (dataXact_display _) (allDisplay_cons rfl (ih _))

/-- The loop of StreamColor appends `k` full frames and the short one (R163). -/
theorem actEvents_streamLoop (color : Half) (chunk k n : Nat) :
    actEvents (streamLoop color chunk k n)
      = (List.replicate k (dataFrame (rep (be16 color) chunk))).flatten
        ++ (if n - k * chunk = 0 then [] else dataFrame (rep (be16 color) (n - k * chunk))) := by
  induction k generalizing n with
  | zero =>
    unfold streamLoop
    split_ifs with h1 h2 h2 <;> simp_all [actEvents, actEvents_append]
  | succ k ih =>
    have e : n - chunk - k * chunk = n - (k + 1) * chunk := by
      rw [Nat.sub_sub, Nat.succ_mul, Nat.add_comm]
    simp only [streamLoop, actEvents_append, actEvents, actEvents_dataXact, ih, e, List.replicate_succ,
      List.flatten_cons, List.append_assoc]

theorem streamColor_display (c : Config) (color : Half) (n : Nat) : allDisplay (streamColor c color n) :=
  allDisplay_append (allDisplay_cons rfl (allDisplay_cons rfl allDisplay_nil)) (streamLoop_display _ _ _ _)

/-- StreamColor appends the data frames of R163. -/
@[simp] theorem actEvents_streamColor (c : Config) (color : Half) (n : Nat) :
    actEvents (streamColor c color n) = chunkFrames color c.chunk n := by
  have e : n - n / c.chunk * c.chunk = n % c.chunk := by
    have := Nat.div_add_mod n c.chunk
    rw [Nat.mul_comm] at this
    omega
  simp [streamColor, actEvents, actEvents_streamLoop, chunkFrames, e]

theorem drawGlyph_display (c : Config) (ch : Byte) (x y : Int) (fg bg : Half) :
    allDisplay (drawGlyph c ch x y fg bg) :=
  allDisplay_append (setWindow_display _ _) (allDisplay_cons rfl (dataXact_display _))

/-- DrawGlyph appends the frames of one glyph (R181). -/
@[simp] theorem actEvents_drawGlyph (c : Config) (ch : Byte) (x y : Int) (fg bg : Half) :
    actEvents (drawGlyph c ch x y fg bg) = glyphFrames c ch x y fg bg := by
  simp [drawGlyph, actEvents_append, actEvents, glyphFrames]

theorem textLoop_display (c : Config) (x y : Int) (fg bg : Half) (i : Nat) (text : List Byte) :
    allDisplay (textLoop c x y fg bg i text) := by
  induction text generalizing i with
  | nil => exact allDisplay_nil
  | cons ch text ih => exact allDisplay_cons rfl (allDisplay_append (drawGlyph_display _ _ _ _ _ _) (ih _))

/-- The character loop appends the frames of the text from its character on (R183). -/
theorem actEvents_textLoop (c : Config) (x y : Int) (fg bg : Half) (i : Nat) (text : List Byte) :
    actEvents (textLoop c x y fg bg i text) = textFrames c (x + 8 * (i : Int)) y fg bg text := by
  induction text generalizing i with
  | nil => rfl
  | cons ch text ih =>
    have e : x + 8 * ((i : Int) + 1) = x + 8 * (i : Int) + 8 := by ring
    simp [textLoop, actEvents, actEvents_append, ih, textFrames, advance, e]

theorem tableActs_display (i : Nat) (es : List InitEntry) : allDisplay (tableActs i es) := by
  induction es generalizing i with
  | nil => exact allDisplay_nil
  | cons e es ih => exact allDisplay_cons rfl (allDisplay_append (cmdXact_display _ _) (ih _))

theorem actEvents_tableActs (i : Nat) (es : List InitEntry) : actEvents (tableActs i es) = tableFrames es := by
  induction es generalizing i with
  | nil => rfl
  | cons e es ih => simp [tableActs, actEvents, actEvents_append, ih, tableFrames]

theorem initActs_display (c : Config) : allDisplay (initActs c) :=
  allDisplay_append (allDisplay_append (allDisplay_append (tableActs_display _ _) (cmdXact_display _ _))
    (allDisplay_cons rfl allDisplay_nil)) (cmdXact_display _ _)

/-- The initialisation sequence appends the events of R142. -/
@[simp] theorem actEvents_initActs (c : Config) : actEvents (initActs c) = initFrames c := by
  simp [initActs, initFrames, actEvents_append, actEvents, actEvents_tableActs, tSlpout]

theorem fillActs_display (c : Config) (x y w h : Int) (color : Half) : allDisplay (fillActs c x y w h color) := by
  unfold fillActs
  simp only
  split_ifs
  · exact allDisplay_nil
  · exact allDisplay_append (setWindow_display _ _) (streamColor_display _ _ _)

/-- D.FILLRECT appends the events of R162. -/
theorem actEvents_fillActs (c : Config) (x y w h : Int) (color : Half) :
    actEvents (fillActs c x y w h color) = displayFrames c (.dFillrect x y w h color) := by
  unfold fillActs displayFrames
  simp only
  split_ifs
  · rfl
  · simp [actEvents_append]

/-! ### The working registers after a procedure (R29) -/

@[simp] theorem actWork_setWindow (c : Config) (w : Window) (k : Work) :
    actWork (setWindow c w) k
      = { k with
          wx0 := BitVec.ofInt 16 w.x0, wy0 := BitVec.ofInt 16 w.y0
          wx1 := BitVec.ofInt 16 w.x1, wy1 := BitVec.ofInt 16 w.y1 } := by
  simp [setWindow, actWork_append, actWork, writeWork]

theorem actWork_streamLoop (color : Half) (chunk k n : Nat) (w : Work) (hn : w.pcnt = n) :
    actWork (streamLoop color chunk k n) w = { w with pcnt := 0 } := by
  induction k generalizing n w with
  | zero =>
    unfold streamLoop
    split_ifs with h
    · rw [← h, ← hn]; rfl
    · simp [actWork_append, actWork, writeWork]
  | succ k ih =>
    simp only [streamLoop, actWork_append, actWork_dataXact, actWork]
    exact ih (n - chunk) (writeWork (.pcnt (n - chunk)) w) rfl

@[simp] theorem actWork_streamColor (c : Config) (color : Half) (n : Nat) (k : Work) :
    actWork (streamColor c color n) k = { k with cbuf := rep (be16 color) c.chunk, pcnt := 0 } := by
  simp only [streamColor, List.cons_append, List.nil_append, actWork]
  exact actWork_streamLoop color c.chunk (n / c.chunk) n _ rfl

@[simp] theorem actWork_drawGlyph (c : Config) (ch : Byte) (x y : Int) (fg bg : Half) (k : Work) :
    actWork (drawGlyph c ch x y fg bg) k
      = { k with
          wx0 := BitVec.ofInt 16 x, wy0 := BitVec.ofInt 16 y
          wx1 := BitVec.ofInt 16 (x + 7), wy1 := BitVec.ofInt 16 (y + 7)
          gbuf := raster (glyphOf c ch) fg bg } := by
  simp [drawGlyph, actWork_append, actWork, writeWork]

theorem actWork_textLoop (c : Config) (x y : Int) (fg bg : Half) (i : Nat) (ch : Byte) (text : List Byte) (k : Work) :
    actWork (textLoop c x y fg bg i (ch :: text)) k
      = { k with
          wx0 := BitVec.ofInt 16 (x + 8 * ((i + text.length : Nat) : Int)), wy0 := BitVec.ofInt 16 y
          wx1 := BitVec.ofInt 16 (x + 8 * ((i + text.length : Nat) : Int) + 7), wy1 := BitVec.ofInt 16 (y + 7)
          gbuf := raster (glyphOf c (text.getLastD ch)) fg bg
          tidx := i + text.length } := by
  induction text generalizing i ch k with
  | nil => simp [textLoop, actWork, writeWork, advance]
  | cons d text ih =>
    rw [textLoop, actWork, actWork_append, ih]
    have e : i + 1 + text.length = i + (text.length + 1) := by omega
    simp only [e, writeWork, List.length_cons, List.getLastD_cons, actWork_drawGlyph]

theorem actWork_tableActs (i : Nat) (es : List InitEntry) (k : Work) :
    ∃ n : Nat, actWork (tableActs i es) k = { k with tidx := n } := by
  induction es generalizing i k with
  | nil => exact ⟨k.tidx, rfl⟩
  | cons e es ih =>
    obtain ⟨n, h⟩ := ih (i + 1) { k with tidx := i }
    exact ⟨n, by rw [tableActs, actWork, actWork_append, actWork_cmdXact, writeWork, h]⟩

/-! ### The lines after a frame -/

@[simp] theorem commandFrame_csD (c : Config) (h : Heard) (op : Byte) (pl : List Byte) :
    (h.events c (commandFrame op pl)).csD = .deasserted := by
  cases pl <;> rfl

theorem commandFrame_dc (c : Config) (h : Heard) (op : Byte) (pl : List Byte) :
    (h.events c (commandFrame op pl)).dc = if pl.isEmpty then .command else .data := by
  cases pl <;> rfl

@[simp] theorem dataFrame_csD (c : Config) (h : Heard) (bs : List Byte) :
    (h.events c (dataFrame bs)).csD = .deasserted := rfl

@[simp] theorem dataFrame_dc (c : Config) (h : Heard) (bs : List Byte) : (h.events c (dataFrame bs)).dc = .data := rfl

@[simp] theorem dataFrame_panel (c : Config) (h : Heard) (bs : List Byte) :
    (h.events c (dataFrame bs)).panel = h.panel.receiveAll c .data bs := rfl

/-- What the panel receives of a command frame (R69). -/
theorem commandFrame_panel (c : Config) (h : Heard) (op : Byte) (pl : List Byte) :
    (h.events c (commandFrame op pl)).panel = (h.panel.receive c .command op).receiveAll c .data pl := by
  cases pl <;> rfl

@[simp] theorem windowFrames_csD (c : Config) (h : Heard) (x0 y0 x1 y1 : Half) :
    (h.events c (windowFrames c x0 y0 x1 y1)).csD = .deasserted := by
  simp [windowFrames, Heard.events_append]

@[simp] theorem windowFrames_dc (c : Config) (h : Heard) (x0 y0 x1 y1 : Half) :
    (h.events c (windowFrames c x0 y0 x1 y1)).dc = .command := by
  rw [windowFrames, Heard.events_append]
  rfl

/-! ### The stream's bytes -/

theorem rep_add (bs : List Byte) (a b : Nat) : rep bs a ++ rep bs b = rep bs (a + b) := by
  rw [rep, rep, rep, ← List.flatten_append, List.replicate_append_replicate]

theorem rep_flatten (bs : List Byte) (k n : Nat) : (List.replicate k (rep bs n)).flatten = rep bs (k * n) := by
  induction k with
  | zero => simp [rep]
  | succ k ih => rw [List.replicate_succ, List.flatten_cons, ih, rep_add, Nat.succ_mul, Nat.add_comm]

theorem rep_be16 (color : Half) (n : Nat) : (List.replicate n color).flatMap be16 = rep (be16 color) n := by
  simp [rep, List.flatMap, List.map_replicate]

/-- The stream is data frames, and their bytes are the pixels', whatever the size of a frame (R163). -/
theorem chunkFrames_splits (color : Half) (chunk n : Nat) :
    ∃ splits : List (List Byte), chunkFrames color chunk n = splits.flatMap dataFrame
      ∧ splits.flatten = (List.replicate n color).flatMap be16 := by
  refine ⟨List.replicate (n / chunk) (rep (be16 color) chunk)
    ++ (if n % chunk = 0 then [] else [rep (be16 color) (n % chunk)]), ?_, ?_⟩
  · rw [chunkFrames, List.flatMap_append]
    congr 1
    · simp [List.flatMap, List.map_replicate]
    · split_ifs <;> simp
  · have e : (if n % chunk = 0 then ([] : List (List Byte)) else [rep (be16 color) (n % chunk)]).flatten
        = rep (be16 color) (n % chunk) := by
      split_ifs with h <;> simp [h, rep]
    rw [List.flatten_append, rep_flatten, e, rep_add, Nat.div_add_mod', rep_be16]

/-! ### Counting the transport calls -/

@[simp] theorem writeCount_commandFrame (op : Byte) (pl : List Byte) :
    writeCount (commandFrame op pl) = if pl.isEmpty then 1 else 2 := by
  cases pl <;> rfl

@[simp] theorem writeCount_dataFrame (bs : List Byte) : writeCount (dataFrame bs) = 1 := rfl

@[simp] theorem writeCount_windowFrames (c : Config) (x0 y0 x1 y1 : Half) :
    writeCount (windowFrames c x0 y0 x1 y1) = 5 := by
  simp [windowFrames, writeCount_append, be16]

@[simp] theorem writeCount_glyphFrames (c : Config) (ch : Byte) (x y : Int) (fg bg : Half) :
    writeCount (glyphFrames c ch x y fg bg) = 6 := by
  simp [glyphFrames, writeCount_append]

end Sys2Proof.Machine
end

