-- ==== Sys2Proof/Laws/Completes.lean ====
section
/-! SUPPORT. The envelope and the frames by themselves when they run to their end: from what the body or the list of
primitives comes out in to the whole next state (spec/40_display_framing.md R140, spec/43_touch.md R200). -/

namespace Sys2Proof.Machine

theorem operation_done {body : State → Run Result} {s u : State} {v : Result} (hb : s.busy = false)
    (h : body { s with busy := true } = .done v u) : operation body s = .next (endOp .ok v u) := by
  simp [operation, hb, h]

theorem operation_ended {body : State → Run Result} {s u : State} {st : Status} (hb : s.busy = false)
    (h : body { s with busy := true } = .ended st u) : operation body s = .next (endOp st .none u) := by
  simp [operation, hb, h]

theorem operation_noMeaning {body : State → Run Result} {s : State} {r : Refusal} (hb : s.busy = false)
    (h : body { s with busy := true } = .noMeaning r) : operation body s = .refused r := by
  simp [operation, hb, h]

theorem operation_busy {body : State → Run Result} {s : State} (hb : s.busy = true) :
    operation body s = .fault .busy := by
  simp [operation, hb]

theorem frameAlone_busy {acts : List Act} {s : State} (hb : s.busy = true) : frameAlone acts s = .fault .busy := by
  simp [frameAlone, hb]

/-- A body that runs display primitives on the state with BUSY risen and panel `p`: the whole next state, when the
transport completes every call. -/
theorem operation_completes {body : State → Run Result} (acts : List Act) (p : Panel) {s : State}
    (hbody : body { s with busy := true } = runReturning acts .none { s with busy := true, panel := p })
    (hd : allDisplay acts) (hr : busReady (writeCount (actEvents acts)) s) :
    operation body s = .next
      { s with
        csD := (s.heard.events s.cfg (actEvents acts)).csD
        dc := (s.heard.events s.cfg (actEvents acts)).dc
        trace := s.trace ++ actEvents acts
        panel := panelHears { s with panel := p } (actEvents acts)
        work := actWork acts s.work
        status := .ok
        resKind := .none
        env := s.env.drop (writeCount (actEvents acts))
        busCalls := s.busCalls + writeCount (actEvents acts) } := by
  obtain ⟨hb, hf, he⟩ := hr
  have lines : ∀ (es : List Event) (h k : Heard), h.csD = k.csD → h.dc = k.dc →
      (h.events s.cfg es).csD = (k.events s.cfg es).csD ∧ (h.events s.cfg es).dc = (k.events s.cfg es).dc := by
    intro es
    induction es with
    | nil => exact fun h k h1 h2 => ⟨h1, h2⟩
    | cons e es ih =>
      intro h k h1 h2
      refine ih _ _ ?_ ?_ <;> rcases e with (_ | _ | _ | _) | _ | _ | _ <;> simp [Heard.event, h1, h2]
  obtain ⟨l1, l2⟩ := lines (actEvents acts) ⟨s.csD, s.dc, p⟩ s.heard rfl rfl
  have key := runActs_completes acts hd { s with busy := true, panel := p } hf he
  rw [operation_done hb (hbody.trans (by rw [runReturning, key, andThen_done]))]
  simp [endOp, setResult, resultAfter, faultAfter, refusedAfter, State.afterEvents, State.heard, panelHears, hb]
  exact ⟨l1, l2⟩

/-- The same for a frame by itself, which writes no register of the envelope. -/
theorem frameAlone_completes (acts : List Act) {s : State} (hd : allDisplay acts)
    (hr : busReady (writeCount (actEvents acts)) s) :
    frameAlone acts s = .next
      { s with
        csD := (s.heard.events s.cfg (actEvents acts)).csD
        dc := (s.heard.events s.cfg (actEvents acts)).dc
        trace := s.trace ++ actEvents acts
        panel := panelHears s (actEvents acts)
        work := actWork acts s.work
        env := s.env.drop (writeCount (actEvents acts))
        busCalls := s.busCalls + writeCount (actEvents acts) } := by
  obtain ⟨hb, hf, he⟩ := hr
  have key := runActs_completes acts hd { s with busy := true } hf he
  simp [frameAlone, hb, key, State.afterEvents, State.heard, panelHears]

/-- One conversion that completes: the state it comes out in, and the bytes read back (R200, R113). -/
theorem convert_completes (op : Byte) (s : State) (hf : s.fault = false)
    (he : (s.env.take 1).all Answer.completes = true) :
    runActs (convert op) s = .done [answerBytes s 0]
      { s with
        csT := .deasserted
        trace := s.trace ++ conversionFrame op (answerBytes s 0)
        env := s.env.drop 1
        busCalls := s.busCalls + 1 } := by
  obtain ⟨q, hq, -⟩ := nextAnswer_completes (n := 0) he
  have e : (s.env[0]?.getD (Answer.ok [])).given = q := by
    have : s.env[0]?.getD (Answer.ok []) = .ok q := by rw [← hq, nextAnswer]; cases s.env <;> rfl
    rw [this]; rfl
  have key := busXfer_ok (s := driveLine (.csT .asserted) s) (q := q) hf hq [op, 0x00, 0x00]
  simp only [convert, runActs, runAct, key, andThen_done]
  simp [driveLine, setLine, emit, Panel.onDrive, usedAnswer, answerBytes, e, conversionFrame]

/-- Fewer calls complete when more do. -/
theorem completes_drop {env : List Answer} {m k n : Nat} (h : (env.take m).all Answer.completes = true)
    (hk : k + n ≤ m) : ((env.drop k).take n).all Answer.completes = true := by
  induction k generalizing env m with
  | zero =>
    rw [List.drop_zero]
    rw [List.all_eq_true] at h ⊢
    exact fun x hx => h x ((List.take_subset_take_left env (by omega)) hx)
  | succ k ih =>
    cases env with
    | nil => simp
    | cons a as =>
      obtain ⟨m, rfl⟩ : ∃ j, m = j + 1 := ⟨m - 1, by omega⟩
      rw [List.take_succ_cons, List.all_cons, Bool.and_eq_true] at h
      exact ih h.2 (by omega)

/-- A sample that completes (R202). -/
theorem sample_completes (s : State) (hf : s.fault = false) (he : (s.env.take 2).all Answer.completes = true) :
    sample s = .done (answerSample s 0)
      { s with
        csT := .deasserted
        trace := s.trace ++ sampleFrames s.cfg (answerBytes s 0) (answerBytes s 1)
        env := s.env.drop 2
        busCalls := s.busCalls + 2 } := by
  have h1 : (s.env.take 1).all Answer.completes = true := by simpa using completes_drop (k := 0) (n := 1) he (by omega)
  have h2 : ((s.env.drop 1).take 1).all Answer.completes = true := completes_drop he (by omega)
  unfold sample sampleActs
  rw [runActs_append, convert_completes _ s hf h1]
  simp only [andThen_done]
  rw [convert_completes s.cfg.opConvY
    { s with
      csT := .deasserted
      trace := s.trace ++ conversionFrame s.cfg.opConvX (answerBytes s 0)
      env := s.env.drop 1
      busCalls := s.busCalls + 1 } hf h2]
  simp [sampleOf, answerSample, answerReading, answerBytes, sampleFrames, conversionFrame]

/-- A settled sample that completes (R204 step 2). -/
theorem settledSample_completes (s : State) (hf : s.fault = false)
    (he : (s.env.take 2).all Answer.completes = true) :
    settledSample s = .done (answerSample s 0)
      { s with
        csT := .deasserted
        trace := s.trace ++ [.sleep 2] ++ sampleFrames s.cfg (answerBytes s 0) (answerBytes s 1)
        env := s.env.drop 2
        busCalls := s.busCalls + 2 } := by
  unfold settledSample
  simp only [runActs, runAct, andThen_done]
  rw [sample_completes _ (by exact hf) (by exact he)]
  simp [emit, tSettle, answerSample, answerReading, answerBytes]

end Sys2Proof.Machine
end

