-- ==== Sys2Proof/Laws/Memory.lean ====
section
/-! SUPPORT. The laws of the frame memory: every write keeps the canonical form, a read after a write to the same
address gives the byte written, and a write leaves every other address alone; the same for pixels. -/

namespace Sys2Proof.Machine

/-- The head of a canonical list is below every later address. -/
theorem Memory.wf_head_lt {c : Host.Cell} {m : Memory} (h : Memory.wf (c :: m) = true) :
    Memory.wf m = true ∧ ∀ d ∈ m, c.1 < d.1 := by
  induction m generalizing c with
  | nil => simp [Memory.wf]
  | cons d m ih =>
    simp only [Memory.wf, Bool.and_eq_true, decide_eq_true_eq] at h
    refine ⟨h.2, fun e he => ?_⟩
    rcases List.mem_cons.1 he with rfl | he
    · exact h.1
    · exact h.1.trans ((ih h.2).2 e he)

/-- A cell below every cell of a canonical list may stand before it. -/
theorem Memory.wf_cons {c : Host.Cell} {m : Memory} (h : Memory.wf m = true) (hlt : ∀ d ∈ m, c.1 < d.1) :
    Memory.wf (c :: m) = true := by
  cases m with
  | nil => rfl
  | cons d m => simpa [Memory.wf, h] using hlt d (by simp)

/-- The cells after a write are the one written and cells that were there. -/
theorem Memory.mem_write {m : Memory} {a : Nat} {b : Byte} {e : Host.Cell} (h : e ∈ Memory.write m a b) :
    e = (a, b) ∨ e ∈ m := by
  induction m with
  | nil => exact .inl (by simpa [Memory.write] using h)
  | cons c m ih =>
    simp only [Memory.write] at h
    split_ifs at h
    · simpa using h
    · rcases List.mem_cons.1 h with h | h
      · exact .inl h
      · exact .inr (List.mem_cons_of_mem _ h)
    · rcases List.mem_cons.1 h with h | h
      · exact .inr (by simp [h])
      · rcases ih h with h | h
        · exact .inl h
        · exact .inr (List.mem_cons_of_mem _ h)

/-- A write keeps the canonical form. -/
theorem Memory.write_wf {m : Memory} (h : Memory.wf m = true) (a : Nat) (b : Byte) :
    Memory.wf (Memory.write m a b) = true := by
  induction m with
  | nil => rfl
  | cons c m ih =>
    obtain ⟨hm, hlt⟩ := Memory.wf_head_lt h
    simp only [Memory.write]
    split_ifs with h1 h2
    · exact Memory.wf_cons h fun d hd => by
        rcases List.mem_cons.1 hd with rfl | hd
        · exact h1
        · exact h1.trans (hlt d hd)
    · exact Memory.wf_cons hm fun d hd => by simpa [h2] using hlt d hd
    · exact Memory.wf_cons (ih hm) fun d hd => by
        rcases Memory.mem_write hd with rfl | hd
        · show c.1 < a
          omega
        · exact hlt d hd

/-- An address below every listed one has no value. -/
theorem Memory.read_below {m : Memory} {a : Nat} (h : ∀ d ∈ m, a < d.1) : Memory.read m a = none := by
  cases m with
  | nil => rfl
  | cons c m =>
    have := h c (by simp)
    simp [Memory.read, this, Nat.ne_of_gt this]

/-- A read after a write to the same address gives the byte written. -/
@[simp] theorem Memory.read_write_same (m : Memory) (a : Nat) (b : Byte) :
    Memory.read (Memory.write m a b) a = some b := by
  induction m with
  | nil => simp [Memory.write, Memory.read]
  | cons c m ih =>
    simp only [Memory.write]
    split_ifs with h1 h2
    · simp [Memory.read]
    · simp [Memory.read]
    · have : ¬ c.1 = a := fun e => h2 e.symm
      simp [Memory.read, this, h1, ih]

/-- A write leaves every other address alone. -/
theorem Memory.read_write_other {m : Memory} (h : Memory.wf m = true) {a a' : Nat} (b : Byte) (hne : a' ≠ a) :
    Memory.read (Memory.write m a b) a' = Memory.read m a' := by
  induction m with
  | nil =>
    have : ¬ a = a' := fun e => hne e.symm
    simp [Memory.write, Memory.read, this]
  | cons c m ih =>
    obtain ⟨hm, hlt⟩ := Memory.wf_head_lt h
    have hne' : ¬ a = a' := fun e => hne e.symm
    simp only [Memory.write]
    split_ifs with h1 h2
    · simp only [Memory.read, hne', if_false]
      split_ifs with h3 h4 h5 <;> first | rfl | omega
    · subst h2
      simp only [Memory.read, hne', if_false]
    · simp only [Memory.read, ih hm]

/-- Two pixels of the panel's coordinate space share no byte. -/
theorem gramAddr_ne {x y x' y' : Nat} (hx : x < 65536) (hx' : x' < 65536) (h : ¬ (x = x' ∧ y = y')) :
    gramAddr x y ≠ gramAddr x' y' ∧ gramAddr x y + 1 ≠ gramAddr x' y' ∧ gramAddr x y ≠ gramAddr x' y' + 1 := by
  unfold gramAddr
  refine ⟨fun e => h ?_, ?_, ?_⟩ <;> omega

/-- A pixel write keeps the canonical form. -/
theorem gramWrite_wf {m : Memory} (h : Memory.wf m = true) (x y : Nat) (v : Half) :
    Memory.wf (gramWrite m x y v) = true :=
  Memory.write_wf (Memory.write_wf h _ _) _ _

/-- The two bytes of a 16-bit value make it up again. -/
@[simp] theorem unbe16_hi8_lo8 (v : Half) : unbe16 (hi8 v) (lo8 v) = v := by
  simp only [unbe16, hi8, lo8]
  apply BitVec.eq_of_getLsbD_eq
  intro i hi
  rw [BitVec.getLsbD_append]
  by_cases h : i < 8
  · simp [h]
  · have h1 : i - 8 < 8 := by omega
    have h2 : 8 + (i - 8) = i := by omega
    simp [h, h1, h2]

/-- A pixel read after a write to it gives the value written. -/
theorem gramRead_gramWrite_same {m : Memory} (h : Memory.wf m = true) (x y : Nat) (v : Half) :
    gramRead (gramWrite m x y v) x y = some v := by
  have h1 : Memory.read (gramWrite m x y v) (gramAddr x y) = some (hi8 v) := by
    rw [gramWrite, Memory.read_write_other (Memory.write_wf h _ _) _ (by omega), Memory.read_write_same]
  have h2 : Memory.read (gramWrite m x y v) (gramAddr x y + 1) = some (lo8 v) := by simp [gramWrite]
  simp [gramRead, h1, h2]

/-- A pixel write leaves every other pixel alone. -/
theorem gramRead_gramWrite_other {m : Memory} (h : Memory.wf m = true) {x y x' y' : Nat} (v : Half)
    (hx : x < 65536) (hx' : x' < 65536) (hne : ¬ (x' = x ∧ y' = y)) :
    gramRead (gramWrite m x y v) x' y' = gramRead m x' y' := by
  obtain ⟨e1, e2, e3⟩ := gramAddr_ne hx' hx hne
  have w := Memory.write_wf h (gramAddr x y) (hi8 v)
  simp only [gramRead, gramWrite]
  rw [Memory.read_write_other w _ (by omega), Memory.read_write_other h _ (by omega),
    Memory.read_write_other w _ (by omega), Memory.read_write_other h _ (by omega)]

/-- Nothing is listed before the first write: the canonical form holds. -/
theorem Memory.wf_nil : Memory.wf [] = true := rfl

end Sys2Proof.Machine
end

