-- ==== Sys2Proof/Laws/Decode.lean ====
section
/-! SUPPORT. The laws of the field and layout decoders (spec/30_encoding.md R115 to R121): a field decodes back to the
value it encodes and encodes back to its bytes, and what each layout decodes is a well-formed operation whose encoding is
the descriptor. -/

namespace Sys2Proof

theorem unbe16_toNat (a b : Byte) : (unbe16 a b).toNat = a.toNat * 256 + b.toNat := by
  have := a.isLt
  have := b.isLt
  simp only [unbe16, BitVec.toNat_append]
  rw [← Nat.shiftLeft_add_eq_or_of_lt (by omega), Nat.shiftLeft_eq]

@[simp] theorem hi8_unbe16 (a b : Byte) : hi8 (unbe16 a b) = a := by
  apply BitVec.eq_of_getLsbD_eq
  intro i hi
  rw [hi8, unbe16, BitVec.getLsbD_extractLsb', BitVec.getLsbD_append]
  simp [hi]

@[simp] theorem lo8_unbe16 (a b : Byte) : lo8 (unbe16 a b) = b := by
  apply BitVec.eq_of_getLsbD_eq
  intro i hi
  rw [lo8, unbe16, BitVec.getLsbD_extractLsb', BitVec.getLsbD_append]
  simp [hi]

@[simp] theorem be16_unbe16 (a b : Byte) : be16 (unbe16 a b) = [a, b] := by simp [be16]

/-- The two bytes of an s16 value in range decode back to it (R118). -/
theorem s16_s16Bytes {v : Int} (h : s16InRange v = true) :
    s16 (hi8 (BitVec.ofInt 16 v)) (lo8 (BitVec.ofInt 16 v)) = v := by
  simp only [s16InRange, Bool.and_eq_true, decide_eq_true_eq] at h
  simp only [s16, Machine.unbe16_hi8_lo8, BitVec.toNat_ofInt]
  split_ifs <;> omega

/-- The bytes of the s16 value of two bytes are those two bytes. -/
@[simp] theorem s16Bytes_s16 (a b : Byte) : s16Bytes (s16 a b) = [a, b] := by
  have := unbe16_toNat a b
  have := (unbe16 a b).isLt
  rw [s16Bytes, ← be16_unbe16 a b]
  congr 1
  apply BitVec.eq_of_toNat_eq
  simp only [s16, BitVec.toNat_ofInt]
  split_ifs <;> omega

/-- Every pair of bytes is an s16 value in range. -/
@[simp] theorem s16InRange_s16 (a b : Byte) : s16InRange (s16 a b) = true := by
  have := (unbe16 a b).isLt
  rw [s16InRange, Bool.and_eq_true, decide_eq_true_eq, decide_eq_true_eq]
  simp only [s16]
  split_ifs <;> omega

/-- The length byte of a variable part that fits it (R121). -/
theorem ofNat_length {bs : List Byte} (h : lengthInRange bs = true) : (BitVec.ofNat 8 bs.length).toNat = bs.length := by
  simp only [lengthInRange, decide_eq_true_eq] at h
  rw [BitVec.toNat_ofNat]
  omega

theorem exactly_ok {n : Byte} {bs : List Byte} {i j : Instr} (h : exactly n bs i = .ok j) :
    j = i ∧ bs.length = n.toNat ∧ BitVec.ofNat 8 bs.length = n ∧ lengthInRange bs = true := by
  unfold exactly at h
  split_ifs at h with e
  cases h
  have := n.isLt
  exact ⟨rfl, e, by rw [e]; simp, by simp only [lengthInRange, decide_eq_true_eq]; omega⟩

theorem exactly_length {n : Byte} {bs : List Byte} (i : Instr) (h : bs.length = n.toNat) :
    exactly n bs i = .ok i := by
  simp [exactly, h]

theorem decodeNullary_ok {i j : Instr} {rest : List Byte} (h : decodeNullary i rest = .ok j) : j = i ∧ rest = [] := by
  cases rest with
  | nil => cases h; exact ⟨rfl, rfl⟩
  | cons b bs => cases h

/-- What a decoded operation is: one of a host, with an encoding, and the bytes are that encoding. -/
def decodesTo (c : Config) (bs : List Byte) (i : Instr) : Prop :=
  i.isHost = true ∧ i.wellFormed = true ∧ encode c i = bs

theorem decodeWrcmd_ok (c : Config) {rest : List Byte} {i : Instr} (h : decodeWrcmd rest = .ok i) :
    decodesTo c (0x03 :: rest) i := by
  rcases rest with _ | ⟨op, _ | ⟨n, payload⟩⟩
  · cases h
  · cases h
  · obtain ⟨rfl, -, e1, e2⟩ := exactly_ok h
    simp [decodesTo, Instr.isHost, Instr.wellFormed, encode, e1, e2]

theorem decodeSetwin_ok (c : Config) {rest : List Byte} {i : Instr} (h : decodeSetwin rest = .ok i) :
    decodesTo c (0x04 :: rest) i := by
  unfold decodeSetwin at h
  split at h
  · cases h
    simp [decodesTo, Instr.isHost, Instr.wellFormed, encode]
  · cases h

theorem decodeFillrect_ok (c : Config) {rest : List Byte} {i : Instr} (h : decodeFillrect rest = .ok i) :
    decodesTo c (0x05 :: rest) i := by
  unfold decodeFillrect at h
  split at h
  · cases h
    simp [decodesTo, Instr.isHost, Instr.wellFormed, encode]
  · cases h

theorem decodeGlyph_ok (c : Config) {rest : List Byte} {i : Instr} (h : decodeGlyph rest = .ok i) :
    decodesTo c (0x06 :: rest) i := by
  unfold decodeGlyph at h
  split at h
  · cases h
    simp [decodesTo, Instr.isHost, Instr.wellFormed, encode]
  · cases h

theorem decodeText_ok (c : Config) {rest : List Byte} {i : Instr} (h : decodeText rest = .ok i) :
    decodesTo c (0x07 :: rest) i := by
  unfold decodeText at h
  split at h
  · obtain ⟨rfl, -, e1, e2⟩ := exactly_ok h
    simp [decodesTo, Instr.isHost, Instr.wellFormed, encode, e1, e2]
  · cases h

theorem decodeTextd_ok (c : Config) {rest : List Byte} {i : Instr} (h : decodeTextd rest = .ok i) :
    decodesTo c (0x08 :: rest) i := by
  unfold decodeTextd at h
  split at h
  · obtain ⟨rfl, -, e1, e2⟩ := exactly_ok h
    simp [decodesTo, Instr.isHost, Instr.wellFormed, encode, e1, e2]
  · cases h

theorem decodeCpack_ok (c : Config) {rest : List Byte} {i : Instr} (h : decodeCpack rest = .ok i) :
    decodesTo c (0x09 :: rest) i := by
  unfold decodeCpack at h
  split at h
  · cases h
    simp [decodesTo, Instr.isHost, Instr.wellFormed, encode]
  · cases h

theorem decodeNorm_ok (c : Config) {rest : List Byte} {i : Instr} (h : decodeNorm rest = .ok i) :
    decodesTo c (0x12 :: rest) i := by
  unfold decodeNorm at h
  split at h
  · cases h
    simp [decodesTo, Instr.isHost, Instr.wellFormed, encode]
  · cases h

/-- A decoded descriptor has one of the twelve host opcodes, and its layout decoded what follows (R116). -/
theorem decode_cases {hop : Byte} {rest : List Byte} {i : Instr} (h : decode (hop :: rest) = .ok i) :
    (hop = 0x01 ∧ decodeNullary .dReset rest = .ok i) ∨ (hop = 0x02 ∧ decodeNullary .dInit rest = .ok i)
      ∨ (hop = 0x03 ∧ decodeWrcmd rest = .ok i) ∨ (hop = 0x04 ∧ decodeSetwin rest = .ok i)
      ∨ (hop = 0x05 ∧ decodeFillrect rest = .ok i) ∨ (hop = 0x06 ∧ decodeGlyph rest = .ok i)
      ∨ (hop = 0x07 ∧ decodeText rest = .ok i) ∨ (hop = 0x08 ∧ decodeTextd rest = .ok i)
      ∨ (hop = 0x09 ∧ decodeCpack rest = .ok i) ∨ (hop = 0x10 ∧ decodeNullary .tSample rest = .ok i)
      ∨ (hop = 0x11 ∧ decodeNullary .tGettouch rest = .ok i) ∨ (hop = 0x12 ∧ decodeNorm rest = .ok i) := by
  have step : ∀ {p q : Prop} [Decidable p] {a b : Except DecodeError Instr},
      (if p then a else b) = .ok i → (b = .ok i → q) → (p ∧ a = .ok i) ∨ q := by
    intro p q _ a b h hq
    by_cases hp : p
    · rw [if_pos hp] at h; exact .inl ⟨hp, h⟩
    · rw [if_neg hp] at h; exact .inr (hq h)
  unfold decode at h
  refine step h fun h => step h fun h => step h fun h => step h fun h => step h fun h => step h fun h =>
    step h fun h => step h fun h => step h fun h => step h fun h => step h fun h => ?_
  by_cases hp : hop = 0x12
  · rw [if_pos hp] at h; exact ⟨hp, h⟩
  · rw [if_neg hp] at h; cases h

end Sys2Proof
end

