-- ==== Sys2Proof/Laws/Exec.lean ====
section
/-! SUPPORT. Every instruction at once: each host operation is the envelope around its body, each wire command is its
primitives by themselves; what each primitive keeps, every instruction keeps, however it comes out. -/

namespace Sys2Proof.Machine

/-- The body of a host operation (R141 to R143, R161, R162, R164, R182 to R184, R203, R204, R207). -/
def hostBody : Instr → State → Run Result
  | .dReset, t => runReturning (resetActs t.cfg) .none t
  | .dInit, t => initBody t
  | .dWrcmd op payload, t =>
    runReturning (cmdXact op payload) .none { t with panel := t.panel.noteCommand t.cfg op }
  | .dSetwin x0 y0 x1 y1, t =>
    if setwinBad x0 y0 x1 y1 then raiseOperandRange t
    else runReturning (setWindow t.cfg ⟨x0, y0, x1, y1⟩) .none t
  | .dFillrect x y w h color, t => runReturning (fillActs t.cfg x y w h color) .none t
  | .dGlyph ch x y fg bg, t =>
    if glyphBad x y then raiseOperandRange t else runReturning (drawGlyph t.cfg ch x y fg bg) .none t
  | .dText x y fg bg text, t => textBody x y fg bg text t
  | .dTextd x y fg text, t => textBody x y fg t.cfg.bgDefault text t
  | .dCpack r g b, t => .done (.colour (colorPack r g b)) t
  | .tSample, t => (sample t).andThen fun p u => .done (sampleResult p) u
  | .tGettouch, t => touchBody t
  | .tNorm rawX rawY, t => .done (pointResult (normalize t.cfg rawX rawY)) t
  | .wireCaset _ _, t => .done .none t
  | .wireRaset _ _, t => .done .none t
  | .wireRamwr, t => .done .none t
  | .wireSlpout, t => .done .none t
  | .wireDispon, t => .done .none t
  | .wireConvX, t => .done .none t
  | .wireConvY, t => .done .none t

/-- The primitives of a wire command (R101, R113). -/
def frameActs (c : Config) : Instr → List Act
  | .wireCaset x0 x1 => cmdXact c.opCaset (be16 x0 ++ be16 x1)
  | .wireRaset y0 y1 => cmdXact c.opRaset (be16 y0 ++ be16 y1)
  | .wireRamwr => cmdXact c.opRamwr []
  | .wireSlpout => cmdXact c.opSlpout []
  | .wireDispon => cmdXact c.opDispon []
  | .wireConvX => convert c.opConvX
  | .wireConvY => convert c.opConvY
  | .dReset => []
  | .dInit => []
  | .dWrcmd _ _ => []
  | .dSetwin _ _ _ _ => []
  | .dFillrect _ _ _ _ _ => []
  | .dGlyph _ _ _ _ _ => []
  | .dText _ _ _ _ _ => []
  | .dTextd _ _ _ _ => []
  | .dCpack _ _ _ => []
  | .tSample => []
  | .tGettouch => []
  | .tNorm _ _ => []

/-- A host operation is the envelope around its body (R140). -/
theorem exec_host {i : Instr} (h : i.isHost = true) (s : State) : exec i s = operation (hostBody i) s := by
  cases i with
  | wireCaset x0 x1 => cases h
  | wireRaset y0 y1 => cases h
  | wireRamwr => cases h
  | wireSlpout => cases h
  | wireDispon => cases h
  | wireConvX => cases h
  | wireConvY => cases h
  | _ => rfl

/-- A wire command is its primitives by themselves (log 12). -/
theorem exec_frame {i : Instr} (h : i.isHost = false) (s : State) : exec i s = frameAlone (frameActs s.cfg i) s := by
  cases i with
  | wireCaset x0 x1 => rfl
  | wireRaset y0 y1 => rfl
  | wireRamwr => rfl
  | wireSlpout => rfl
  | wireDispon => rfl
  | wireConvX => rfl
  | wireConvY => rfl
  | _ => cases h

/-- While BUSY = 1 no instruction has a move (R28, D2). -/
theorem exec_busy (i : Instr) {s : State} (hb : s.busy = true) : exec i s = .fault .busy := by
  cases h : i.isHost with
  | true => rw [exec_host h, operation_busy hb]
  | false => rw [exec_frame h, frameAlone_busy hb]

/-- Every primitive of a wire command of the panel is the display unit's. -/
theorem frameActs_display {i : Instr} (h : i.target = .panel) (c : Config) : allDisplay (frameActs c i) := by
  cases i with
  | wireCaset x0 x1 => exact cmdXact_display _ _
  | wireRaset y0 y1 => exact cmdXact_display _ _
  | wireRamwr => exact cmdXact_display _ _
  | wireSlpout => exact cmdXact_display _ _
  | wireDispon => exact cmdXact_display _ _
  | wireConvX => cases h
  | wireConvY => cases h
  | _ => exact allDisplay_nil

/-- A primitive of the touch unit: its line, a read-back, a sleep, or its sample registers (R24, R29). -/
def Act.touch : Act → Bool
  | .line (.csT _) => true
  | .line (.csD _) => false
  | .line (.dc _) => false
  | .line (.rst _) => false
  | .xfer _ => true
  | .sleep _ => true
  | .write _ => false
  | .work (.s1 _) => true
  | .work (.s2 _) => true
  | .work (.s3 _) => true
  | .work (.window _ _ _ _) => false
  | .work (.tidx _) => false
  | .work (.pcnt _) => false
  | .work (.cbuf _) => false
  | .work (.gbuf _) => false

theorem convert_touch (op : Byte) : ∀ a ∈ convert op, a.touch = true := by
  intro a h
  simp only [convert, List.mem_cons, List.not_mem_nil, or_false] at h
  rcases h with rfl | rfl | rfl <;> rfl

theorem sampleActs_touch (c : Config) : ∀ a ∈ sampleActs c, a.touch = true := by
  intro a h
  rcases List.mem_append.1 h with h | h
  · exact convert_touch _ a h
  · exact convert_touch _ a h

/-- The body of a touch operation keeps what its unit's primitives keep. -/
theorem hostBody_all_touch {P : State → Prop} {i : Instr} (ht : i.target = .digitizer)
    (h : ∀ a : Act, a.touch = true → ∀ s, P s → (runAct a s).All P) {s : State} (hs : P s) :
    (hostBody i s).All P := by
  have samp : ∀ {s}, P s → (sample s).All P := fun {s} hs =>
    Run.All.andThen (runActs_all (fun a ha => h a (sampleActs_touch _ a ha)) hs) (fun _ h => h) fun _ _ h => h
  have settled : ∀ {s}, P s → (settledSample s).All P := fun {s} hs =>
    Run.All.andThen (runActs_all (acts := [.sleep tSettle])
      (fun a ha => h a (by rw [List.mem_singleton.1 ha]; rfl)) hs) (fun _ h => h) fun _ _ h => samp h
  cases i with
  | tSample => exact Run.All.andThen (samp hs) (fun _ h => h) fun _ _ h => h
  | tGettouch =>
    refine Run.All.andThen (samp hs) (fun _ h => h) fun p1 t ht => ?_
    have h1 : P (latch (.s1 (sample13 p1)) t) := h (.work (.s1 (sample13 p1))) rfl t ht
    show Run.All P (if p1 = (0, 0) then _ else _)
    split_ifs
    · exact h1
    · refine Run.All.andThen (settled h1) (fun _ h => h) fun p2 u hu => ?_
      have h2 : P (latch (.s2 (sample13 p2)) u) := h (.work (.s2 (sample13 p2))) rfl u hu
      exact Run.All.andThen (settled h2) (fun _ h => h) fun p3 v hv => h (.work (.s3 (sample13 p3))) rfl v hv
  | tNorm rawX rawY => exact hs
  | wireConvX => exact hs
  | wireConvY => exact hs
  | _ => cases ht

/-- The body of a display operation other than D.RESET keeps what its unit's primitives and the ghost flags of the
panel keep. -/
theorem hostBody_all_display {P : State → Prop} {i : Instr} (ht : i.target = .panel) (hr : i ≠ .dReset)
    (h : ∀ a : Act, a.display = true → ∀ s, P s → (runAct a s).All P)
    (hready : ∀ s, P s → P { s with panel := s.panel.markReady })
    (hinit : ∀ s, P s → P { s with panel := s.panel.beginInit })
    (hnote : ∀ op s, P s → P { s with panel := s.panel.noteCommand s.cfg op }) {s : State} (hs : P s) :
    (hostBody i s).All P := by
  have run : ∀ {acts : List Act} {v : Result} {s}, allDisplay acts → P s → (runReturning acts v s).All P :=
    fun {acts v s} hd hs => Run.All.andThen (runActs_all (fun a ha => h a (hd a ha)) hs) (fun _ h => h) fun _ _ h => h
  have text : ∀ {x y : Int} {fg bg : Half} {text : List Byte} {s}, P s → (textBody x y fg bg text s).All P := by
    intro x y fg bg text s hs
    unfold textBody
    split_ifs
    · exact hs
    · exact run (textLoop_display _ _ _ _ _ _ _) hs
  cases i with
  | dReset => exact absurd rfl hr
  | dInit =>
    exact Run.All.andThen (runActs_all (fun a ha => h a (initActs_display _ a ha)) (hinit s hs)) (fun _ h => h)
      fun _ u hu => hready u hu
  | dWrcmd op payload => exact run (cmdXact_display _ _) (hnote op s hs)
  | dSetwin x0 y0 x1 y1 =>
    show Run.All P (if _ then _ else _)
    split_ifs
    · exact hs
    · exact run (setWindow_display _ _) hs
  | dFillrect x y w h color => exact run (fillActs_display _ _ _ _ _ _) hs
  | dGlyph ch x y fg bg =>
    show Run.All P (if _ then _ else _)
    split_ifs
    · exact hs
    · exact run (drawGlyph_display _ _ _ _ _ _) hs
  | dText x y fg bg t => exact text hs
  | dTextd x y fg t => exact text hs
  | dCpack r g b => exact hs
  | wireCaset x0 x1 => exact hs
  | wireRaset y0 y1 => exact hs
  | wireRamwr => exact hs
  | wireSlpout => exact hs
  | wireDispon => exact hs
  | tSample => cases ht
  | tGettouch => cases ht
  | tNorm rawX rawY => cases ht
  | wireConvX => cases ht
  | wireConvY => cases ht

/-- What a property of the body's states says of the next state: the instruction ended there, and the envelope (or, for a
frame by itself, only BUSY's fall) follows; or it stalled there. -/
theorem exec_next_of_all {P : State → Prop} {i : Instr} {s t : State}
    (hbody : (hostBody i { s with busy := true }).All P)
    (hacts : (runActs (frameActs s.cfg i) { s with busy := true }).All P) (h : exec i s = .next t) :
    (∃ st v u, P u ∧ t = endOp st v u) ∨ (i.isHost = false ∧ ∃ u, P u ∧ t = { u with busy := false }) ∨ P t := by
  cases hi : i.isHost with
  | true =>
    rw [exec_host hi] at h
    obtain ⟨-, ⟨v, u, hu, rfl⟩ | ⟨st, u, hu, rfl⟩ | hu⟩ := operation_next h
    · rw [hu] at hbody; exact .inl ⟨_, _, u, hbody, rfl⟩
    · rw [hu] at hbody; exact .inl ⟨_, _, u, hbody, rfl⟩
    · rw [hu] at hbody; exact .inr (.inr hbody)
  | false =>
    rw [exec_frame hi] at h
    obtain ⟨-, ⟨r, u, hu, rfl⟩ | ⟨st, u, hu, rfl⟩ | hu⟩ := frameAlone_next h
    · rw [hu] at hacts; exact .inr (.inl ⟨rfl, u, hacts, rfl⟩)
    · rw [hu] at hacts; exact .inl ⟨_, _, u, hacts, rfl⟩
    · rw [hu] at hacts; exact .inr (.inr hacts)

end Sys2Proof.Machine
end

