-- ==== Sys2Proof/Laws/Kept.lean ====
section
/-! SUPPORT. What every instruction keeps, however it comes out, up to the registers that end(s) writes (spec/10_state.md
R21, R22, R34, spec/40_display_framing.md R140). -/

namespace Sys2Proof.Machine

/-- What no primitive touches: the configuration, the registers of the envelope, BUSY and the host's side; and the trace
only grows. -/
def kept (s u : State) : Prop :=
  u.cfg = s.cfg ∧ u.status = s.status ∧ u.fault = s.fault ∧ u.refused = s.refused ∧ sameResults s u ∧ sameHost s u
    ∧ u.busy = s.busy ∧ ∃ es : List Event, u.trace = s.trace ++ es

theorem kept_refl (s : State) : kept s s := by simp [kept, sameResults, sameHost]

/-- Every primitive keeps it. -/
theorem runAct_kept (a : Act) {s t : State} (h : kept s t) : (runAct a t).All (kept s) := by
  obtain ⟨h1, h2, h3, h4, ⟨a1, a2, a3, a4⟩, ⟨b1, b2, b3, b4⟩, h5, es, h6⟩ := h
  cases a with
  | line d =>
    cases d <;> simp [runAct, Run.All, kept, sameResults, sameHost, driveLine, setLine, emit, *]
  | sleep n => simp [runAct, Run.All, kept, sameResults, sameHost, emit, *]
  | work w => simp [runAct, Run.All, kept, sameResults, sameHost, *]
  | write bs =>
    unfold runAct busWrite
    split_ifs
    · trivial
    · cases nextAnswer t <;> simp [Run.All, kept, sameResults, sameHost, emit, usedAnswer, deliver, *]
  | xfer bs =>
    unfold runAct busXfer
    split_ifs
    · trivial
    · cases nextAnswer t <;> simp [Run.All, kept, sameResults, sameHost, emit, usedAnswer, *]

/-- The body of every host operation keeps it. -/
theorem hostBody_kept (i : Instr) {s t : State} (h : kept s t) : (hostBody i t).All (kept s) := by
  by_cases hr : i = .dReset
  · subst hr
    exact Run.All.andThen (runActs_all (fun a _ => fun _ => runAct_kept a) h) (fun _ h => h) fun _ _ h => h
  · cases ht : i.target with
    | panel =>
      exact hostBody_all_display ht hr (fun a _ => fun _ => runAct_kept a)
        (fun u hu => by simpa [kept, sameResults, sameHost] using hu)
        (fun u hu => by simpa [kept, sameResults, sameHost] using hu)
        (fun op u hu => by simpa [kept, sameResults, sameHost] using hu) h
    | digitizer => exact hostBody_all_touch ht (fun a _ => fun _ => runAct_kept a) h

/-- A next state is what `end(s)` makes of a state that keeps it, or a frame's end, or a stalled state. -/
theorem exec_next_kept {i : Instr} {s t : State} (h : exec i s = .next t) :
    (∃ st v u, kept { s with busy := true } u ∧ t = endOp st v u)
      ∨ (i.isHost = false ∧ ∃ u, kept { s with busy := true } u ∧ t = { u with busy := false })
      ∨ kept { s with busy := true } t :=
  exec_next_of_all (hostBody_kept i (kept_refl _)) (runActs_all (fun a _ => fun _ => runAct_kept a) (kept_refl _)) h

end Sys2Proof.Machine
end

