-- ==== Sys2Proof/Laws/Panel.lean ====
section
/-! SUPPORT. The panel's end: what setting a window leaves, and what a stream of pixels leaves in the frame memory
(spec/20_memory.md R69 to R75). -/

namespace Sys2Proof.Machine

/-! ### The ghost flags of the panel -/

@[simp] theorem Panel.beginInit_cmd (p : Panel) : p.beginInit.cmd = p.cmd := rfl
@[simp] theorem Panel.beginInit_args (p : Panel) : p.beginInit.args = p.args := rfl
@[simp] theorem Panel.beginInit_xs (p : Panel) : p.beginInit.xs = p.xs := rfl
@[simp] theorem Panel.beginInit_xe (p : Panel) : p.beginInit.xe = p.xe := rfl
@[simp] theorem Panel.beginInit_ys (p : Panel) : p.beginInit.ys = p.ys := rfl
@[simp] theorem Panel.beginInit_ye (p : Panel) : p.beginInit.ye = p.ye := rfl
@[simp] theorem Panel.beginInit_colsSet (p : Panel) : p.beginInit.colsSet = p.colsSet := rfl
@[simp] theorem Panel.beginInit_rowsSet (p : Panel) : p.beginInit.rowsSet = p.rowsSet := rfl
@[simp] theorem Panel.beginInit_streaming (p : Panel) : p.beginInit.streaming = p.streaming := rfl
@[simp] theorem Panel.beginInit_px (p : Panel) : p.beginInit.px = p.px := rfl
@[simp] theorem Panel.beginInit_py (p : Panel) : p.beginInit.py = p.py := rfl
@[simp] theorem Panel.beginInit_done (p : Panel) : p.beginInit.done = p.done := rfl
@[simp] theorem Panel.beginInit_half (p : Panel) : p.beginInit.half = p.half := rfl
@[simp] theorem Panel.beginInit_gram (p : Panel) : p.beginInit.gram = p.gram := rfl
@[simp] theorem Panel.beginInit_awake (p : Panel) : p.beginInit.awake = p.awake := rfl
@[simp] theorem Panel.beginInit_on (p : Panel) : p.beginInit.on = p.on := rfl
@[simp] theorem Panel.beginInit_ready (p : Panel) : p.beginInit.ready = p.ready := rfl
@[simp] theorem Panel.beginInit_refused (p : Panel) : p.beginInit.refused = p.refused := rfl
@[simp] theorem Panel.beginInit_fresh (p : Panel) : p.beginInit.fresh = false := rfl
@[simp] theorem Panel.beginInit_initTableOK (p : Panel) : p.beginInit.initTableOK = (p.initTableOK && p.fresh) := rfl

/-- All that D.INIT's end does to the panel (R70, R74). -/
theorem Panel.markReady_eq (p : Panel) : p.markReady = { p with ready := p.ready || p.refused.isNone } := by
  cases p with
  | mk cmd args xs xe ys ye colsSet rowsSet streaming px py done half gram awake on ready fresh initTableOK refused =>
    cases refused <;> simp [Panel.markReady]

/-- All that an opcode of D.WRCMD does to the panel before it is sent (U21). -/
theorem Panel.noteCommand_eq (c : Config) (p : Panel) (op : Byte) :
    p.noteCommand c op = { p with initTableOK := p.initTableOK && Config.namesPanelOp c op } := by
  unfold Panel.noteCommand
  split_ifs with h <;> simp [h]

/-! ### Receiving -/

/-- A stopped panel model takes no byte (R74). -/
@[simp] theorem Panel.receive_stopped {p : Panel} (h : p.refused.isSome = true) (c : Config) (dc : DcLevel) (b : Byte) :
    p.receive c dc b = p := by
  simp [Panel.receive, h]

@[simp] theorem Panel.receiveAll_stopped {p : Panel} (h : p.refused.isSome = true) (c : Config) (dc : DcLevel)
    (bs : List Byte) : p.receiveAll c dc bs = p := by
  induction bs with
  | nil => rfl
  | cons b bs ih => rw [Panel.receiveAll, List.foldl_cons, Panel.receive_stopped h]; exact ih

@[simp] theorem Panel.receiveAll_nil (p : Panel) (c : Config) (dc : DcLevel) : p.receiveAll c dc [] = p := rfl

theorem Panel.receiveAll_cons (p : Panel) (c : Config) (dc : DcLevel) (b : Byte) (bs : List Byte) :
    p.receiveAll c dc (b :: bs) = (p.receive c dc b).receiveAll c dc bs := rfl

theorem Panel.receiveAll_append (p : Panel) (c : Config) (dc : DcLevel) (as bs : List Byte) :
    p.receiveAll c dc (as ++ bs) = (p.receiveAll c dc as).receiveAll c dc bs := by
  simp [Panel.receiveAll]

/-- What a byte leaves when the panel model is live after it: it was live before, the ghost flags of readiness and of the
premise InitTableOK are as they were, and neither awake nor on falls (R70 to R73). -/
theorem Panel.receive_live {c : Config} {dc : DcLevel} {p : Panel} {b : Byte} (h : (p.receive c dc b).refused = none) :
    p.refused = none ∧ (p.receive c dc b).ready = p.ready ∧ (p.receive c dc b).initTableOK = p.initTableOK
      ∧ (p.awake = true → (p.receive c dc b).awake = true) ∧ (p.on = true → (p.receive c dc b).on = true) := by
  revert h
  unfold Panel.receive
  split_ifs with hr
  · exact fun h => by simp [h] at hr
  have hr' : p.refused = none := by simpa using hr
  cases dc with
  | command =>
    simp only [Panel.command]
    split_ifs <;> simp_all [Panel.refuse]
  | data =>
    simp only [Panel.data]
    cases p.cmd with
    | none => simp [Panel.refuse]
    | some op =>
      simp only
      split_ifs
      · unfold Panel.colByte; split <;> [skip; split_ifs] <;> simp_all [Panel.refuse]
      · unfold Panel.rowByte; split <;> [skip; split_ifs] <;> simp_all [Panel.refuse]
      · unfold Panel.streamByte
        split
        · simp_all
        · unfold Panel.pixelArrives Panel.advance
          split_ifs <;> simp_all [Panel.refuse]
      · simp_all

/-- The same of a list of bytes. -/
theorem Panel.receiveAll_live {c : Config} {dc : DcLevel} {p : Panel} {bs : List Byte}
    (h : (p.receiveAll c dc bs).refused = none) :
    p.refused = none ∧ (p.receiveAll c dc bs).ready = p.ready ∧ (p.receiveAll c dc bs).initTableOK = p.initTableOK
      ∧ (p.awake = true → (p.receiveAll c dc bs).awake = true) ∧ (p.on = true → (p.receiveAll c dc bs).on = true) := by
  induction bs generalizing p with
  | nil => exact ⟨h, rfl, rfl, id, id⟩
  | cons b bs ih =>
    obtain ⟨h1, h2, h3, h4, h5⟩ := ih h
    obtain ⟨g1, g2, g3, g4, g5⟩ := Panel.receive_live h1
    exact ⟨g1, h2.trans g2, h3.trans g3, fun a => h4 (g4 a), fun a => h5 (g5 a)⟩

/-- The same of a command frame. -/
theorem commandFrame_live {c : Config} {h : Heard} {op : Byte} {pl : List Byte}
    (hl : (h.events c (commandFrame op pl)).panel.refused = none) :
    h.panel.refused = none ∧ (h.events c (commandFrame op pl)).panel.ready = h.panel.ready
      ∧ (h.events c (commandFrame op pl)).panel.initTableOK = h.panel.initTableOK
      ∧ (h.panel.awake = true → (h.events c (commandFrame op pl)).panel.awake = true)
      ∧ (h.panel.on = true → (h.events c (commandFrame op pl)).panel.on = true) := by
  rw [commandFrame_panel] at hl ⊢
  obtain ⟨h1, h2, h3, h4, h5⟩ := Panel.receiveAll_live hl
  obtain ⟨g1, g2, g3, g4, g5⟩ := Panel.receive_live h1
  exact ⟨g1, h2.trans g2, h3.trans g3, fun a => h4 (g4 a), fun a => h5 (g5 a)⟩

/-- A sleep-out or display-on that leaves the panel model live has set its flag (R70). -/
theorem Panel.receive_wakes {c : Config} {p : Panel} {b : Byte} (h : (p.receive c .command b).refused = none) :
    (b = c.opSlpout → (p.receive c .command b).awake = true) ∧ (b = c.opDispon → (p.receive c .command b).on = true) := by
  have hr := (Panel.receive_live h).1
  revert h
  simp only [Panel.receive, hr, Option.isSome_none, Bool.false_eq_true, if_false, Panel.command]
  split_ifs <;> simp +contextual [Panel.refuse]

/-- What the frames of the initialisation table leave when the panel model is live after them. -/
theorem tableFrames_live {c : Config} {h : Heard} {es : List InitEntry}
    (hl : (h.events c (tableFrames es)).panel.refused = none) :
    h.panel.refused = none ∧ (h.events c (tableFrames es)).panel.initTableOK = h.panel.initTableOK := by
  induction es generalizing h with
  | nil => exact ⟨hl, rfl⟩
  | cons e es ih =>
    simp only [tableFrames, Heard.events_append] at hl ⊢
    obtain ⟨h1, h2⟩ := ih hl
    obtain ⟨g1, -, g3, -, -⟩ := commandFrame_live h1
    exact ⟨g1, h2.trans g3⟩

/-- What D.INIT's frames leave when the panel model is live after them: awake, on, and the premise InitTableOK as it was
(R70, R73, R142). -/
theorem initFrames_live {c : Config} {h : Heard} (hl : (h.events c (initFrames c)).panel.refused = none) :
    (h.events c (initFrames c)).panel.awake = true ∧ (h.events c (initFrames c)).panel.on = true
      ∧ (h.events c (initFrames c)).panel.initTableOK = h.panel.initTableOK := by
  simp only [initFrames, Heard.events_append] at hl ⊢
  generalize hT : h.events c (tableFrames c.initTable) = h1 at hl ⊢
  generalize hS : h1.events c (commandFrame c.opSlpout []) = h2 at hl ⊢
  have sl : h2.events c [.sleep 120] = h2 := rfl
  rw [sl] at hl ⊢
  obtain ⟨l2, -, i2, a2, -⟩ := commandFrame_live hl
  obtain ⟨l1, -, i1, -, -⟩ := commandFrame_live (hS.symm ▸ l2)
  obtain ⟨-, i0⟩ := tableFrames_live (hT.symm ▸ l1)
  have w1 : h2.panel.awake = true := by
    rw [← hS, commandFrame_panel, Panel.receiveAll_nil] at l2 ⊢
    exact (Panel.receive_wakes l2).1 rfl
  refine ⟨a2 w1, ?_, ?_⟩
  · rw [commandFrame_panel, Panel.receiveAll_nil] at hl ⊢
    exact (Panel.receive_wakes hl).2 rfl
  · rw [i2, ← hS, i1, ← hT, i0]

/-- Data frames give the panel the concatenation of their bytes (R69). -/
theorem dataFrames_panel (c : Config) (h : Heard) (splits : List (List Byte)) :
    (h.events c (splits.flatMap dataFrame)).panel = h.panel.receiveAll c .data splits.flatten := by
  induction splits generalizing h with
  | nil => rfl
  | cons bs splits ih =>
    rw [List.flatMap_cons, Heard.events_append, ih, List.flatten_cons, Panel.receiveAll_append, dataFrame_panel]

/-- A command byte to a live panel with no half pixel pending (R70). -/
theorem Panel.receive_command {p : Panel} (c : Config) (b : Byte) (hr : p.refused = none) (hh : p.half = none)
    (hi : p.ready = true ∨ Config.isWindowOp c b = false) (hw : b = c.opRamwr → p.colsSet = true ∧ p.rowsSet = true) :
    p.receive c .command b =
      { p with
        cmd := some b
        args := []
        half := none
        streaming := decide (b = c.opRamwr)
        px := if b = c.opRamwr then p.xs.toNat else p.px
        py := if b = c.opRamwr then p.ys.toNat else p.py
        done := if b = c.opRamwr then false else p.done
        awake := p.awake || decide (b = c.opSlpout)
        on := p.on || decide (b = c.opDispon)
        fresh := false } := by
  have hw' : ¬ (b = c.opRamwr ∧ ¬ (p.colsSet = true ∧ p.rowsSet = true)) := fun h => h.2 (hw h.1)
  have hi' : ¬ (p.ready = false ∧ Config.isWindowOp c b = true) := by rcases hi with h | h <;> simp [h]
  simp only [Panel.receive, hr, Option.isSome_none, Bool.false_eq_true, if_false, Panel.command, hh, if_neg hw',
    if_neg hi']

/-- The two bytes of a bound and of the other (R71). -/
theorem Panel.receive_columns {p : Panel} (c : Config) (a b : Half) (hr : p.refused = none) (ha : p.args = [])
    (hc : p.cmd = some c.opCaset) :
    p.receiveAll c .data (be16 a ++ be16 b)
      = { p with args := be16 a ++ be16 b, xs := a, xe := b, colsSet := true } := by
  simp [be16, Panel.receiveAll, Panel.receive, Panel.data, Panel.colByte, hr, ha, hc]

theorem Panel.receive_rows {p : Panel} (c : Config) (a b : Half) (hr : p.refused = none) (ha : p.args = [])
    (hc : p.cmd = some c.opRaset) (hne : c.opCaset ≠ c.opRaset) :
    p.receiveAll c .data (be16 a ++ be16 b)
      = { p with args := be16 a ++ be16 b, ys := a, ye := b, rowsSet := true } := by
  simp [be16, Panel.receiveAll, Panel.receive, Panel.data, Panel.rowByte, hr, ha, hc, Ne.symm hne]

/-- The panel has a window set and a stream at its first pixel (R70, R71). -/
structure Panel.windowed (c : Config) (p : Panel) (x0 y0 x1 y1 : Half) : Prop where
  live : p.refused = none
  command : p.cmd = some c.opRamwr
  streams : p.streaming = true
  noHalf : p.half = none
  left : p.xs = x0
  right : p.xe = x1
  top : p.ys = y0
  bottom : p.ye = y1

/-- After the three frames of a window the panel streams into it from its first pixel; the frame memory and the ghost
flags are as before (R69 to R71, R160). -/
theorem windowFrames_panel {c : Config} {h : Heard} (x0 y0 x1 y1 : Half) (hcr : c.opCaset ≠ c.opRaset)
    (hcw : c.opCaset ≠ c.opRamwr) (hrw : c.opRaset ≠ c.opRamwr) (hr : h.panel.refused = none)
    (hh : h.panel.half = none) (hi : h.panel.ready = true) :
    let q := (h.events c (windowFrames c x0 y0 x1 y1)).panel
    q.windowed c x0 y0 x1 y1 ∧ q.px = x0.toNat ∧ q.py = y0.toNat ∧ q.done = false ∧ q.gram = h.panel.gram
      ∧ q.ready = h.panel.ready ∧ q.initTableOK = h.panel.initTableOK := by
  intro q
  have e : q =
      ((((h.panel.receive c .command c.opCaset).receiveAll c .data (be16 x0 ++ be16 x1)).receive c .command
        c.opRaset).receiveAll c .data (be16 y0 ++ be16 y1)).receive c .command c.opRamwr := by
    simp only [q, windowFrames, Heard.events_append, commandFrame_panel, Panel.receiveAll_nil]
  rw [Panel.receive_command c c.opCaset hr hh (.inl hi) (fun e => absurd e hcw),
    Panel.receive_columns c x0 x1 (by simp [hr]) (by simp) (by simp),
    Panel.receive_command c c.opRaset (by simp [hr]) (by simp) (.inl (by simp [hi])) (fun e => absurd e hrw),
    Panel.receive_rows c y0 y1 (by simp [hr]) (by simp) (by simp) hcr,
    Panel.receive_command c c.opRamwr (by simp [hr]) (by simp) (.inl (by simp [hi])) (fun _ => by simp)] at e
  rw [e]
  exact ⟨⟨by simp [hr], by simp, by simp, by simp, by simp, by simp, by simp, by simp⟩, by simp, by simp, by simp,
    by simp, by simp, by simp⟩

/-! ### What a byte can do to the frame memory -/

/-- A stopped panel model has forgotten the frame memory (R74, log 8). -/
@[simp] theorem Panel.refuse_gram (r : PanelRefusal) : (Panel.refuse r).gram = [] := rfl

@[simp] theorem Panel.refuse_stopped (r : PanelRefusal) : (Panel.refuse r).refused.isSome = true := rfl

@[simp] theorem Panel.advance_gram (p : Panel) : p.advance.gram = p.gram := by
  unfold Panel.advance
  split_ifs <;> rfl

/-- A byte leaves the frame memory, or stops the panel model, or writes the pixel that a live stream pointer stands at, on
the panel and in a window on the panel (R72). -/
theorem Panel.receive_gram (c : Config) (dc : DcLevel) (p : Panel) (b : Byte) :
    (p.receive c dc b).gram = p.gram ∨ (∃ r, p.receive c dc b = Panel.refuse r)
      ∨ (dc = .data ∧ (∃ op, p.cmd = some op ∧ op ≠ c.opCaset ∧ op ≠ c.opRaset) ∧ p.streaming = true ∧ p.ready = true
          ∧ p.windowOnPanel c = true ∧ p.px < c.panelW ∧ p.py < c.panelH
          ∧ ∃ v, (p.receive c dc b).gram = gramWrite p.gram p.px p.py v) := by
  unfold Panel.receive
  split_ifs with hr
  · exact .inl rfl
  cases dc with
  | command =>
    simp only [Panel.command]
    split_ifs <;> first | exact .inl rfl | exact .inr (.inl ⟨_, rfl⟩)
  | data =>
    simp only [Panel.data]
    cases hc : p.cmd with
    | none => exact .inr (.inl ⟨_, rfl⟩)
    | some op =>
      have bound : ∀ q : Panel, (q = p.colByte b ∨ q = p.rowByte b) → q.gram = p.gram ∨ ∃ r, q = Panel.refuse r := by
        rintro q (rfl | rfl)
        · unfold Panel.colByte
          split
          · exact .inl rfl
          · split_ifs
            · exact .inr ⟨_, rfl⟩
            · exact .inl rfl
        · unfold Panel.rowByte
          split
          · exact .inl rfl
          · split_ifs
            · exact .inr ⟨_, rfl⟩
            · exact .inl rfl
      simp only
      split_ifs with h1 h2 h3
      · exact (bound _ (.inl rfl)).elim .inl fun h => .inr (.inl h)
      · exact (bound _ (.inr rfl)).elim .inl fun h => .inr (.inl h)
      · unfold Panel.streamByte
        cases hh : p.half with
        | none => exact .inl rfl
        | some a =>
          simp only [Panel.pixelArrives]
          split_ifs with g1 g2 g3 g4
          · exact .inr (.inl ⟨_, rfl⟩)
          · exact .inr (.inl ⟨_, rfl⟩)
          · exact .inr (.inl ⟨_, rfl⟩)
          · exact .inr (.inl ⟨_, rfl⟩)
          · rw [not_or] at g4
            exact .inr (.inr ⟨trivial, ⟨op, rfl, h1, h2⟩, h3, by simpa using g1, by simpa using g2, by omega, by omega,
              unbe16 a b, by rw [Panel.advance_gram]⟩)
      · exact .inl rfl

/-! ### Streaming -/

/-- The frame memory after pixels `k`, `k + 1`, … of a window `w` pixels wide at (x0, y0) (R75). -/
def paint (x0 y0 w : Nat) : Nat → List Half → Memory → Memory
  | _, [], m => m
  | k, v :: vs, m => paint x0 y0 w (k + 1) vs (gramWrite m (x0 + k % w) (y0 + k / w) v)

theorem paint_wf {m : Memory} (h : Memory.wf m = true) (x0 y0 w k : Nat) (vs : List Half) :
    Memory.wf (paint x0 y0 w k vs m) = true := by
  induction vs generalizing k m with
  | nil => exact h
  | cons v vs ih => exact ih (gramWrite_wf h _ _ _) _

/-- Pixel numbers of a window determine its pixels. -/
theorem window_index {w k j : Nat} (h : k % w = j % w) (h' : k / w = j / w) : k = j := by
  rw [← Nat.div_add_mod k w, ← Nat.div_add_mod j w, h, h']

/-- Painting leaves every pixel outside the painted ones. -/
theorem paint_other {m : Memory} (hm : Memory.wf m = true) {x0 y0 w k : Nat} {vs : List Half} {x y : Nat}
    (hx : x < 65536) (hb : x0 + w ≤ 65536) (hw : 0 < w)
    (h : ∀ j : Nat, k ≤ j → j < k + vs.length → ¬ (x = x0 + j % w ∧ y = y0 + j / w)) :
    gramRead (paint x0 y0 w k vs m) x y = gramRead m x y := by
  induction vs generalizing k m with
  | nil => rfl
  | cons v vs ih =>
    have hlt := Nat.mod_lt k hw
    rw [paint, ih (gramWrite_wf hm _ _ _) fun j h1 h2 => h j (by omega) (by simp only [List.length_cons]; omega)]
    exact gramRead_gramWrite_other hm v (by omega) hx (h k (Nat.le_refl k) (by simp))

/-- Painting shows every painted pixel. -/
theorem paint_same {m : Memory} (hm : Memory.wf m = true) {x0 y0 w k : Nat} {vs : List Half} (hb : x0 + w ≤ 65536)
    (hw : 0 < w) {j : Nat} (h1 : k ≤ j) (h2 : j < k + vs.length) :
    gramRead (paint x0 y0 w k vs m) (x0 + j % w) (y0 + j / w) = vs[j - k]? := by
  induction vs generalizing k m with
  | nil => simp at h2; omega
  | cons v vs ih =>
    have hlt := Nat.mod_lt j hw
    rw [paint]
    by_cases hj : j = k
    · subst hj
      rw [paint_other (gramWrite_wf hm _ _ _) (by omega) hb hw fun i h3 _ e => ?_]
      · simp [gramRead_gramWrite_same hm]
      · have := window_index (w := w) (k := j) (j := i) (by omega) (by omega)
        omega
    · rw [ih (gramWrite_wf hm _ _ _) (by omega) (by simp only [List.length_cons] at h2; omega)]
      have : j - k = (j - (k + 1)) + 1 := by omega
      rw [this, List.getElem?_cons_succ]

/-- The stream pointer stands at pixel number `k` of the window, and the window is not yet filled. -/
def Panel.atPixel (c : Config) (p : Panel) (x0 y0 x1 y1 k : Nat) : Prop :=
  p.windowed c (BitVec.ofNat 16 x0) (BitVec.ofNat 16 y0) (BitVec.ofNat 16 x1) (BitVec.ofNat 16 y1)
    ∧ p.ready = true ∧ p.px = x0 + k % (x1 - x0 + 1) ∧ p.py = y0 + k / (x1 - x0 + 1) ∧ p.done = false

/-- One pixel: it is written where the stream pointer stands, and the pointer goes to the next, or the window is filled
(R72). -/
theorem Panel.receive_pixel {c : Config} {p : Panel} {x0 y0 x1 y1 k : Nat} (hp : p.atPixel c x0 y0 x1 y1 k)
    (hcw : c.opCaset ≠ c.opRamwr) (hrw : c.opRaset ≠ c.opRamwr) (hW : c.panelW ≤ 65536) (hH : c.panelH ≤ 65536)
    (hx : x0 ≤ x1) (hx1 : x1 < c.panelW) (hy : y0 ≤ y1) (hy1 : y1 < c.panelH)
    (hk : k < (x1 - x0 + 1) * (y1 - y0 + 1)) (v : Half) :
    let q := p.receiveAll c .data (be16 v)
    q.gram = gramWrite p.gram (x0 + k % (x1 - x0 + 1)) (y0 + k / (x1 - x0 + 1)) v
      ∧ (if k + 1 < (x1 - x0 + 1) * (y1 - y0 + 1) then q.atPixel c x0 y0 x1 y1 (k + 1)
          else q.done = true ∧ q.refused = none ∧ q.half = none) := by
  obtain ⟨⟨hl, hc, hs, hh, e1, e2, e3, e4⟩, hr, ex, ey, hd⟩ := hp
  have t1 : p.xs.toNat = x0 := by rw [e1, BitVec.toNat_ofNat]; omega
  have t2 : p.xe.toNat = x1 := by rw [e2, BitVec.toNat_ofNat]; omega
  have t3 : p.ys.toNat = y0 := by rw [e3, BitVec.toNat_ofNat]; omega
  have t4 : p.ye.toNat = y1 := by rw [e4, BitVec.toNat_ofNat]; omega
  have hw : 0 < x1 - x0 + 1 := by omega
  have hm := Nat.mod_lt k hw
  have hdiv : k / (x1 - x0 + 1) < y1 - y0 + 1 := Nat.div_lt_of_lt_mul hk
  have hon : p.windowOnPanel c = true := by
    simp only [Panel.windowOnPanel, t1, t2, t3, t4, Bool.and_eq_true, decide_eq_true_eq]
    omega
  have hptr : ¬ (c.panelW ≤ p.px ∨ c.panelH ≤ p.py) := by omega
  have key : p.receiveAll c .data (be16 v)
      = Panel.advance { p with half := none, gram := gramWrite p.gram p.px p.py v } := by
    have hon' : ∀ q : Panel, q.xs = p.xs → q.xe = p.xe → q.ys = p.ys → q.ye = p.ye → q.windowOnPanel c = true := by
      intro q a b d e
      rw [← hon, Panel.windowOnPanel, Panel.windowOnPanel, a, b, d, e]
    simp only [be16, Panel.receiveAll, List.foldl_cons, List.foldl_nil, Panel.receive, Panel.data, hl, hc,
      Option.isSome_none, Bool.false_eq_true, if_false, if_neg (Ne.symm hcw), if_neg (Ne.symm hrw), hs, if_true,
      Panel.streamByte, hh, Panel.pixelArrives, hr, hd, if_neg hptr, unbe16_hi8_lo8, reduceCtorEq]
    exact if_neg fun e => Bool.noConfusion ((hon' _ rfl rfl rfl rfl).symm.trans e)
  intro q
  simp only [q, key]
  have hk' := Nat.div_add_mod k (x1 - x0 + 1)
  generalize hW' : x1 - x0 + 1 = W at *
  generalize hH' : y1 - y0 + 1 = H at *
  by_cases c1 : k % W + 1 < W
  · have hk1 : k + 1 = W * (k / W) + (k % W + 1) := by omega
    have m1 : (k + 1) % W = k % W + 1 := by rw [hk1, Nat.mul_add_mod, Nat.mod_eq_of_lt c1]
    have d1 : (k + 1) / W = k / W := by rw [hk1, Nat.mul_add_div hw, Nat.div_eq_of_lt c1, Nat.add_zero]
    have hlt : k + 1 < W * H := by
      have := Nat.mul_le_mul_left W (show k / W + 1 ≤ H by omega)
      rw [Nat.mul_add] at this
      omega
    have adv : p.px < p.xe.toNat := by omega
    simp only [Panel.advance, adv, if_true, if_pos hlt]
    exact ⟨by rw [ex, ey], ⟨hl, hc, hs, rfl, e1, e2, e3, e4⟩, hr, by simp only [ex, m1, hW']; omega, by simp only [ey, d1, hW'], hd⟩
  · have m0 : k % W = W - 1 := by omega
    have adv : ¬ p.px < p.xe.toNat := by omega
    have m1 : (k + 1) % W = 0 := by
      have : k + 1 = W * (k / W + 1) := by rw [Nat.mul_add]; omega
      rw [this]; exact Nat.mul_mod_right _ _
    have d1 : (k + 1) / W = k / W + 1 := by
      have : k + 1 = W * (k / W + 1) := by rw [Nat.mul_add]; omega
      rw [this]; exact Nat.mul_div_cancel_left _ hw
    by_cases c2 : k / W + 1 < H
    · have hlt : k + 1 < W * H := by
        have := Nat.mul_lt_mul_of_pos_left (k := W) c2 hw
        rw [Nat.mul_add] at this
        omega
      have adv2 : p.py < p.ye.toNat := by omega
      simp only [Panel.advance, adv, if_false, adv2, if_true, if_pos hlt]
      exact ⟨by rw [ex, ey], ⟨hl, hc, hs, rfl, e1, e2, e3, e4⟩, hr, by simp only [m1, t1, hW']; omega, by simp only [ey, d1, hW']; omega, hd⟩
    · have hge : ¬ k + 1 < W * H := by
        have : H = k / W + 1 := by omega
        rw [this, Nat.mul_add]
        omega
      have adv2 : ¬ p.py < p.ye.toNat := by omega
      simp only [Panel.advance, adv, if_false, adv2, if_neg hge]
      simp [ex, ey, hl]

/-- A stream of pixels from pixel number `k` on, no more than the window holds (R72, R75). -/
theorem Panel.receive_pixels {c : Config} {p : Panel} {x0 y0 x1 y1 k : Nat} (hp : p.atPixel c x0 y0 x1 y1 k)
    (hcw : c.opCaset ≠ c.opRamwr) (hrw : c.opRaset ≠ c.opRamwr) (hW : c.panelW ≤ 65536) (hH : c.panelH ≤ 65536)
    (hx : x0 ≤ x1) (hx1 : x1 < c.panelW) (hy : y0 ≤ y1) (hy1 : y1 < c.panelH) (vs : List Half)
    (hk : k + vs.length ≤ (x1 - x0 + 1) * (y1 - y0 + 1)) :
    let q := p.receiveAll c .data (vs.flatMap be16)
    q.gram = paint x0 y0 (x1 - x0 + 1) k vs p.gram ∧ q.refused = none ∧ q.half = none
      ∧ (vs ≠ [] → k + vs.length = (x1 - x0 + 1) * (y1 - y0 + 1) → q.done = true) := by
  induction vs generalizing k p with
  | nil => exact ⟨rfl, hp.1.live, hp.1.noHalf, fun h => absurd rfl h⟩
  | cons v vs ih =>
    have hlt : k < (x1 - x0 + 1) * (y1 - y0 + 1) := by simp only [List.length_cons] at hk; omega
    obtain ⟨g, h⟩ := Panel.receive_pixel hp hcw hrw hW hH hx hx1 hy hy1 hlt v
    rw [List.flatMap_cons, Panel.receiveAll_append]
    split_ifs at h with h2
    · obtain ⟨a, b, d, e⟩ := ih h (by simp only [List.length_cons] at hk; omega)
      refine ⟨by rw [a, g]; rfl, b, d, fun _ hlen => ?_⟩
      simp only [List.length_cons] at hlen
      exact e (by rintro rfl; simp at hlen; omega) (by omega)
    · have : vs = [] := by
        have : vs.length = 0 := by simp only [List.length_cons] at hk; omega
        exact List.eq_nil_of_length_eq_zero this
      subst this
      exact ⟨g, h.2.1, h.2.2, fun _ _ => h.1⟩

end Sys2Proof.Machine
end

