-- ==== Sys2Proof/Laws/PerInstr.lean ====
section
/-! SUPPORT. Statements made per instruction. The family EncodedLength: a decoder finds the length of an encoded
instruction from byte 0 and, for three operations, one more byte (spec/30_encoding.md R116, R121); a command frame has
the length R103 gives its opcode, a conversion request frame three bytes (R113). -/

namespace Sys2Proof.Laws.EncodedLength

/-- The length a decoder finds in the bytes of an instruction. -/
def found (c : Config) (i : Instr) (bs : List Byte) : Nat :=
  if i.isHost then descriptorLength bs
  else
    match i.target with
    | .panel => panelFrameLength c bs
    | .digitizer => 3

/-- The bytes of a well-formed instruction are as many as the decoder finds. -/
def Statement (i : Instr) : Prop :=
  i.wellFormed = true → ∀ c : Config, c.wireDistinct = true → (encode c i).length = found c i (encode c i)

theorem length_byte (bs : List Byte) (h : lengthInRange bs = true) : (BitVec.ofNat 8 bs.length).toNat = bs.length := by
  simp only [lengthInRange, decide_eq_true_eq] at h
  simp only [BitVec.toNat_ofNat]
  omega

theorem dReset : Statement .dReset := fun _ _ _ => rfl

theorem dInit : Statement .dInit := fun _ _ _ => rfl

theorem dWrcmd (op : Byte) (payload : List Byte) : Statement (.dWrcmd op payload) := by
  intro hw c _
  have := length_byte payload hw
  simp [found, Instr.isHost, descriptorLength, encode]
  simp at this
  omega

theorem dSetwin (x0 y0 x1 y1 : Int) : Statement (.dSetwin x0 y0 x1 y1) := fun _ _ _ => rfl

theorem dFillrect (x y w h : Int) (color : Half) : Statement (.dFillrect x y w h color) := fun _ _ _ => rfl

theorem dGlyph (ch : Byte) (x y : Int) (fg bg : Half) : Statement (.dGlyph ch x y fg bg) := fun _ _ _ => rfl

theorem dText (x y : Int) (fg bg : Half) (text : List Byte) : Statement (.dText x y fg bg text) := by
  intro hw c _
  have := length_byte text (by simp only [Instr.wellFormed, Bool.and_eq_true] at hw; exact hw.2)
  simp [found, Instr.isHost, descriptorLength, encode, s16Bytes, be16]
  simp at this
  omega

theorem dTextd (x y : Int) (fg : Half) (text : List Byte) : Statement (.dTextd x y fg text) := by
  intro hw c _
  have := length_byte text (by simp only [Instr.wellFormed, Bool.and_eq_true] at hw; exact hw.2)
  simp [found, Instr.isHost, descriptorLength, encode, s16Bytes, be16]
  simp at this
  omega

theorem dCpack (r g b : Byte) : Statement (.dCpack r g b) := fun _ _ _ => rfl

theorem tSample : Statement .tSample := fun _ _ _ => rfl

theorem tGettouch : Statement .tGettouch := fun _ _ _ => rfl

theorem tNorm (rawX rawY : Int) : Statement (.tNorm rawX rawY) := fun _ _ _ => rfl

theorem wireCaset (x0 x1 : Half) : Statement (.wireCaset x0 x1) := by
  intro _ c _
  simp [found, Instr.isHost, Instr.target, panelFrameLength, encode, be16]

theorem wireRaset (y0 y1 : Half) : Statement (.wireRaset y0 y1) := by
  intro _ c _
  simp [found, Instr.isHost, Instr.target, panelFrameLength, encode, be16]

/-- The opcodes that begin a frame without payload are none of the two address commands'. -/
theorem single_byte {c : Config} (h : c.wireDistinct = true) {op : Byte}
    (hop : op ∈ [c.opRamwr, c.opSlpout, c.opDispon]) : panelFrameLength c [op] = 1 := by
  simp only [Config.wireDistinct, Bool.and_eq_true, decide_eq_true_eq, List.nodup_cons, List.mem_cons,
    List.not_mem_nil, or_false, not_or] at h
  simp only [List.mem_cons, List.not_mem_nil, or_false] at hop
  rw [panelFrameLength, List.headD_cons, if_neg]
  rintro (e | e) <;> rcases hop with r | r | r <;> simp_all

theorem wireRamwr : Statement .wireRamwr := fun _ _ h => (single_byte h (by simp)).symm

theorem wireSlpout : Statement .wireSlpout := fun _ _ h => (single_byte h (by simp)).symm

theorem wireDispon : Statement .wireDispon := fun _ _ h => (single_byte h (by simp)).symm

theorem wireConvX : Statement .wireConvX := fun _ _ _ => rfl

theorem wireConvY : Statement .wireConvY := fun _ _ _ => rfl

end Sys2Proof.Laws.EncodedLength
end

