-- ==== Sys2Proof/Laws/Touch.lean ====
section
/-! SUPPORT. The touch unit's runs, however they come out: what a run that ends leaves, and where a TransportFault leaves
one (spec/43_touch.md R200 to R204, spec/60_exceptions.md R232). -/

namespace Sys2Proof.Machine

/-- `u` is `s` after `n` exchanges that completed and the events `fs`; the lines of the display unit are as they were. -/
structure Exchanged (s u : State) (n : Nat) (fs : List Event) : Prop where
  cfg : u.cfg = s.cfg
  csD : u.csD = s.csD
  dc : u.dc = s.dc
  rst : u.rst = s.rst
  fault : u.fault = s.fault
  trace : u.trace = s.trace ++ fs
  env : u.env = s.env.drop n
  calls : u.busCalls = s.busCalls + n

/-- `u` is where a TransportFault leaves a run that started in `s` and whose events are `fs` when every call completes: at
the exchange after the events of the trace, with CS_T asserted (R232). -/
structure StoppedIn (s u : State) (fs : List Event) : Prop where
  csT : u.csT = .asserted
  csD : u.csD = s.csD
  dc : u.dc = s.dc
  rst : u.rst = s.rst
  before : ∃ (es : List Event) (bs rs : List Byte), u.trace = s.trace ++ es ++ [.line (.csT .asserted)]
    ∧ (es ++ [.line (.csT .asserted), .xfer bs rs]) <+: fs

/-- Where a run can be ended: only by a TransportFault, at one of its exchanges. -/
def Run.faultsIn {α : Type} (s : State) (fs : List Event) : Run α → Prop
  | .ended st u => st = .transportFault ∧ StoppedIn s u fs
  | .done _ _ => True
  | .stalled _ => True
  | .noMeaning _ => True

/-- A run of `n` exchanges with the events `fs`. -/
def Run.exchanges {α : Type} (s : State) (n : Nat) (fs : List Event) : Run α → Prop
  | .done _ u => Exchanged s u n fs
  | .ended st u => st = .transportFault ∧ StoppedIn s u fs
  | .stalled _ => True
  | .noMeaning _ => True

theorem Exchanged.refl (s : State) : Exchanged s s 0 [] :=
  ⟨rfl, rfl, rfl, rfl, rfl, (List.append_nil _).symm, rfl, rfl⟩

theorem Exchanged.trans {s t u : State} {n m : Nat} {fs gs : List Event} (h : Exchanged s t n fs)
    (g : Exchanged t u m gs) : Exchanged s u (n + m) (fs ++ gs) :=
  ⟨g.cfg.trans h.cfg, g.csD.trans h.csD, g.dc.trans h.dc, g.rst.trans h.rst, g.fault.trans h.fault,
    by rw [g.trace, h.trace, List.append_assoc], by rw [g.env, h.env, List.drop_drop],
    by rw [g.calls, h.calls, Nat.add_assoc]⟩

/-- The bytes that an exchange after `n` others reads back. -/
theorem Exchanged.answerBytes {s u : State} {n : Nat} {fs : List Event} (h : Exchanged s u n fs) (k : Nat) :
    Machine.answerBytes u k = Machine.answerBytes s (n + k) := by
  simp [Machine.answerBytes, h.env, h.calls, Nat.add_assoc]

/-- A run that stops later, after events that came before. -/
theorem StoppedIn.after {s t u : State} {n : Nat} {fs gs : List Event} (h : Exchanged s t n fs)
    (g : StoppedIn t u gs) : StoppedIn s u (fs ++ gs) := by
  obtain ⟨es, bs, rs, e1, e2⟩ := g.before
  refine ⟨g.csT, g.csD.trans h.csD, g.dc.trans h.dc, g.rst.trans h.rst, fs ++ es, bs, rs, ?_, ?_⟩
  · rw [e1, h.trace, List.append_assoc s.trace fs es]
  · rw [List.append_assoc]; exact List.prefix_append_right_inj fs |>.2 e2

theorem StoppedIn.mono {s u : State} {fs gs : List Event} (h : StoppedIn s u fs) (hp : fs <+: gs) :
    StoppedIn s u gs := by
  obtain ⟨es, bs, rs, e1, e2⟩ := h.before
  exact ⟨h.csT, h.csD, h.dc, h.rst, es, bs, rs, e1, e2.trans hp⟩

theorem Run.exchanges.faultsIn {α : Type} {s : State} {n : Nat} {fs : List Event} {r : Run α}
    (h : r.exchanges s n fs) : r.faultsIn s fs := by
  cases r with
  | done a u => trivial
  | ended st u => exact h
  | stalled u => trivial
  | noMeaning x => trivial

/-- One run after another. -/
theorem Run.exchanges.andThen {α β : Type} {s : State} {n m : Nat} {fs gs : List Event} {r : Run α}
    {k : α → State → Run β} (h : r.exchanges s n fs)
    (hk : ∀ a u, Exchanged s u n fs → (k a u).exchanges u m gs) : (r.andThen k).exchanges s (n + m) (fs ++ gs) := by
  cases r with
  | done a u =>
    have g := hk a u h
    show Run.exchanges s (n + m) (fs ++ gs) (k a u)
    revert g
    cases k a u with
    | done b v => exact fun g => Exchanged.trans h g
    | ended st v => exact fun g => ⟨g.1, StoppedIn.after h g.2⟩
    | stalled v => exact id
    | noMeaning x => exact id
  | ended st u => exact ⟨h.1, h.2.mono (List.prefix_append _ _)⟩
  | stalled u => trivial
  | noMeaning x => trivial

/-- One run after another, where the second may leave out what comes last. -/
theorem Run.exchanges.andThen_faultsIn {α β : Type} {s : State} {n : Nat} {fs gs : List Event} {r : Run α}
    {k : α → State → Run β} (h : r.exchanges s n fs)
    (hk : ∀ a u, Exchanged s u n fs → (k a u).faultsIn u gs) : (r.andThen k).faultsIn s (fs ++ gs) := by
  cases r with
  | done a u =>
    have g := hk a u h
    show Run.faultsIn s (fs ++ gs) (k a u)
    revert g
    cases k a u with
    | done b v => exact id
    | ended st v => exact fun g => ⟨g.1, StoppedIn.after h g.2⟩
    | stalled v => exact id
    | noMeaning x => exact id
  | ended st u => exact ⟨h.1, h.2.mono (List.prefix_append _ _)⟩
  | stalled u => trivial
  | noMeaning x => trivial

/-- A conversion, however it comes out (R200). -/
theorem convert_exchanges (op : Byte) (s : State) :
    (runActs (convert op) s).exchanges s 1 (conversionFrame op (answerBytes s 0)) := by
  cases hf : s.fault with
  | true => simp [convert, runActs, runAct, busXfer, hf, Run.andThen, Run.exchanges]
  | false =>
    have ha : nextAnswer (driveLine (.csT .asserted) s) = (s.env[0]?).getD (.ok []) := by
      simp only [nextAnswer, driveLine_env]; cases s.env <;> rfl
    cases hE : (s.env[0]?).getD (.ok []) with
    | ok q =>
      rw [hE] at ha
      simp only [convert, runActs, runAct, andThen_done, busXfer_ok (s := driveLine (.csT .asserted) s) hf ha,
        Run.exchanges]
      constructor <;> simp [driveLine, setLine, emit, usedAnswer, conversionFrame, answerBytes, hE, Answer.given]
    | fault k =>
      rw [hE] at ha
      simp only [convert, runActs, runAct, busXfer, driveLine_fault, hf, ha, Bool.false_eq_true, if_false,
        Run.andThen, Run.exchanges, true_and]
      refine ⟨rfl, rfl, rfl, rfl, [], [op, 0, 0], answerBytes s 0, by simp, ?_⟩
      exact ⟨[.line (.csT .deasserted)], rfl⟩
    | stall k =>
      rw [hE] at ha
      simp [convert, runActs, runAct, busXfer, hf, ha, Run.andThen, Run.exchanges]

/-- A sample, however it comes out (R202). -/
theorem sample_exchanges (s : State) :
    (sample s).exchanges s 2 (sampleFrames s.cfg (answerBytes s 0) (answerBytes s 1)) := by
  have two : (runActs (sampleActs s.cfg) s).exchanges s 2
      (sampleFrames s.cfg (answerBytes s 0) (answerBytes s 1)) := by
    rw [sampleActs, runActs_append]
    refine Run.exchanges.andThen (m := 1) (convert_exchanges _ s) fun r u hu => ?_
    have h := (convert_exchanges s.cfg.opConvY u).andThen (m := 0) (gs := [])
      (k := fun q v => Run.done (r ++ q) v) fun _ v _ => Exchanged.refl v
    rwa [List.append_nil, hu.answerBytes] at h
  have h := two.andThen (m := 0) (gs := []) (k := fun reads t => Run.done (sampleOf reads) t)
    fun _ v _ => Exchanged.refl v
  rwa [List.append_nil] at h

/-- A settled sample, however it comes out (R204 step 2). -/
theorem settledSample_exchanges (s : State) :
    (settledSample s).exchanges s 2
      (.sleep tSettle :: sampleFrames s.cfg (answerBytes s 0) (answerBytes s 1)) := by
  have hs : Exchanged s (emit (.sleep tSettle) s) 0 [.sleep tSettle] := ⟨rfl, rfl, rfl, rfl, rfl, rfl, rfl, rfl⟩
  have h := Run.exchanges.andThen (r := runActs [.sleep tSettle] s) (k := fun _ t => sample t) (n := 0) (m := 2) hs
    fun _ u hu => by
      have g := sample_exchanges u
      rwa [hu.answerBytes, hu.answerBytes, hu.cfg] at g
  exact h

/-- Latching a sample is no event. -/
theorem Run.faultsIn.of_latch {α : Type} {w : WorkWrite} {s : State} {fs : List Event} {r : Run α}
    (h : r.faultsIn (latch w s) fs) : r.faultsIn s fs := by
  cases r with
  | done a u => trivial
  | ended st u => exact ⟨h.1, h.2.csT, h.2.csD, h.2.dc, h.2.rst, h.2.before⟩
  | stalled u => trivial
  | noMeaning x => trivial

/-- T.GETTOUCH's pipeline, where it stops (R204). -/
theorem touchBody_faultsIn (s : State) : (touchBody s).faultsIn s (touchFrames s .tGettouch) := by
  have e : touchFrames s .tGettouch
      = sampleFrames s.cfg (answerBytes s 0) (answerBytes s 1)
        ++ ((.sleep tSettle :: sampleFrames s.cfg (answerBytes s 2) (answerBytes s 3))
          ++ (.sleep tSettle :: sampleFrames s.cfg (answerBytes s 4) (answerBytes s 5))) := by
    simp [touchFrames]
  rw [e]
  refine (sample_exchanges s).andThen_faultsIn fun p1 t ht => ?_
  show Run.faultsIn t _ (if p1 = (0, 0) then _ else _)
  split_ifs
  · trivial
  · have ht1 : Exchanged s (latch (.s1 (sample13 p1)) t) 2 (sampleFrames s.cfg (answerBytes s 0) (answerBytes s 1)) :=
      ⟨ht.cfg, ht.csD, ht.dc, ht.rst, ht.fault, ht.trace, ht.env, ht.calls⟩
    have g := settledSample_exchanges (latch (.s1 (sample13 p1)) t)
    rw [ht1.answerBytes, ht1.answerBytes, ht1.cfg] at g
    refine Run.faultsIn.of_latch (w := .s1 (sample13 p1)) (Run.exchanges.andThen_faultsIn g fun p2 u hu => ?_)
    have hu1 : Exchanged (latch (.s1 (sample13 p1)) t) (latch (.s2 (sample13 p2)) u) 2
        (.sleep tSettle :: sampleFrames s.cfg (answerBytes s 2) (answerBytes s 3)) :=
      ⟨hu.cfg, hu.csD, hu.dc, hu.rst, hu.fault, hu.trace, hu.env, hu.calls⟩
    have hall := ht1.trans hu1
    have g2 := settledSample_exchanges (latch (.s2 (sample13 p2)) u)
    rw [hall.answerBytes, hall.answerBytes, hall.cfg] at g2
    have h := Run.exchanges.andThen_faultsIn (gs := []) (k := fun p3 v =>
      Run.done (touchResult v.cfg p1 p2 p3) (latch (.s3 (sample13 p3)) v)) g2 fun _ _ _ => trivial
    rw [List.append_nil] at h
    exact h.of_latch

/-- Every touch operation and conversion request: where a TransportFault leaves it, and that nothing else sets FAULT
(R232). -/
theorem touch_faultsIn {i : Instr} (ht : i.target = .digitizer) (s : State) :
    (hostBody i s).faultsIn s (touchFrames s i) ∧ (runActs (frameActs s.cfg i) s).faultsIn s (touchFrames s i) := by
  cases i with
  | tSample =>
    refine ⟨?_, trivial⟩
    have h := (sample_exchanges s).andThen_faultsIn (gs := []) (k := fun p u => Run.done (sampleResult p) u)
      fun _ _ _ => trivial
    rwa [List.append_nil] at h
  | tGettouch => exact ⟨touchBody_faultsIn s, trivial⟩
  | tNorm rawX rawY => exact ⟨trivial, trivial⟩
  | wireConvX => exact ⟨trivial, (convert_exchanges _ s).faultsIn⟩
  | wireConvY => exact ⟨trivial, (convert_exchanges _ s).faultsIn⟩
  | _ => cases ht

end Sys2Proof.Machine
end

