-- ==== Sys2Proof/Tests/Slice0.lean ====
section
/-! SUPPORT. Tests. Expected values are the vectors of spec/95_test_vectors.md, named in each docstring, or words
written out from the tables of spec/30_encoding.md. At the end, for every statement with hypotheses, a witness: a
concrete state and operands that meet them together. -/

namespace Sys2Proof.Tests

open Sys2Proof Sys2Proof.Machine

/-- The block right after reset, with these answers of the environment to come. -/
def fresh (c : Config) (as : List Answer) : State := (State.resetWith c).withAnswers as

/-- A panel that takes a window: after D.RESET and D.INIT. -/
def livePanel : Panel := { Panel.unknown with ready := true, awake := true, on := true, fresh := false }

/-- The block with a panel that takes a window. -/
def live (c : Config) : State := { State.resetWith c with panel := livePanel }

/-- A field of the next state, if there is one. -/
def after {α : Type} (o : Host.Outcome State Fault Refusal) (f : State → α) : Option α :=
  match o with
  | .next t => some (f t)
  | .fault _ => none
  | .refused _ => none

/-- The outcome registers: STATUS, REFUSED, FAULT, RES_KIND and the trace's length. -/
def ends (o : Host.Outcome State Fault Refusal) : Option (Status × Bool × Bool × ResKind × Nat) :=
  after o fun t => (t.status, t.refused, t.fault, t.resKind, t.trace.length)

/-- What a touch operation returns. -/
def result (o : Host.Outcome State Fault Refusal) : Option (ResKind × Nat × Nat × Nat) :=
  after o fun t => (t.resKind, t.resX.toNat, t.resY.toNat, t.trace.length)

/-- Answers that complete with these read-backs. -/
def reads (rs : List (List Byte)) : List Answer := rs.map .ok

/-! ### Well-formedness: a term that each check refuses -/

theorem test_ill_formed_wrcmd_payload : (Instr.dWrcmd 0x36 (List.replicate 256 0)).wellFormed = false := by decide +kernel
theorem test_ill_formed_setwin :
    (Instr.dSetwin 32768 0 0 0).wellFormed = false ∧ (Instr.dSetwin 0 (-32769) 0 0).wellFormed = false
      ∧ (Instr.dSetwin 0 0 65535 0).wellFormed = false ∧ (Instr.dSetwin 0 0 0 (-32769)).wellFormed = false := by decide
theorem test_ill_formed_fillrect :
    (Instr.dFillrect (-32769) 0 0 0 0).wellFormed = false ∧ (Instr.dFillrect 0 32768 0 0 0).wellFormed = false
      ∧ (Instr.dFillrect 0 0 32768 0 0).wellFormed = false
      ∧ (Instr.dFillrect 0 0 0 (-32769) 0).wellFormed = false := by decide
theorem test_ill_formed_glyph :
    (Instr.dGlyph 0x41 32768 0 0 0).wellFormed = false ∧ (Instr.dGlyph 0x41 0 (-32769) 0 0).wellFormed = false := by
  decide
theorem test_ill_formed_text :
    (Instr.dText (-32769) 0 0 0 []).wellFormed = false ∧ (Instr.dText 0 32768 0 0 []).wellFormed = false
      ∧ (Instr.dText 0 0 0 0 (List.replicate 256 0)).wellFormed = false := by decide +kernel
theorem test_ill_formed_textd :
    (Instr.dTextd 32768 0 0 []).wellFormed = false ∧ (Instr.dTextd 0 (-32769) 0 []).wellFormed = false
      ∧ (Instr.dTextd 0 0 0 (List.replicate 256 0)).wellFormed = false := by decide +kernel
theorem test_ill_formed_norm :
    (Instr.tNorm 32768 0).wellFormed = false ∧ (Instr.tNorm 0 (-32769)).wellFormed = false := by decide

/-! ### Decoding: a word written out for every constructor (R116, R117, R103, R113) -/

theorem test_decode_reset : decode [0x01] = .ok .dReset := by decide
theorem test_decode_init : decode [0x02] = .ok .dInit := by decide
/-- V12. -/
theorem test_decode_wrcmd : decode [0x03, 0x36, 0x01, 0x48] = .ok (.dWrcmd 0x36 [0x48]) := by decide
/-- V46. -/
theorem test_decode_setwin :
    decode [0x04, 0xFF, 0xFF, 0x00, 0x00, 0x00, 0x07, 0x01, 0x02] = .ok (.dSetwin (-1) 0 7 258) := by decide
/-- V21, and the colour of S3. -/
theorem test_decode_fillrect :
    decode [0x05, 0xFF, 0xFB, 0xFF, 0xFB, 0x00, 0x0A, 0x00, 0x0A, 0x00, 0x1F]
      = .ok (.dFillrect (-5) (-5) 10 10 0x001F) := by decide
/-- V30. -/
theorem test_decode_glyph :
    decode [0x06, 0x41, 0x00, 0x10, 0x00, 0x18, 0xFF, 0xFF, 0x00, 0x00] = .ok (.dGlyph 0x41 16 24 0xFFFF 0x0000) := by
  decide
/-- V34. -/
theorem test_decode_text :
    decode [0x07, 0x00, 0x08, 0x00, 0x10, 0xFF, 0xFF, 0x00, 0x00, 0x02, 0x48, 0x69]
      = .ok (.dText 8 16 0xFFFF 0x0000 [0x48, 0x69]) := by decide
/-- V35. -/
theorem test_decode_textd :
    decode [0x08, 0x00, 0x00, 0x00, 0x00, 0xFF, 0xFF, 0x02, 0x48, 0x69] = .ok (.dTextd 0 0 0xFFFF [0x48, 0x69]) := by
  decide
/-- V6. -/
theorem test_decode_cpack : decode [0x09, 0x12, 0x34, 0x56] = .ok (.dCpack 0x12 0x34 0x56) := by decide
theorem test_decode_sample : decode [0x10] = .ok .tSample := by decide
theorem test_decode_gettouch : decode [0x11] = .ok .tGettouch := by decide
/-- V89. -/
theorem test_decode_norm : decode [0x12, 0x80, 0x00, 0x7F, 0xFF] = .ok (.tNorm (-32768) 32767) := by decide
/-- The column frame of V20. -/
theorem test_decode_wire_caset : decodeFrame Config.tc1 .panel [0x2A, 0x00, 0x0A, 0x01, 0x27] = .ok (.wireCaset 10 295) := by
  decide
/-- The row frame of V20. -/
theorem test_decode_wire_raset : decodeFrame Config.tc1 .panel [0x2B, 0x00, 0x14, 0x00, 0x3B] = .ok (.wireRaset 20 59) := by
  decide
theorem test_decode_wire_ramwr : decodeFrame Config.tc1 .panel [0x2C] = .ok .wireRamwr := by decide
theorem test_decode_wire_slpout : decodeFrame Config.tc1 .panel [0x11] = .ok .wireSlpout := by decide
theorem test_decode_wire_dispon : decodeFrame Config.tc1 .panel [0x29] = .ok .wireDispon := by decide
theorem test_decode_wire_conv_x : decodeFrame Config.tc1 .digitizer [0xD0, 0x00, 0x00] = .ok .wireConvX := by decide
theorem test_decode_wire_conv_y : decodeFrame Config.tc1 .digitizer [0x90, 0x00, 0x00] = .ok .wireConvY := by decide

/-- R119: reserved HOPs, the empty descriptor, a short and an overlong one (V16, V17, V18). -/
theorem test_decode_refuses :
    decode [] = .error .empty ∧ decode [0x00] = .error .reservedHop ∧ decode [0x0A] = .error .reservedHop
      ∧ decode [0x0F] = .error .reservedHop ∧ decode [0x13] = .error .reservedHop
      ∧ decode [0xFF] = .error .reservedHop ∧ decode [0x03, 0x36, 0x02, 0x48] = .error .tooShort
      ∧ decode [0x01, 0x00] = .error .trailingBytes ∧ decode [0x03, 0x36] = .error .tooShort
      ∧ decode [0x03, 0x36, 0x00, 0x48] = .error .trailingBytes ∧ decode [0x12, 0x00, 0x00, 0x00] = .error .tooShort := by
  decide

/-- Bits of an opcode-table row, byte 0 in bits 7..0. -/
theorem test_table_words :
    decodeTableWord 8 0x01 = some .dReset ∧ decodeTableWord 32 0x0003FF00 = none
      ∧ decodeTableWord 40 0x0A00140012 = some (.tNorm 0x14 0x0A)
      ∧ decodeTableWord 40 0x27000A002A = some (.wireCaset 10 39) ∧ decodeTableWord 8 0x2C = some .wireRamwr
      ∧ decodeTableWord 24 0xD0 = some .wireConvX ∧ decodeTableWord 8 0x11 = some .tGettouch := by decide

/-- The examples of R122, and lines that are none. -/
theorem test_assembler_lines :
    parseLine "D.FILLRECT 10, 20, 30, 40, 0xF800".toList = some (.dFillrect 10 20 30 40 0xF800)
      ∧ parseLine "D.WRCMD 0x29".toList = some (.dWrcmd 0x29 [])
      ∧ parseLine "D.TEXT 0, 0, 0xFFFF, 0x0000, \"Hi\" ; greet".toList = some (.dText 0 0 0xFFFF 0 [0x48, 0x69])
      ∧ parseLine "T.NORM -1, 5".toList = some (.tNorm (-1) 5)
      ∧ parseLine "T.NORM 40000, 5".toList = none ∧ parseLine "D.CPACK 256, 0, 0".toList = none := by decide +kernel

/-! ### D.RESET, D.INIT, D.WRCMD -/

/-- V10. -/
theorem test_reset_pulse :
    after (exec .dReset (fresh Config.tc1 [])) (·.trace)
      = some [.line (.rst .low), .sleep 50, .line (.rst .high), .sleep 50] := by decide
/-- V11. -/
theorem test_reset_without_line : after (exec .dReset (fresh Config.tc2 [])) (·.trace) = some [] := by decide
/-- V14. -/
theorem test_init_trace :
    after (exec .dInit (fresh Config.tc1 [])) (·.trace)
      = some
        [.line (.csD .asserted), .line (.dc .command), .write [0x3A], .line (.dc .data), .write [0x55],
          .line (.csD .deasserted), .line (.csD .asserted), .line (.dc .command), .write [0x36], .line (.dc .data),
          .write [0x48], .line (.csD .deasserted), .line (.csD .asserted), .line (.dc .command), .write [0x11],
          .line (.csD .deasserted), .sleep 120, .line (.csD .asserted), .line (.dc .command), .write [0x29],
          .line (.csD .deasserted)] := by decide
/-- P1: after D.INIT the panel is ready, awake and on. R73, U21, R263: InitTableOK stands after D.INIT on a freshly reset
panel, or without a reset line on the panel as its power-up left it; not with a reset line and no D.RESET before, and
not after a second D.INIT. -/
theorem test_init_panel :
    after (exec .dInit { State.reset with panel := Panel.unknown })
        (fun t => (t.panel.ready, t.panel.awake, t.panel.on, t.panel.initTableOK)) = some (true, true, true, true)
      ∧ after (exec .dInit (fresh Config.tc2 [])) (·.panel.initTableOK) = some true
      ∧ after (exec .dInit (fresh Config.tc1 [])) (·.panel.initTableOK) = some false
      ∧ after (exec .dInit (live Config.tc2)) (·.panel.initTableOK) = some false := by decide
/-- V12. -/
theorem test_wrcmd_payload :
    after (exec (.dWrcmd 0x36 [0x48]) (fresh Config.tc1 [])) (·.trace)
      = some [.line (.csD .asserted), .line (.dc .command), .write [0x36], .line (.dc .data), .write [0x48],
          .line (.csD .deasserted)] := by decide
/-- V13. -/
theorem test_wrcmd_no_payload :
    after (exec (.dWrcmd 0x29 []) (fresh Config.tc1 [])) (fun t => (t.trace, t.dc))
      = some ([.line (.csD .asserted), .line (.dc .command), .write [0x29], .line (.csD .deasserted)], .command) := by
  decide

/-! ### D.SETWIN, D.FILLRECT, D.CPACK -/

/-- V45. -/
theorem test_setwin_frames :
    after (exec (.dSetwin 10 20 39 59) (fresh Config.tc1 [])) (·.trace)
      = some
        [.line (.csD .asserted), .line (.dc .command), .write [0x2A], .line (.dc .data),
          .write [0x00, 0x0A, 0x00, 0x27], .line (.csD .deasserted), .line (.csD .asserted), .line (.dc .command),
          .write [0x2B], .line (.dc .data), .write [0x00, 0x14, 0x00, 0x3B], .line (.csD .deasserted),
          .line (.csD .asserted), .line (.dc .command), .write [0x2C], .line (.csD .deasserted)] := by decide
/-- V46. -/
theorem test_setwin_range :
    ends (exec (.dSetwin (-1) 0 7 7) (fresh Config.tc1 [])) = some (.operandRange, true, false, .none, 0) := by decide
/-- V20 to V22, V24, V25, V27: the window and the number of pixels. -/
theorem test_fill_windows :
    [fillRect Config.tc1 10 20 30 40, fillRect Config.tc1 (-5) (-5) 10 10, fillRect Config.tc1 1000 1000 5 5,
        fillRect Config.tc1 100 100 0 (-3), fillRect Config.tc1 230 310 100 100,
        fillRect Config.tc1 (-32768) (-32768) 32767 32767].map (fun r => (r.window, r.pixels))
      = [(⟨10, 20, 39, 59⟩, 1200), (⟨0, 0, 9, 9⟩, 100), (⟨239, 319, 239, 319⟩, 1), (⟨100, 100, 100, 100⟩, 1),
          (⟨230, 310, 239, 319⟩, 100), (⟨0, 0, 239, 319⟩, 76800)] := by decide
/-- V40: the data frames of 4, 4 and 1 pixels. -/
theorem test_fill_chunks :
    after (exec (.dFillrect 1 1 3 3 0x07E0) (fresh Config.tc2 [])) (fun t => t.trace.drop 16)
      = some
        (dataFrame [0x07, 0xE0, 0x07, 0xE0, 0x07, 0xE0, 0x07, 0xE0]
          ++ dataFrame [0x07, 0xE0, 0x07, 0xE0, 0x07, 0xE0, 0x07, 0xE0] ++ dataFrame [0x07, 0xE0]) := by decide
/-- P1: the panel's end of V40. -/
theorem test_fill_pixels :
    after (exec (.dFillrect 1 1 3 3 0x07E0) (live Config.tc2))
        (fun t => (t.panel.pixel 1 1, t.panel.pixel 3 3, t.panel.pixel 3 1, t.panel.pixel 0 1, t.panel.done))
      = some (some 0x07E0, some 0x07E0, some 0x07E0, none, true) := by decide +kernel
/-- V1 to V8. -/
theorem test_cpack_values :
    [colorPack 255 0 0, colorPack 7 3 7, colorPack 8 4 8, colorPack 255 255 255, colorPack 248 252 248,
        colorPack 0x12 0x34 0x56, colorPack 128 128 128, colorPack 1 2 3]
      = [0xF800, 0x0000, 0x0821, 0xFFFF, 0xFFFF, 0x11AA, 0x8410, 0x0000] := by decide
theorem test_cpack_result :
    after (exec (.dCpack 0x12 0x34 0x56) (fresh Config.tc1 [])) (fun t => (t.resKind, t.resC, t.trace))
      = some (.colour, 0x11AA, []) := by decide

/-! ### D.GLYPH, D.TEXT, D.TEXTD -/

/-- V30: the column and row payloads, and row 1 of the buffer. -/
theorem test_glyph_frames :
    after (exec (.dGlyph 0x41 16 24 0xFFFF 0x0000) (fresh Config.tc1 []))
        (fun t => (t.trace.take 12, (writtenBytes (t.trace.drop 16)).take 32, t.trace.length))
      = some
        (commandFrame 0x2A [0x00, 0x10, 0x00, 0x17] ++ commandFrame 0x2B [0x00, 0x18, 0x00, 0x1F],
          [0, 0, 0, 0, 0, 0, 0xFF, 0xFF, 0xFF, 0xFF, 0, 0, 0, 0, 0, 0,
            0, 0, 0, 0, 0xFF, 0xFF, 0xFF, 0xFF, 0xFF, 0xFF, 0xFF, 0xFF, 0, 0, 0, 0], 20) := by decide
/-- V31: rows 0, 1, 6 and 7. -/
theorem test_raster_bit_order :
    [0x80, 0x01, 0xF0, 0x0F].map (rasterRow 0xF800 0x001F)
      = [[0xF8, 0, 0, 0x1F, 0, 0x1F, 0, 0x1F, 0, 0x1F, 0, 0x1F, 0, 0x1F, 0, 0x1F],
          [0, 0x1F, 0, 0x1F, 0, 0x1F, 0, 0x1F, 0, 0x1F, 0, 0x1F, 0, 0x1F, 0xF8, 0],
          [0xF8, 0, 0xF8, 0, 0xF8, 0, 0xF8, 0, 0, 0x1F, 0, 0x1F, 0, 0x1F, 0, 0x1F],
          [0, 0x1F, 0, 0x1F, 0, 0x1F, 0, 0x1F, 0xF8, 0, 0xF8, 0, 0xF8, 0, 0xF8, 0]] := by decide
/-- V32. -/
theorem test_glyph_range :
    ends (exec (.dGlyph 0x41 (-1) 0 0xFFFF 0) (fresh Config.tc1 [])) = some (.operandRange, true, false, .none, 0) := by
  decide
/-- V34: the address payloads and the buffers of 'H' and 'i'. -/
theorem test_text_windows :
    after (exec (.dText 8 16 0xFFFF 0x0000 [0x48, 0x69]) (fresh Config.tc1 [])) (·.trace)
      = some
        (commandFrame 0x2A [0x00, 0x08, 0x00, 0x0F] ++ commandFrame 0x2B [0x00, 0x10, 0x00, 0x17]
          ++ commandFrame 0x2C []
          ++ dataFrame (raster [0x66, 0x66, 0x66, 0x7E, 0x66, 0x66, 0x66, 0x00] 0xFFFF 0x0000)
          ++ commandFrame 0x2A [0x00, 0x10, 0x00, 0x17] ++ commandFrame 0x2B [0x00, 0x10, 0x00, 0x17]
          ++ commandFrame 0x2C []
          ++ dataFrame (raster [0x18, 0x00, 0x38, 0x18, 0x18, 0x18, 0x3C, 0x00] 0xFFFF 0x0000)) := by decide +kernel
/-- V37 and V38. -/
theorem test_text_range :
    ends (exec (.dText (-8) 0 1 2 []) (fresh Config.tc1 [])) = some (.ok, false, false, .none, 0)
      ∧ ends (exec (.dText (-8) 0 1 2 [0x41]) (fresh Config.tc1 [])) = some (.operandRange, true, false, .none, 0) := by
  decide
/-- V35, with a background of its own: the windows' columns and the first pixel. -/
theorem test_textd_background :
    after (exec (.dTextd 0 0 0xFFFF [0x48, 0x69]) (fresh { Config.tc1 with bgDefault := 0x1234 } []))
        (fun t => (t.trace.length, (t.trace.drop 20).take 6, (writtenBytes (t.trace.drop 16)).take 4))
      = some (40, commandFrame 0x2A [0x00, 0x08, 0x00, 0x0F], [0x12, 0x34, 0xFF, 0xFF]) := by decide

/-! ### T.SAMPLE, T.GETTOUCH, T.NORM -/

/-- V51. -/
theorem test_sample_bounds :
    result (exec .tSample (fresh Config.tc1 (reads [[0x00, 0x03, 0x20], [0x00, 0x7D, 0x07]])))
      = some (.sample, 100, 4000, 6) := by decide
/-- V56: no mask. -/
theorem test_sample_no_mask :
    result (exec .tSample (fresh Config.tc1 (reads [[0x00, 0x83, 0x20], [0x00, 0x3E, 0x80]])))
      = some (.sample, 0, 0, 6) := by decide
/-- S10: the events and the point. -/
theorem test_gettouch_point :
    result (exec .tGettouch (fresh Config.tc1
        (reads [[0x00, 0x03, 0x20], [0x00, 0x03, 0x20], [0x00, 0x03, 0x70], [0x00, 0x03, 0x20], [0x00, 0x03, 0x48],
          [0x00, 0x03, 0x20]])))
      = some (.point, 0, 0, 20) := by decide
/-- V60. -/
theorem test_gettouch_absent :
    result (exec .tGettouch (fresh Config.tc1 (reads [[0, 0, 0], [0, 0, 0]]))) = some (.noTouch, 0, 0, 6) := by decide
/-- V61 to V71: the pipeline after the samples. -/
theorem test_touch_pipeline :
    [touchResult Config.tc1 (100, 100) (0, 0) (105, 100), touchResult Config.tc1 (100, 100) (105, 100) (0, 0),
        touchResult Config.tc1 (100, 100) (200, 100) (100, 100),
        touchResult Config.tc1 (2000, 2000) (2010, 1990) (1990, 2040),
        touchResult Config.tc1 (1000, 1000) (1050, 1050) (950, 3000),
        touchResult Config.tc1 (1000, 1000) (1051, 1000) (1000, 1000),
        touchResult Config.tc1 (1000, 1000) (1000, 1000) (949, 1000),
        touchResult Config.tc1 (1000, 1000) (1000, 1051) (1000, 1000),
        touchResult Config.tc1 (1000, 1000) (1000, 1000) (1000, 3000),
        touchResult Config.tc1 (1000, 1000) (1001, 1000) (1001, 1001),
        touchResult Config.tc1 (1000, 1000) (1040, 1000) (960, 1000)]
      = [.noTouch, .noTouch, .noTouch, .point 120 160, .point 53 131, .noTouch, .noTouch, .noTouch, .point 53 130,
          .point 53 71, .point 53 71] := by decide
/-- V80 to V89. -/
theorem test_norm_values :
    [normalize Config.tc1 2000 2000, normalize Config.tc1 200 200, normalize Config.tc1 3800 3800,
        normalize Config.tc1 105 100, normalize Config.tc1 5000 3800, normalize Config.tc1 199 201,
        normalize Config.tc1 215 215, normalize Config.tc1 214 211, normalize Config.tc1 3799 3799,
        normalize Config.tc1 (-32768) 32767]
      = [(120, 160), (0, 0), (240, 320), (0, 0), (240, 320), (0, 0), (1, 1), (0, 0), (239, 319), (0, 320)] := by decide
/-- V90 to V94: inverted axes. -/
theorem test_norm_inverted :
    [normalize Config.tc3 3800 3700, normalize Config.tc3 300 250, normalize Config.tc3 2000 2000,
        normalize Config.tc3 4000 100, normalize Config.tc3 1000 1000]
      = [(0, 0), (240, 320), (123, 157), (0, 320), (192, 250)] := by decide
theorem test_norm_result :
    result (exec (.tNorm 2000 2000) (fresh Config.tc1 [])) = some (.point, 120, 160, 0) := by decide

/-! ### The wire commands -/

theorem test_wire_caset :
    after (exec (.wireCaset 10 39) (live Config.tc1)) (fun t => (t.trace, t.panel.xs, t.panel.xe))
      = some (commandFrame 0x2A [0x00, 0x0A, 0x00, 0x27], 10, 39) := by decide
/-- U19: a window command before D.INIT has completed: the frame is sent, the panel model stops. -/
theorem test_wire_caset_before_init :
    after (exec (.wireCaset 10 39) (fresh Config.tc1 [])) (fun t => (t.trace.length, t.panel.refused))
      = some (6, some .windowBeforeReady) := by decide
theorem test_wire_raset :
    after (exec (.wireRaset 20 59) (live Config.tc1)) (fun t => (t.trace, t.panel.ys, t.panel.ye))
      = some (commandFrame 0x2B [0x00, 0x14, 0x00, 0x3B], 20, 59) := by decide
/-- R74: memory-write before both bounds have been set is refused by the panel. -/
theorem test_wire_ramwr :
    after (exec .wireRamwr (live Config.tc1)) (fun t => (t.trace, t.panel.refused))
      = some (commandFrame 0x2C [], some .memoryWriteBeforeBounds) := by decide
theorem test_wire_slpout :
    after (exec .wireSlpout (fresh Config.tc1 [])) (fun t => (t.trace, t.panel.awake))
      = some (commandFrame 0x11 [], true) := by decide
theorem test_wire_dispon :
    after (exec .wireDispon (fresh Config.tc1 [])) (fun t => (t.trace, t.panel.on))
      = some (commandFrame 0x29 [], true) := by decide
theorem test_wire_conv_x :
    after (exec .wireConvX (fresh Config.tc1 (reads [[1, 2, 3]]))) (·.trace)
      = some [.line (.csT .asserted), .xfer [0xD0, 0, 0] [1, 2, 3], .line (.csT .deasserted)] := by decide
theorem test_wire_conv_y :
    after (exec .wireConvY (fresh Config.tc1 (reads [[1, 2, 3]]))) (·.trace)
      = some [.line (.csT .asserted), .xfer [0x90, 0, 0] [1, 2, 3], .line (.csT .deasserted)] := by decide

/-! ### The step -/

/-- V16: descriptor 0A, and the host stops (P5). -/
theorem test_step_illegal :
    ends (step ((fresh Config.tc1 []).withProgram [[0x0A]])) = some (.illegalOp, true, false, .none, 0)
      ∧ after (step ((fresh Config.tc1 []).withProgram [[0x0A]])) (fun t => (t.hpc, t.hostStopped))
        = some (0, true) := by decide
/-- P4: the state before its operation 0, whose fourth transport call raises TransportFault. -/
def faultProgram : State :=
  (fresh Config.tc2 [.ok [], .ok [], .ok [], .fault 1]).withProgram
    [[0x05, 0, 0, 0, 0, 0, 2, 0, 2, 0xF8, 0], [0x09, 0xFF, 0, 0]]
theorem test_step_fault_trace :
    after (step faultProgram) (·.trace)
      = some
        (commandFrame 0x2A [0x00, 0x00, 0x00, 0x01]
          ++ [.line (.csD .asserted), .line (.dc .command), .write [0x2B], .line (.dc .data)]) := by decide
theorem test_step_fault_state :
    ends (step faultProgram) = some (.transportFault, false, true, .none, 10)
      ∧ after (step faultProgram) (fun t => (t.csD, t.dc, t.hpc, t.hostStopped)) = some (.asserted, .data, 0, true) := by
  decide
/-- The two ways a frame and a descriptor are placed, and where an empty program leaves the host. -/
theorem test_step_placed :
    after (step (State.reset.withFetchWord 8 0x01)) (fun t => (t.trace.length, t.hpc, t.status)) = some (4, 1, .ok)
      ∧ after (step (State.reset.withFetchWord 40 0x27000A002A)) (fun t => (t.trace.length, t.frame, t.hpc))
        = some (6, none, 0)
      ∧ after (step State.reset) (·.hpc) = some 0 := by decide

/-! ### Witnesses: a state and operands that meet a statement's hypotheses, for each clause, at its boundaries -/

/-- The block with a fault recorded. -/
def faulted : State := { State.reset with fault := true, status := .transportFault, csD := .asserted }

/-- Three read-backs, all zero: a sample (0, 0). -/
def noTouchReads : List Answer := reads [[0, 0, 0], [0, 0, 0]]

/-- Six read-backs: V65. -/
def touchReads : List Answer :=
  reads [[0, 0x1F, 0x40], [0, 0x1F, 0x40], [0, 0x20, 0xD0], [0, 0x20, 0xD0], [0, 0x1D, 0xB0], [0, 0x5D, 0xC0]]

/-- Six read-backs: V66. -/
def apartReads : List Answer :=
  reads [[0, 0x1F, 0x40], [0, 0x1F, 0x40], [0, 0x20, 0xD8], [0, 0x1F, 0x40], [0, 0x1F, 0x40], [0, 0x1F, 0x40]]

theorem witness_HostDescriptorRoundTrip :
    (Instr.tNorm 32767 (-32768)).isHost = true ∧ (Instr.tNorm 32767 (-32768)).wellFormed = true := by decide
theorem witness_HostDescriptorRoundTrip_longest :
    (Instr.dText 0 0 0 0 (List.replicate 255 0)).wellFormed = true := by decide +kernel
theorem witness_DecodedDescriptorIsItsEncoding : decode [0x09, 0xFF, 0x00, 0x80] = .ok (.dCpack 255 0 128) := by decide
theorem witness_WireFrameRoundTrip :
    Config.tc1.wireDistinct = true ∧ (Instr.wireRaset 0xFFFF 0).isHost = false := by decide
theorem witness_MalformedDescriptor_empty :
    let s := State.reset.withProgram [[]]
    s.busy = false ∧ s.frame = none ∧ nextDescriptor s = some [] := by decide
theorem witness_MalformedDescriptor_reserved :
    let s := State.reset.withProgram [[0x0A]]
    nextDescriptor s = some [0x0A]
      ∧ ([0x0A] : List Byte).headD 0
        ∉ ([0x01, 0x02, 0x03, 0x04, 0x05, 0x06, 0x07, 0x08, 0x09, 0x10, 0x11, 0x12] : List Byte) := by decide
theorem witness_MalformedDescriptor_length :
    ([0x01, 0x00] : List Byte).length ≠ descriptorLength [0x01, 0x00]
      ∧ ([0x03, 0x36] : List Byte).length ≠ descriptorLength [0x03, 0x36] := by decide
theorem witness_MalformedDescriptor_none :
    let s := State.reset.withProgram [[0x03, 0x36, 0x00]]
    nextDescriptor s = some [0x03, 0x36, 0x00] ∧ [0x03, 0x36, 0x00] ≠ ([] : List Byte)
      ∧ ([0x03, 0x36, 0x00] : List Byte).length = descriptorLength [0x03, 0x36, 0x00] := by decide
theorem witness_StepRunsTheDescriptor :
    let s := State.reset.withProgram [[0x01]]
    s.busy = false ∧ s.frame = none ∧ nextDescriptor s = some [0x01] ∧ decode [0x01] = .ok .dReset := by decide
theorem witness_StepRunsTheFrame :
    let s := { State.reset with frame := some ⟨.panel, [0x2C]⟩ }
    s.busy = false ∧ s.frame = some ⟨.panel, [0x2C]⟩ ∧ decodeFrame s.cfg .panel [0x2C] = .ok .wireRamwr := by decide
theorem witness_HostIndex_idle : nextDescriptor State.reset = none ∧ State.reset.busy = false := by decide
theorem witness_HostIndex_ok :
    after (step (State.reset.withProgram [[0x01]])) (fun t => (t.busy, t.status)) = some (false, .ok) := by decide
theorem witness_HostIndex_refused :
    after (step (State.reset.withProgram [[0x00]])) (fun t => (t.busy, t.status)) = some (false, .illegalOp) := by
  decide
theorem witness_HostIndex_stalled :
    after (step ((fresh Config.tc1 [.stall 0]).withProgram [[0x02]])) (·.busy) = some true := by decide
theorem witness_BusyBlockHasNoMove : ({ State.reset with busy := true } : State).busy = true := by decide
theorem witness_ConstructionAndResetValues :
    State.construct Config.tc1 = some State.reset
      ∧ (State.construct { Config.tc1 with panelW := 32767, panelH := 1, chunk := 1 }).isSome = true
      ∧ State.construct { Config.tc1 with panelW := 32768 } = none
      ∧ State.construct { Config.tc1 with panelH := 0 } = none
      ∧ State.construct { Config.tc1 with chunk := 0 } = none
      ∧ State.construct { Config.tc1 with opRaset := 0x2A } = none
      ∧ State.construct { Config.tc1 with calX1 := 200 } = none
      ∧ State.construct { Config.tc1 with calY1 := 32768 } = none
      ∧ State.construct { Config.tc1 with font := [] } = none := by decide +kernel
theorem witness_FillWindow : Config.tc1.valid = true ∧ (0 : Int) ≤ 0 ∧ (-32768 : Int) ≤ 0 := by decide +kernel
theorem witness_RasterPixelBytes : (glyphOf Config.tc1 0x41).length = 8 ∧ 7 < 8 := by decide +kernel
theorem witness_Reading_rejected : 4096 ≤ reading [0, 0x83, 0x20] ∧ 4096 = reading [0, 0x80, 0x00] := by decide
theorem witness_RangeFilter :
    (100 ≤ 100 ∧ 4000 ≤ 4000) ∧ ¬ (100 ≤ 99) ∧ ¬ (4001 ≤ 4000) ∧ rangeFilter 99 2000 = (0, 0)
      ∧ rangeFilter 2000 4001 = (0, 0) ∧ rangeFilter 100 4000 = (100, 4000) := by decide
theorem witness_Normalize_upright :
    Config.tc1.valid = true ∧ Config.tc1.calX0 < Config.tc1.calX1 ∧ Config.tc1.calY0 < Config.tc1.calY1 := by
  decide +kernel
theorem witness_Normalize_inverted :
    Config.tc3.valid = true ∧ Config.tc3.calX1 < Config.tc3.calX0 ∧ Config.tc3.calY1 < Config.tc3.calY0 := by
  decide +kernel
theorem witness_ResetPulse_with_line : State.reset.busy = false ∧ State.reset.cfg.hasRst = true := by decide
theorem witness_ResetPulse_without_line :
    (fresh Config.tc2 []).busy = false ∧ (fresh Config.tc2 []).cfg.hasRst = false := by decide
theorem witness_InitSequenceCompletes :
    busReady (writeCount (initFrames State.reset.cfg)) State.reset := ⟨rfl, rfl, rfl⟩
theorem witness_InitSequence_live :
    after (exec .dInit State.reset) (fun t => (t.panel.refused, t.panel.ready, t.panel.awake, t.panel.on))
      = some (none, true, true, true) := by decide
theorem witness_RawCommandCompletes : busReady 2 (fresh Config.tc1 [.ok [], .ok []]) := ⟨rfl, rfl, rfl⟩
theorem witness_SetWindowCompletes : busReady 5 (fresh Config.tc1 []) := ⟨rfl, rfl, rfl⟩
theorem witness_FillRectCompletes :
    (fresh Config.tc2 []).cfg.valid = true
      ∧ busReady (writeCount (displayFrames Config.tc2 (.dFillrect 1 1 3 3 0x07E0))) (fresh Config.tc2 []) :=
  ⟨by decide +kernel, rfl, rfl, rfl⟩
theorem witness_GlyphCompletes :
    ((0 : Int) ≤ 65528 ∧ (65528 : Int) + 7 ≤ 65535) ∧ busReady 6 (fresh Config.tc1 []) :=
  ⟨by decide, rfl, rfl, rfl⟩
theorem witness_TextCompletes :
    ((0 : Int) ≤ 65520 ∧ (65520 : Int) + 8 * (([0x69] : List Byte).length : Int) + 7 ≤ 65535)
      ∧ busReady (6 * 2) (fresh Config.tc1 []) :=
  ⟨by decide, rfl, rfl, rfl⟩
theorem witness_SampleCompletes : busReady 2 (fresh Config.tc1 noTouchReads) := ⟨rfl, rfl, rfl⟩
theorem witness_TouchAbsentCompletes :
    busReady 2 (fresh Config.tc1 noTouchReads) ∧ answerSample (fresh Config.tc1 noTouchReads) 0 = (0, 0) :=
  ⟨⟨rfl, rfl, rfl⟩, by decide⟩
/-- V65: the three tested differences are exactly 50. -/
theorem witness_TouchPipeline_point :
    busReady 6 (fresh Config.tc1 touchReads) ∧ answerSample (fresh Config.tc1 touchReads) 0 = (1000, 1000)
      ∧ answerSample (fresh Config.tc1 touchReads) 2 = (1050, 1050)
      ∧ answerSample (fresh Config.tc1 touchReads) 4 = (950, 3000) :=
  ⟨⟨rfl, rfl, rfl⟩, by decide, by decide, by decide⟩
/-- V66: 51. -/
theorem witness_TouchPipeline_apart :
    busReady 6 (fresh Config.tc1 apartReads) ∧ answerSample (fresh Config.tc1 apartReads) 0 ≠ (0, 0)
      ∧ 50 < (((answerSample (fresh Config.tc1 apartReads) 0).1 : Int)
          - (answerSample (fresh Config.tc1 apartReads) 2).1).natAbs :=
  ⟨⟨rfl, rfl, rfl⟩, by decide, by decide⟩
theorem witness_ColourPack_and_Normalize : State.reset.busy = false ∧ faulted.busy = false := by decide
theorem witness_WireFramesComplete :
    busReady 2 State.reset ∧ busReady 1 State.reset ∧ (0x2C : Byte) = State.reset.cfg.opRamwr
      ∧ (0xD0 : Byte) = State.reset.cfg.opConvX :=
  ⟨⟨rfl, rfl, rfl⟩, ⟨rfl, rfl, rfl⟩, rfl, rfl⟩
theorem witness_OperandRangeRefused :
    State.reset.busy = false ∧ ((-1 : Int) < 0 ∧ (65535 : Int) < 65536)
      ∧ ((65535 : Int) < 65529 + 7) ∧ (65535 : Int) < 65521 + 8 * (([0x69] : List Byte).length : Int) + 7 := by decide
theorem witness_CommandFrameFaults_opcode :
    let s := fresh Config.tc1 [.fault 1]
    s.busy = false ∧ s.fault = false ∧ s.env = .fault 1 :: [] := by decide
theorem witness_CommandFrameFaults_payload :
    let s := fresh Config.tc1 [.ok [], .fault 1]
    s.busy = false ∧ s.fault = false ∧ s.env = .ok [] :: .fault 1 :: [] := by decide
theorem witness_DisplayFault :
    (Instr.dSetwin 0 0 1 1).target = .panel
      ∧ after (exec (.dSetwin 0 0 1 1) (fresh Config.tc1 [.ok [], .fault 2])) (·.fault) = some true := by decide
theorem witness_TouchFault :
    Instr.tSample.target = .digitizer
      ∧ after (exec .tSample (fresh Config.tc1 [.ok [0, 0x3E, 0x80], .fault 0])) (·.fault) = some true := by decide
theorem witness_StalledOperationHangs :
    after (exec .dInit (fresh Config.tc1 [.ok [], .stall 1])) (·.busy) = some true := by decide
theorem witness_TransportRefusedAfterFault :
    faulted.busy = false ∧ faulted.fault = true ∧ faulted.cfg.valid = true
      ∧ ((0 : Int) ≤ 65520 ∧ (65520 : Int) + 8 * (([0x69] : List Byte).length : Int) + 7 ≤ 65535) := by decide +kernel
theorem witness_EndWritesTheFlags :
    ends (exec (.dCpack 1 2 3) State.reset) = some (.ok, false, false, .colour, 0)
      ∧ ends (exec (.dSetwin 65536 0 0 0) State.reset) = some (.operandRange, true, false, .none, 0)
      ∧ ends (exec (.dWrcmd 0 []) (fresh Config.tc1 [.fault 0])) = some (.transportFault, false, true, .none, 2) :=
  ⟨by decide, by decide, by decide⟩
theorem witness_FaultAndRefusedAreSticky :
    faulted.fault = true ∧ after (step faulted) (·.fault) = some true
      ∧ after (step ({ State.reset with refused := true }.withProgram [[0x01]])) (·.refused) = some true := by decide
theorem witness_ConfigurationAndTraceKept : after (step (State.reset.withProgram [[0x01]])) (·.busy) = some false := by
  decide
theorem witness_DisplayFrameCondition :
    (Instr.dWrcmd 0x36 [0x48]).target = .panel
      ∧ after (exec (.dWrcmd 0x36 [0x48]) State.reset) (·.status) = some .ok := by decide
theorem witness_TouchFrameCondition :
    Instr.tGettouch.target = .digitizer
      ∧ after (exec .tGettouch (fresh Config.tc1 touchReads)) (·.status) = some .ok := by decide
theorem witness_WindowCommandsStoreNothing :
    after (exec (.dSetwin 0 0 7 7) (live Config.tc2)) (·.panel.refused) = some none
      ∧ after (exec (.wireCaset 0 7) (live Config.tc2)) (·.panel.refused) = some none := by decide
theorem witness_FillStoresOnlyInItsWindow :
    (live Config.tc2).cfg.valid = true ∧ Memory.wf (live Config.tc2).panel.gram = true
      ∧ after (exec (.dFillrect 6 6 5 5 0xF800) (live Config.tc2)) (·.panel.refused) = some none := by decide +kernel
theorem witness_TextStoresOnlyInItsStrip :
    after (exec (.dGlyph 0x41 0 0 1 2) (live Config.tc2)) (·.panel.refused) = some none
      ∧ after (exec (.dText 0 0 1 2 [0x41]) (live Config.tc2)) (·.panel.refused) = some none
      ∧ after (exec (.dTextd 0 0 1 [0x41]) (live Config.tc2)) (·.panel.refused) = some none := by decide +kernel
theorem witness_RawCommands_other :
    (0x36 : Byte) ≠ Config.tc2.opRamwr
      ∧ after (exec (.dWrcmd 0x36 [0x48]) (live Config.tc2)) (·.panel.refused) = some none := by decide
/-- A memory-write with one pixel, into a window set before. -/
theorem witness_RawCommands_memory_write :
    let s := { State.resetWith Config.tc2 with panel := { livePanel with colsSet := true, rowsSet := true } }
    after (exec (.dWrcmd 0x2C [0xF8, 0x00]) s) (fun t => (t.panel.refused, t.panel.pixel 0 0))
      = some (none, some 0xF800) := by decide +kernel
theorem witness_RawCommands_init :
    (State.resetWith Config.tc2).panel.ready = false ∧ (∀ e ∈ Config.tc2.initTable, e.op ≠ Config.tc2.opRamwr)
      ∧ after (exec .dInit (State.resetWith Config.tc2)) (·.panel.refused) = some none := by decide
/-- A fault recorded, with CS_D asserted as R232 leaves it. -/
theorem witness_StepKeepsTheInvariant :
    Inv faulted ∧ after (step (faulted.withProgram [[0x09, 1, 2, 3]])) (·.status) = some .ok := by
  refine ⟨⟨by decide +kernel, ⟨by decide +kernel, by decide +kernel, by decide⟩, ⟨by decide, fun _ h => nomatch h⟩, ?_, ?_, rfl, fun _ h => nomatch h⟩, by decide⟩
  · exact ⟨fun _ => rfl, fun h => (by cases h), fun h => (by cases h), fun _ => rfl⟩
  · exact ⟨fun h => (by cases h), fun h => (by cases h)⟩
theorem witness_AddressBytes :
    Config.tc1.valid = true
      ∧ ({ livePanel with cmd := some 0x2A } : Panel).cmd = some Config.tc1.opCaset
      ∧ ({ livePanel with cmd := some 0x2B } : Panel).cmd = some Config.tc1.opRaset
      ∧ livePanel.refused = none ∧ livePanel.args = [] := by decide +kernel
theorem witness_PanelRefuses :
    livePanel.cmd = none ∧ ({ livePanel with half := some 0 } : Panel).half ≠ none ∧ livePanel.colsSet = false := by
  decide
theorem witness_PanelRefuses_pixel :
    let p := { livePanel with cmd := some 0x2C, streaming := true, half := some 0xF8, xe := 240 }
    p.cmd = some Config.tc1.opRamwr ∧ p.streaming = true ∧ p.half = some 0xF8 ∧ Config.tc1.panelW ≤ p.xe.toNat := by
  decide
theorem witness_PanelRefuses_fifth :
    let p := { livePanel with cmd := some 0x2A, args := [0, 0, 0, 7] }
    p.refused = none ∧ p.cmd = some Config.tc1.opCaset ∧ 4 ≤ p.args.length := by decide
theorem witness_PanelRefuses_before_init :
    (Panel.powerUp Config.tc1).ready = false ∧ (Panel.powerUp Config.tc1).refused = none
      ∧ (0x2A : Byte) = Config.tc1.opCaset := by decide
/-- The last column and row of TC1, the pixel split between two data transactions. -/
theorem witness_WindowThenPixels :
    Config.tc1.valid = true ∧ livePanel.takesWindow ∧ Memory.wf livePanel.gram = true ∧ 239 < Config.tc1.panelW
      ∧ 319 < Config.tc1.panelH ∧ ([0xF81F] : List Half).length = (239 - 239 + 1) * (319 - 319 + 1)
      ∧ ([[0xF8], [0x1F]] : List (List Byte)).flatten = ([0xF81F] : List Half).flatMap be16 :=
  ⟨by decide +kernel, ⟨rfl, rfl, rfl, rfl⟩, rfl, by decide, by decide, rfl, by decide⟩
theorem witness_FillRectShowsTheRectangle :
    (live Config.tc2).cfg.valid = true ∧ Memory.wf (live Config.tc2).panel.gram = true
      ∧ (live Config.tc2).panel.takesWindow
      ∧ busReady (writeCount (displayFrames Config.tc2 (.dFillrect (-3) 7 0 9 0x001F))) (live Config.tc2) :=
  ⟨by decide +kernel, rfl, ⟨rfl, rfl, rfl, rfl⟩, rfl, rfl, rfl⟩
/-- The right and bottom edges of TC1. -/
theorem witness_GlyphShowsItsBitmap :
    (live Config.tc1).cfg.valid = true ∧ (live Config.tc1).panel.takesWindow ∧ 232 + 7 < (live Config.tc1).cfg.panelW
      ∧ 312 + 7 < (live Config.tc1).cfg.panelH ∧ busReady 6 (live Config.tc1) :=
  ⟨by decide +kernel, ⟨rfl, rfl, rfl, rfl⟩, by decide, by decide, rfl, rfl, rfl⟩
theorem witness_ChunkSize : Config.tc2.valid = true ∧ 1 ≤ 1 := by decide +kernel
theorem witness_SleepLowerBounds :
    (busReady 6 (fresh Config.tc1 touchReads) ∧ busReady 6 (fresh Config.tc1 noTouchReads))
      ∧ after (exec .tGettouch (fresh Config.tc1 touchReads)) (fun t => sleepTotal t.trace) = some 4
      ∧ after (exec .tGettouch (fresh Config.tc1 noTouchReads)) (fun t => sleepTotal t.trace) = some 0 :=
  ⟨⟨⟨rfl, rfl, rfl⟩, ⟨rfl, rfl, rfl⟩⟩, by decide, by decide⟩

end Sys2Proof.Tests
end

/-! ## The proofs of the statements of spec/00_scope.md -/

/-! ### Two-byte fields (R12, R118) -/

namespace Sys2Proof

/-- The signed value of two bytes, in terms of the bytes (R118). -/
theorem s16_eq (a b : Byte) :
    s16 a b = if a.toNat * 256 + b.toNat < 32768 then ((a.toNat * 256 + b.toNat : Nat) : Int)
      else ((a.toNat * 256 + b.toNat : Nat) : Int) - 65536 := by
  rw [← unbe16_toNat]
  rfl

/-- Settles O6, from the laws of the field decoders. -/
theorem twoByteFieldValues : Obligations.TwoByteFieldValues := by
  intro a b
  have range : -32768 ≤ s16 a b ∧ s16 a b ≤ 32767 := by simpa [s16InRange] using s16InRange_s16 a b
  exact ⟨unbe16_toNat a b, be16_unbe16 a b, s16_eq a b, range⟩

end Sys2Proof

namespace Sys2Proof.Machine

/-! ### Merging data transactions (R16) -/

/-- A data frame after the data gathered so far is heard as one data frame. -/
theorem Heard.events_gathered_dataFrame (c : Config) (h : Heard) (acc : Option (List Byte)) (bs : List Byte) :
    h.events c (gathered acc ++ dataFrame bs) = h.events c (dataFrame (acc.getD [] ++ bs)) := by
  cases acc with
  | none => rfl
  | some as =>
    have joined : (h.panel.receiveAll c .data as).receiveAll c .data bs = h.panel.receiveAll c .data (as ++ bs) :=
      (Panel.receiveAll_append ..).symm
    exact congrArg (Heard.mk .deasserted .data) joined

/-- The panel's end does not hear where a run of data transactions is cut (R16, R69). -/
theorem Heard.events_mergeData (c : Config) (h : Heard) (acc : Option (List Byte)) (es : List Event) :
    h.events c (mergeData acc es) = h.events c (gathered acc ++ es) := by
  induction acc, es using mergeData.induct generalizing h with
  | case1 acc bs es ih =>
    calc h.events c (mergeData (some (acc.getD [] ++ bs)) es)
        = (h.events c (dataFrame (acc.getD [] ++ bs))).events c es := by rw [ih, Heard.events_append, gathered]
      _ = h.events c (gathered acc ++ (dataFrame bs ++ es)) := by
        rw [← Heard.events_gathered_dataFrame, ← Heard.events_append, List.append_assoc]
  | case2 acc e es hne ih =>
    rw [mergeData.eq_2 acc e es hne, Heard.events_append, Heard.events_append]
    exact ih ((h.events c (gathered acc)).event c e)
  | case3 acc => rw [mergeData, List.append_nil]

/-- Panel-equivalent traces leave the panel's end the same (R16). -/
theorem panelEquivalent.heard {es fs : List Event} (he : panelEquivalent es fs) (c : Config) (h : Heard) :
    h.events c es = h.events c fs := by
  calc h.events c es = h.events c (mergeData none es) := (Heard.events_mergeData c h none es).symm
    _ = h.events c (mergeData none fs) := congrArg (h.events c) he
    _ = h.events c fs := Heard.events_mergeData c h none fs

/-- A command frame is left as it is. -/
theorem mergeData_commandFrame (op : Byte) (pl : List Byte) (es : List Event) :
    mergeData none (commandFrame op pl ++ es) = commandFrame op pl ++ mergeData none es := by
  cases pl <;> rfl

theorem mergeData_windowFrames (c : Config) (x0 y0 x1 y1 : Half) (es : List Event) :
    mergeData none (windowFrames c x0 y0 x1 y1 ++ es) = windowFrames c x0 y0 x1 y1 ++ mergeData none es := by
  simp only [windowFrames, List.append_assoc, mergeData_commandFrame]

/-- Data frames merge, with what has been gathered, into one. -/
theorem mergeData_dataFrames (as : List Byte) (splits : List (List Byte)) :
    mergeData (some as) (splits.flatMap dataFrame) = dataFrame (as ++ splits.flatten) := by
  induction splits generalizing as with
  | nil => simp [mergeData, gathered]
  | cons bs splits ih =>
    rw [List.flatten_cons, ← List.append_assoc]
    exact ih (as ++ bs)

/-- The stream of `n` pixels merges into one data frame, whatever the size of a chunk (R16, R163). -/
theorem mergeData_chunkFrames (color : Half) (chunk n : Nat) :
    mergeData none (chunkFrames color chunk n) = if n = 0 then [] else dataFrame (rep (be16 color) n) := by
  split_ifs with hn
  · simp [hn, chunkFrames, mergeData, gathered]
  · obtain ⟨splits, hframes, hbytes⟩ := chunkFrames_splits color chunk n
    rw [hframes, ← rep_be16, ← hbytes]
    cases splits with
    | nil => simp [hn, be16] at hbytes
    | cons bs splits => exact mergeData_dataFrames bs splits

/-! ### The chunk size (R163) -/

/-- The frames of a text do not depend on the chunk size. -/
theorem textFrames_chunk (c : Config) (k : Nat) (x y : Int) (fg bg : Half) (text : List Byte) :
    textFrames { c with chunk := k } x y fg bg text = textFrames c x y fg bg text := by
  induction text generalizing x with
  | nil => rfl
  | cons ch text ih => exact congrArg (glyphFrames c ch x y fg bg ++ ·) (ih (x + 8))

/-- Only the fill streams by chunks, and its stream merges into the same data frame for every chunk size (R163). -/
theorem displayFrames_chunk_panelEquivalent (c : Config) (k : Nat) (i : Instr) :
    panelEquivalent (displayFrames c i) (displayFrames { c with chunk := k } i) := by
  cases i with
  | dFillrect x y w h color =>
    have window : ∀ x0 y0 x1 y1 : Half,
        windowFrames { c with chunk := k } x0 y0 x1 y1 = windowFrames c x0 y0 x1 y1 := fun _ _ _ _ => rfl
    have rect : fillRect { c with chunk := k } x y w h = fillRect c x y w h := rfl
    simp only [panelEquivalent, displayFrames, window, rect]
    split_ifs
    · rfl
    · simp only [mergeData_windowFrames, mergeData_chunkFrames]
  | dText x y fg bg text => simp only [panelEquivalent, displayFrames, textFrames_chunk]
  | dTextd x y fg text => simp only [panelEquivalent, displayFrames, textFrames_chunk]
  | _ => rfl

/-- The panel receives by the opcodes and the panel's size, not by the chunk size (R69). -/
theorem Heard.events_chunk (c : Config) (k : Nat) (h : Heard) (es : List Event) :
    h.events { c with chunk := k } es = h.events c es := rfl

/-- Settles O58: merging makes the fill's stream one data frame for every chunk size, and the panel's end hears a
trace as it hears its merged form. -/
theorem chunkSizeIsInvisibleToThePanel : Obligations.ChunkSizeIsInvisibleToThePanel := by
  intro c k i h _ _
  have equivalent := displayFrames_chunk_panelEquivalent c k i
  have heard : h.events c (displayFrames c i)
      = h.events { c with chunk := k } (displayFrames { c with chunk := k } i) :=
    (equivalent.heard c h).trans (Heard.events_chunk c k h _).symm
  exact ⟨equivalent, congrArg Heard.panel heard⟩

end Sys2Proof.Machine

/-! ### Construction (R7, R260) -/

namespace Sys2Proof

theorem Config.calInRange_iff (v : Int) : Config.calInRange v = true ↔ -32768 ≤ v ∧ v ≤ 32767 := by
  simp [Config.calInRange]

theorem Config.fontOk_iff (f : List (List Byte)) :
    Config.fontOk f = true ↔ f.length = 256 ∧ ∀ g ∈ f, g.length = 8 := by
  simp [Config.fontOk]

end Sys2Proof

namespace Sys2Proof.Machine

/-- Construction succeeds exactly for a legal configuration (R7). -/
theorem construct_isSome (c : Config) : (State.construct c).isSome = c.valid := by
  cases h : c.valid <;> simp [State.construct, h]

/-- What is constructed is the state after block reset (R260). -/
theorem eq_resetWith_of_construct {c : Config} {s : State} (h : State.construct c = some s) : s = State.resetWith c := by
  unfold State.construct at h
  split_ifs at h
  exact (Option.some.inj h).symm

/-- Settles O11, from the checks of a legal configuration and the state after block reset. -/
theorem constructionAndResetValues : Obligations.ConstructionAndResetValues := by
  intro c
  constructor
  · rw [construct_isSome]
    simp [Config.valid, Config.calInRange_iff, Config.fontOk_iff, and_assoc]
  · intro s h
    rw [eq_resetWith_of_construct h]
    exact ⟨rfl, rfl, rfl, rfl, rfl, rfl, rfl, rfl, rfl, rfl, rfl⟩

end Sys2Proof.Machine

/-! ## The proofs of the statements of spec/10_state.md -/

namespace Sys2Proof.Machine

/-! ### The step (R28, R30, R35) -/

theorem step_busy {s : State} (hb : s.busy = true) : step s = .fault .stalled := by
  simp [step, stepOnce, hb]

theorem step_frame {s : State} {f : WireFrame} (hb : s.busy = false) (hf : s.frame = some f) :
    step s = runFrame f s := by
  simp [step, stepOnce, hb, hf]

theorem step_idle {s : State} (hb : s.busy = false) (hf : s.frame = none) (hn : nextDescriptor s = none) :
    step s = .next s := by
  simp [step, stepOnce, hostTurn, hb, hf, hn]

theorem step_descriptor {s : State} {d : List Byte} (hb : s.busy = false) (hf : s.frame = none)
    (hn : nextDescriptor s = some d) : step s = onNext (issue d s) hostAdvance := by
  simp [step, stepOnce, hostTurn, hb, hf, hn]

theorem issue_ok {d : List Byte} {i : Instr} (hd : decode d = .ok i) (s : State) : issue d s = exec i s := by
  simp [issue, hd]

theorem issue_error {d : List Byte} {e : DecodeError} (hd : decode d = .error e) (s : State) :
    issue d s = rejectDescriptor s := by
  simp [issue, hd]

theorem onNext_next {o : Host.Outcome State Fault Refusal} {f : State → State} {t : State}
    (h : onNext o f = .next t) : ∃ u, o = .next u ∧ t = f u := by
  cases o with
  | next u => cases h; exact ⟨u, rfl, rfl⟩
  | fault r => cases h
  | refused r => cases h

theorem runFrame_next {f : WireFrame} {s t : State} (h : runFrame f s = .next t) :
    ∃ i u, exec i s = .next u ∧ t = clearFrame u := by
  unfold runFrame at h
  split at h
  · obtain ⟨u, hu, rfl⟩ := onNext_next h
    exact ⟨_, u, hu, rfl⟩
  · cases h

/-- A descriptor is taken only by a host that has not stopped (R30). -/
theorem hostStopped_of_nextDescriptor {s : State} {d : List Byte} (h : nextDescriptor s = some d) :
    s.hostStopped = false := by
  unfold nextDescriptor at h
  split_ifs at h with hs
  exact Bool.eq_false_of_not_eq_true hs

/-- The ways a step comes out in a next state: the host is idle, it issues a descriptor, or a frame runs. -/
theorem step_next {s t : State} (h : step s = .next t) :
    t = s ∨ (∃ d u, issue d s = .next u ∧ t = hostAdvance u) ∨ ∃ i u, exec i s = .next u ∧ t = clearFrame u := by
  cases hb : s.busy with
  | true => rw [step_busy hb] at h; cases h
  | false =>
    cases hf : s.frame with
    | some f => rw [step_frame hb hf] at h; exact .inr (.inr (runFrame_next h))
    | none =>
      cases hn : nextDescriptor s with
      | none => rw [step_idle hb hf hn] at h; cases h; exact .inl rfl
      | some d =>
        rw [step_descriptor hb hf hn] at h
        obtain ⟨u, hu, rfl⟩ := onNext_next h
        exact .inr (.inl ⟨d, u, hu, rfl⟩)

/-- Settles O7, from the host's turn and the issue of a descriptor that decodes. -/
theorem stepRunsTheDescriptor : Obligations.StepRunsTheDescriptor := by
  intro s d i hb hf hn hd
  rw [step_descriptor hb hf hn, issue_ok hd]

/-- Settles O10, from the envelope and the frame runner, which both ask BUSY first. -/
theorem busyBlockHasNoMove : Obligations.BusyBlockHasNoMove :=
  fun _ hb => ⟨fun i => exec_busy i hb, step_busy hb⟩

/-! ### The codes (R25, R27) -/

/-- Settles O12, by evaluating the code tables. -/
theorem statusAndResultCodes : Obligations.StatusAndResultCodes :=
  ⟨⟨rfl, rfl, rfl, rfl⟩, rfl, rfl, rfl, rfl, rfl⟩

/-! ### What follows an accepted instruction (R21, R26, R30, R34) -/

/-- What holds of every state that an instruction or a rejected descriptor comes out in. -/
structure Follows (s u : State) : Prop where
  cfg : u.cfg = s.cfg
  host : sameHost s u
  trace : ∃ es : List Event, u.trace = s.trace ++ es
  fault : u.fault = s.fault ∨ (u.fault = true ∧ u.status = .transportFault)
  refused : u.refused = s.refused ∨ (u.refused = true ∧ (u.status = .operandRange ∨ u.status = .illegalOp))

theorem faultAfter_cases (st : Status) (b : Bool) :
    faultAfter st b = b ∨ (faultAfter st b = true ∧ st = .transportFault) := by
  cases st <;> simp

theorem refusedAfter_cases (st : Status) (b : Bool) :
    refusedAfter st b = b ∨ (refusedAfter st b = true ∧ (st = .operandRange ∨ st = .illegalOp)) := by
  cases st <;> simp

/-- A state that no `end(s)` has written follows. -/
theorem Follows.of_kept {s u : State} (h : kept { s with busy := true } u) : Follows s u := by
  obtain ⟨hcfg, -, hfault, hrefused, -, hhost, -, htrace⟩ := h
  exact ⟨hcfg, hhost, htrace, .inl hfault, .inl hrefused⟩

/-- So does what `end(s)` makes of it (R140). -/
theorem Follows.endOp_of_kept {s u : State} (h : kept { s with busy := true } u) (st : Status) (v : Result) :
    Follows s (endOp st v u) := by
  obtain ⟨hcfg, -, hfault, hrefused, -, hhost, -, htrace⟩ := h
  refine ⟨?_, ?_, ?_, ?_, ?_⟩
  · simpa using hcfg
  · simpa [sameHost] using hhost
  · simpa using htrace
  · simpa [hfault] using faultAfter_cases st s.fault
  · simpa [hrefused] using refusedAfter_cases st s.refused

theorem exec_follows {i : Instr} {s u : State} (h : exec i s = .next u) : Follows s u := by
  obtain ⟨st, v, w, hw, rfl⟩ | ⟨-, w, hw, rfl⟩ | hu := exec_next_kept h
  · exact .endOp_of_kept hw st v
  · obtain ⟨hcfg, hhost, htrace, hfault, hrefused⟩ := Follows.of_kept hw
    exact ⟨hcfg, hhost, htrace, hfault, hrefused⟩
  · exact .of_kept hu

theorem rejectDescriptor_follows {s u : State} (h : rejectDescriptor s = .next u) : Follows s u := by
  obtain ⟨-, ⟨v, w, hw, rfl⟩ | ⟨st, w, hw, rfl⟩ | hw⟩ := operation_next h
  · cases hw
  · cases hw
    exact .endOp_of_kept (kept_refl _) _ _
  · cases hw

theorem issue_follows {d : List Byte} {s u : State} (h : issue d s = .next u) : Follows s u := by
  cases hd : decode d with
  | ok i => rw [issue_ok hd] at h; exact exec_follows h
  | error e => rw [issue_error hd] at h; exact rejectDescriptor_follows h

/-- What a step comes out in agrees, but for the host's side, with a state that follows. -/
theorem step_follows {s t : State} (h : step s = .next t) :
    ∃ u, Follows s u ∧ t.cfg = u.cfg ∧ t.trace = u.trace ∧ t.status = u.status ∧ t.fault = u.fault
      ∧ t.refused = u.refused := by
  obtain rfl | ⟨d, u, hu, rfl⟩ | ⟨i, u, hu, rfl⟩ := step_next h
  · exact ⟨t, ⟨rfl, ⟨rfl, rfl, rfl, rfl⟩, ⟨[], by simp⟩, .inl rfl, .inl rfl⟩, rfl, rfl, rfl, rfl, rfl⟩
  · exact ⟨u, issue_follows hu, by simp⟩
  · exact ⟨u, exec_follows hu, by simp⟩

/-- Settles O43, from what `end(s)` writes to FAULT and REFUSED. -/
theorem faultAndRefusedAreSticky : Obligations.FaultAndRefusedAreSticky := by
  intro s t h
  obtain ⟨u, hu, -, -, hstatus, hfault, hrefused⟩ := step_follows h
  rw [hstatus, hfault, hrefused]
  refine ⟨?_, ?_, ?_, ?_⟩
  · rcases hu.fault with e | ⟨e, -⟩ <;> simp [e]
  · rcases hu.refused with e | ⟨e, -⟩ <;> simp [e]
  · rcases hu.fault with e | ⟨-, est⟩
    · exact fun hf => .inl (e ▸ hf)
    · exact fun _ => .inr est
  · rcases hu.refused with e | ⟨-, est⟩
    · exact fun hr => .inl (e ▸ hr)
    · exact fun _ => .inr est

/-- Settles O44, from what every instruction keeps. -/
theorem configurationAndTraceKept : Obligations.ConfigurationAndTraceKept := by
  intro s t h
  obtain ⟨u, hu, hcfg, htrace, -, -, -⟩ := step_follows h
  rw [hcfg, htrace]
  exact ⟨hu.cfg, hu.trace⟩

/-! ### The host's index (R30, R271) -/

theorem hostAdvance_of_busy {t : State} (hb : t.busy = true) : hostAdvance t = t := by
  simp [hostAdvance, hb]

theorem hostAdvance_of_ok {t : State} (hb : t.busy = false) (hst : t.status = .ok) :
    hostAdvance t = { t with hpc := t.hpc + 1 } := by
  simp [hostAdvance, hb, hst]

theorem hostAdvance_of_not_ok {t : State} (hb : t.busy = false) (hst : t.status ≠ .ok) :
    hostAdvance t = { t with hostStopped := true } := by
  simp [hostAdvance, hb, hst]

/-- Settles O9, from what follows an issued descriptor and the host's own move. -/
theorem hostIndexCountsOkOperations : Obligations.HostIndexCountsOkOperations := by
  intro s hb hf
  refine ⟨step_idle hb hf, fun d t hn h => ?_⟩
  rw [step_descriptor hb hf hn] at h
  obtain ⟨u, hu, rfl⟩ := onNext_next h
  obtain ⟨hprogram, hhpc, hstopped, -⟩ := (issue_follows hu).host
  rw [hostStopped_of_nextDescriptor hn] at hstopped
  rw [hostAdvance_program, hostAdvance_busy, hostAdvance_status]
  refine ⟨hprogram, fun hb' hst => ?_, fun hb' hst => ?_, fun hb' => ?_⟩
  · rw [hostAdvance_of_ok hb' hst]
    exact ⟨congrArg (· + 1) hhpc, hstopped⟩
  · rw [hostAdvance_of_not_ok hb' hst]
    exact ⟨hhpc, rfl⟩
  · rw [hostAdvance_of_busy hb']
    exact ⟨hhpc, hstopped⟩

/-! ### The invariant after block reset (R35) -/

theorem Inv_resetWith {c : Config} (h : c.valid = true) : Inv (State.resetWith c) := by
  refine ⟨h, ?sizes, ?lines, ?flags, ?results, ?gram⟩
  case sizes => simp [workSizes, State.resetWith, Work.unspecified]
  case lines => simp [linesExclusive, State.resetWith]
  case flags => simp [flagsAgree, State.resetWith]
  case results => simp [resultsInRange, State.resetWith]
  case gram => simp [gramOnPanel, State.resetWith, Panel.powerUp, Panel.unknown, Memory.wf]

theorem tc1_valid : Config.tc1.valid = true := by decide +kernel

/-- Settles O52, one conjunct of the invariant at a time. -/
theorem resetHasTheInvariant : Obligations.ResetHasTheInvariant :=
  ⟨fun _ => Inv_resetWith, Inv_resetWith tc1_valid⟩

/-! ### How a run ends -/

/-- The statuses a run can be ended with, and the values it can return. -/
def Run.Ends {α : Type} (E : Status → Prop) (R : α → Prop) : Run α → Prop
  | .done a _ => R a
  | .ended st _ => E st
  | .stalled _ => True
  | .noMeaning _ => True

theorem Run.Ends.andThen {α β : Type} {E : Status → Prop} {Q : α → Prop} {R : β → Prop} {r : Run α}
    {k : α → State → Run β} (hr : r.Ends E Q) (hk : ∀ a s, (k a s).Ends E R) : (r.andThen k).Ends E R := by
  cases r with
  | done a s => exact hk a s
  | ended st s => exact hr
  | stalled s => trivial
  | noMeaning x => trivial

/-- A primitive ends a run only by a TransportFault (R13, R231). -/
theorem runAct_ends {E : Status → Prop} (hE : E .transportFault) (a : Act) (s : State) :
    (runAct a s).Ends E fun _ => True := by
  cases a with
  | line d => trivial
  | sleep n => trivial
  | work w => trivial
  | write bs =>
    unfold runAct busWrite
    split_ifs
    · trivial
    · cases nextAnswer s with
      | ok q => trivial
      | fault k => exact hE
      | stall k => trivial
  | xfer bs =>
    unfold runAct busXfer
    split_ifs
    · trivial
    · cases nextAnswer s with
      | ok q => trivial
      | fault k => exact hE
      | stall k => trivial

theorem runActs_ends {E : Status → Prop} (hE : E .transportFault) (acts : List Act) (s : State) :
    (runActs acts s).Ends E fun _ => True := by
  induction acts generalizing s with
  | nil => trivial
  | cons a as ih => exact (runAct_ends hE a s).andThen fun _ t => (ih t).andThen fun _ _ => trivial

theorem Run.All.and {α : Type} {P Q : State → Prop} {r : Run α} (hP : r.All P) (hQ : r.All Q) :
    r.All fun s => P s ∧ Q s := by
  cases r with
  | done a s => exact ⟨hP, hQ⟩
  | ended st s => exact ⟨hP, hQ⟩
  | stalled s => exact ⟨hP, hQ⟩
  | noMeaning x => trivial

/-- `exec_next_of_all` with how the instruction ended, its status and its result, and with what every instruction
keeps. -/
theorem exec_next_of_ends {P : State → Prop} {E : Status → Prop} {R : Result → Prop} {i : Instr} {s t : State}
    (hbody : (hostBody i { s with busy := true }).All P)
    (hacts : (runActs (frameActs s.cfg i) { s with busy := true }).All P)
    (hends : (hostBody i { s with busy := true }).Ends E R) (hE : E .transportFault) (h : exec i s = .next t) :
    (∃ v u, (kept { s with busy := true } u ∧ P u) ∧ R v ∧ t = endOp .ok v u)
      ∨ (∃ st u, (kept { s with busy := true } u ∧ P u) ∧ E st ∧ t = endOp st .none u)
      ∨ (∃ u, (kept { s with busy := true } u ∧ P u) ∧ t = { u with busy := false })
      ∨ (kept { s with busy := true } t ∧ P t) := by
  replace hbody := (hostBody_kept i (kept_refl { s with busy := true })).and hbody
  replace hacts := (runActs_all (fun a _ _ => runAct_kept a) (kept_refl { s with busy := true })).and hacts
  cases hi : i.isHost with
  | true =>
    rw [exec_host hi] at h
    obtain ⟨-, ⟨v, u, hu, rfl⟩ | ⟨st, u, hu, rfl⟩ | hu⟩ := operation_next h
    · rw [hu] at hbody hends; exact .inl ⟨v, u, hbody, hends, rfl⟩
    · rw [hu] at hbody hends; exact .inr (.inl ⟨st, u, hbody, hends, rfl⟩)
    · rw [hu] at hbody; exact .inr (.inr (.inr hbody))
  | false =>
    have hfault := runActs_ends hE (frameActs s.cfg i) { s with busy := true }
    rw [exec_frame hi] at h
    obtain ⟨-, ⟨r, u, hu, rfl⟩ | ⟨st, u, hu, rfl⟩ | hu⟩ := frameAlone_next h
    · rw [hu] at hacts; exact .inr (.inr (.inl ⟨u, hacts, rfl⟩))
    · rw [hu] at hacts hfault; exact .inr (.inl ⟨st, u, hacts, hfault, rfl⟩)
    · rw [hu] at hacts; exact .inr (.inr (.inr hacts))

theorem resultAfter_none (st : Status) : resultAfter st .none = .none := by
  cases st <;> rfl

/-- A trace that grew by events that are not counted still does so after another such event. -/
theorem grown_append {count : List Event → Nat} (hadd : ∀ es fs, count (es ++ fs) = count es + count fs)
    {old new : List Event} {e : Event} (h : ∃ es, new = old ++ es ∧ count es = 0) (he : count [e] = 0) :
    ∃ es, new ++ [e] = old ++ es ∧ count es = 0 := by
  obtain ⟨es, rfl, hes⟩ := h
  exact ⟨es ++ [e], List.append_assoc .., by rw [hadd, hes, he]⟩

/-! ### The frame of the display operations (R24, R27, R29) -/

/-- A primitive that writes none of the sample registers S1, S2, S3 (R29). -/
def Act.keepsSamples : Act → Bool
  | .work (.s1 _) => false
  | .work (.s2 _) => false
  | .work (.s3 _) => false
  | .work (.window _ _ _ _) => true
  | .work (.tidx _) => true
  | .work (.pcnt _) => true
  | .work (.cbuf _) => true
  | .work (.gbuf _) => true
  | .line _ => true
  | .write _ => true
  | .xfer _ => true
  | .sleep _ => true

/-- Every primitive of a list keeps the sample registers. -/
def samplesKept (acts : List Act) : Bool := acts.all Act.keepsSamples

@[simp] theorem samplesKept_nil : samplesKept [] = true := rfl

@[simp] theorem samplesKept_cons (a : Act) (as : List Act) :
    samplesKept (a :: as) = (a.keepsSamples && samplesKept as) := rfl

@[simp] theorem samplesKept_append (as bs : List Act) :
    samplesKept (as ++ bs) = (samplesKept as && samplesKept bs) := List.all_append

@[simp] theorem cmdXact_samplesKept (op : Byte) (pl : List Byte) : samplesKept (cmdXact op pl) = true := by
  cases pl <;> rfl

@[simp] theorem dataXact_samplesKept (bs : List Byte) : samplesKept (dataXact bs) = true := rfl

@[simp] theorem setWindow_samplesKept (c : Config) (w : Window) : samplesKept (setWindow c w) = true := by
  simp [setWindow, Act.keepsSamples]

@[simp] theorem streamLoop_samplesKept (color : Half) (chunk k n : Nat) :
    samplesKept (streamLoop color chunk k n) = true := by
  induction k generalizing n with
  | zero => unfold streamLoop; split_ifs <;> rfl
  | succ k ih => simp [streamLoop, Act.keepsSamples, ih]

@[simp] theorem fillActs_samplesKept (c : Config) (x y w h : Int) (color : Half) :
    samplesKept (fillActs c x y w h color) = true := by
  unfold fillActs
  simp only
  split_ifs
  · rfl
  · simp [streamColor, Act.keepsSamples]

@[simp] theorem drawGlyph_samplesKept (c : Config) (ch : Byte) (x y : Int) (fg bg : Half) :
    samplesKept (drawGlyph c ch x y fg bg) = true := by
  simp [drawGlyph, Act.keepsSamples]

@[simp] theorem textLoop_samplesKept (c : Config) (x y : Int) (fg bg : Half) (i : Nat) (text : List Byte) :
    samplesKept (textLoop c x y fg bg i text) = true := by
  induction text generalizing i with
  | nil => rfl
  | cons ch text ih => simp [textLoop, Act.keepsSamples, ih]

@[simp] theorem tableActs_samplesKept (i : Nat) (es : List InitEntry) :
    samplesKept (tableActs i es) = true := by
  induction es generalizing i with
  | nil => rfl
  | cons e es ih => simp [tableActs, Act.keepsSamples, ih]

@[simp] theorem initActs_samplesKept (c : Config) : samplesKept (initActs c) = true := by
  simp [initActs, Act.keepsSamples]

theorem frameActs_samplesKept (c : Config) (i : Instr) : samplesKept (frameActs c i) = true := by
  cases i <;> simp [frameActs, convert, Act.keepsSamples]

theorem textBody_cases (x y : Int) (fg bg : Half) (text : List Byte) (t : State) :
    textBody x y fg bg text t = raiseOperandRange t
      ∨ textBody x y fg bg text t = runReturning (textLoop t.cfg x y fg bg 0 text) .none t := by
  unfold textBody
  split_ifs
  · exact .inl rfl
  · exact .inr rfl

/-- Every display operation but D.RESET and D.CPACK is refused by its range test, or runs display primitives that keep
the sample registers, between two changes of the panel's ghost flags, and returns nothing (R141 to R184). -/
theorem hostBody_display {i : Instr} (ht : i.target = .panel) (hr : i ≠ .dReset) (hc : ∀ r g b, i ≠ .dCpack r g b)
    (t : State) :
    hostBody i t = raiseOperandRange t
      ∨ ∃ (acts : List Act) (p : Panel) (f : Panel → Panel), allDisplay acts ∧ samplesKept acts = true
          ∧ hostBody i t = (runActs acts { t with panel := p }).andThen fun _ u =>
              .done .none { u with panel := f u.panel } := by
  cases i with
  | dReset => exact absurd rfl hr
  | dCpack r g b => exact absurd rfl (hc r g b)
  | dInit => exact .inr ⟨_, _, Panel.markReady, initActs_display _, initActs_samplesKept _, rfl⟩
  | dWrcmd op payload => exact .inr ⟨_, _, id, cmdXact_display _ _, cmdXact_samplesKept op payload, rfl⟩
  | dSetwin x0 y0 x1 y1 =>
    by_cases hbad : setwinBad x0 y0 x1 y1 = true
    · exact .inl (if_pos hbad)
    · exact .inr ⟨_, t.panel, id, setWindow_display _ _, setWindow_samplesKept _ _, if_neg hbad⟩
  | dFillrect x y w h color =>
    exact .inr ⟨_, t.panel, id, fillActs_display _ _ _ _ _ _, fillActs_samplesKept _ x y w h color, rfl⟩
  | dGlyph ch x y fg bg =>
    by_cases hbad : glyphBad x y = true
    · exact .inl (if_pos hbad)
    · exact .inr ⟨_, t.panel, id, drawGlyph_display _ _ _ _ _ _, drawGlyph_samplesKept _ ch x y fg bg, if_neg hbad⟩
  | dText x y fg bg chars =>
    exact (textBody_cases x y fg bg chars t).imp_right fun e =>
      ⟨_, t.panel, id, textLoop_display _ _ _ _ _ _ _, textLoop_samplesKept .., e⟩
  | dTextd x y fg chars =>
    exact (textBody_cases x y fg t.cfg.bgDefault chars t).imp_right fun e =>
      ⟨_, t.panel, id, textLoop_display _ _ _ _ _ _ _, textLoop_samplesKept .., e⟩
  | tSample => cases ht
  | tGettouch => cases ht
  | tNorm rawX rawY => cases ht
  | wireConvX => cases ht
  | wireConvY => cases ht
  | _ => exact .inr ⟨[], t.panel, id, allDisplay_nil, rfl, rfl⟩

theorem xferCount_append (es fs : List Event) : xferCount (es ++ fs) = xferCount es + xferCount fs := by
  induction es with
  | nil => simp [xferCount]
  | cons e es ih => cases e <;> simp [xferCount, ih, Nat.add_assoc]

/-- What the display unit's primitives keep besides `kept`: RST, CS_T and the samples; and they exchange nothing with
the digitizer. -/
def displayKept (s t : State) : Prop :=
  t.rst = s.rst ∧ t.csT = s.csT ∧ sameTouchWork s t ∧ ∃ es : List Event, t.trace = s.trace ++ es ∧ xferCount es = 0

theorem displayKept_refl (s : State) : displayKept s s := by simp [displayKept, sameTouchWork, xferCount]

theorem runAct_displayKept {a : Act} (hd : a.display = true) (hk : a.keepsSamples = true) {s t : State}
    (h : displayKept s t) : (runAct a t).All (displayKept s) := by
  obtain ⟨hrst, hcsT, hsamples, htrace⟩ := h
  cases a with
  | line d =>
    cases d with
    | csD v => exact ⟨hrst, hcsT, hsamples, grown_append xferCount_append htrace rfl⟩
    | dc v => exact ⟨hrst, hcsT, hsamples, grown_append xferCount_append htrace rfl⟩
    | rst v => cases hd
    | csT v => cases hd
  | sleep n => exact ⟨hrst, hcsT, hsamples, grown_append xferCount_append htrace rfl⟩
  | work w =>
    cases w with
    | s1 p => cases hk
    | s2 p => cases hk
    | s3 p => cases hk
    | _ => exact ⟨hrst, hcsT, hsamples, htrace⟩
  | write bs =>
    unfold runAct busWrite
    split_ifs
    · trivial
    · cases nextAnswer t with
      | ok q => exact ⟨hrst, hcsT, hsamples, grown_append xferCount_append htrace rfl⟩
      | fault k => exact ⟨hrst, hcsT, hsamples, htrace⟩
      | stall k => exact ⟨hrst, hcsT, hsamples, htrace⟩
  | xfer bs => cases hd

theorem runActs_displayKept {acts : List Act} (hd : allDisplay acts) (hk : samplesKept acts = true)
    {s t : State} (h : displayKept s t) : (runActs acts t).All (displayKept s) :=
  runActs_all (fun a ha _ => runAct_displayKept (hd a ha) (List.all_eq_true.1 hk a ha)) h

theorem hostBody_displayKept {i : Instr} (ht : i.target = .panel) (hr : i ≠ .dReset)
    (hc : ∀ r g b, i ≠ .dCpack r g b) {s t : State} (h : displayKept s t) : (hostBody i t).All (displayKept s) := by
  obtain e | ⟨acts, p, f, hd, hk, e⟩ := hostBody_display ht hr hc t
  · rw [e]; exact h
  · rw [e]
    exact Run.All.andThen (runActs_displayKept hd hk (t := { t with panel := p }) h) (fun _ h => h) fun _ _ h => h

/-- The display operations return nothing. -/
theorem hostBody_display_returns {i : Instr} (ht : i.target = .panel) (hr : i ≠ .dReset)
    (hc : ∀ r g b, i ≠ .dCpack r g b) (t : State) : (hostBody i t).Ends (fun _ => True) (· = .none) := by
  obtain e | ⟨acts, p, f, -, -, e⟩ := hostBody_display ht hr hc t
  · rw [e]; trivial
  · rw [e]
    exact (runActs_ends trivial acts _).andThen fun _ _ => rfl

/-- What both invariants say of a next state that `end(s)` has not written. -/
theorem displayFrame_of_kept {s u : State} (hk : kept { s with busy := true } u)
    (hd : displayKept { s with busy := true } u) :
    u.cfg = s.cfg ∧ u.rst = s.rst ∧ u.csT = s.csT ∧ u.resX = s.resX ∧ u.resY = s.resY ∧ u.resC = s.resC
      ∧ sameTouchWork s u ∧ sameHost s u ∧ ∃ es : List Event, u.trace = s.trace ++ es ∧ xferCount es = 0 := by
  obtain ⟨hcfg, -, -, -, ⟨-, hX, hY, hC⟩, hhost, -, -⟩ := hk
  obtain ⟨hrst, hcsT, hsamples, htrace⟩ := hd
  exact ⟨hcfg, hrst, hcsT, hX, hY, hC, hsamples, hhost, htrace⟩

/-- Settles O45: the primitives keep the frame, and `end(s)` with no result writes none of it. -/
theorem displayFrameCondition : Obligations.DisplayFrameCondition := by
  intro i s t ht hr hc h
  have hbody := hostBody_displayKept ht hr hc (displayKept_refl { s with busy := true })
  have hacts := runActs_displayKept (frameActs_display ht s.cfg) (frameActs_samplesKept s.cfg i)
    (displayKept_refl { s with busy := true })
  obtain ⟨v, u, ⟨hk, hd⟩, rfl, rfl⟩ | ⟨st, u, ⟨hk, hd⟩, -, rfl⟩ | ⟨u, ⟨hk, hd⟩, rfl⟩ | ⟨hk, hd⟩ :=
    exec_next_of_ends hbody hacts (hostBody_display_returns ht hr hc _) trivial h
  · simpa [sameTouchWork, sameHost] using displayFrame_of_kept hk hd
  · simpa [sameTouchWork, sameHost, resultAfter_none] using displayFrame_of_kept hk hd
  · exact displayFrame_of_kept (u := u) hk hd
  · exact displayFrame_of_kept hk hd

/-! ### The frame of the touch operations (R24, R29, R69, R200) -/

/-- Every primitive of a conversion frame is the touch unit's. -/
theorem frameActs_touch {i : Instr} (ht : i.target = .digitizer) (c : Config) :
    ∀ a ∈ frameActs c i, a.touch = true := by
  cases i with
  | tSample => exact fun _ h => nomatch h
  | tGettouch => exact fun _ h => nomatch h
  | tNorm rawX rawY => exact fun _ h => nomatch h
  | wireConvX => exact convert_touch _
  | wireConvY => exact convert_touch _
  | _ => cases ht

/-- What the touch unit's primitives keep besides `kept`: the display unit's lines and working registers, and the
panel; and they write nothing to it. -/
def touchKept (s t : State) : Prop :=
  t.csD = s.csD ∧ t.dc = s.dc ∧ t.rst = s.rst ∧ t.panel = s.panel ∧ sameDisplayWork s t
    ∧ ∃ es : List Event, t.trace = s.trace ++ es ∧ writeCount es = 0

theorem touchKept_refl (s : State) : touchKept s s := by simp [touchKept, sameDisplayWork, writeCount]

theorem runAct_touchKept {a : Act} (ha : a.touch = true) {s t : State} (h : touchKept s t) :
    (runAct a t).All (touchKept s) := by
  obtain ⟨hcsD, hdc, hrst, hpanel, hwork, htrace⟩ := h
  cases a with
  | line d =>
    cases d with
    | csT v => exact ⟨hcsD, hdc, hrst, hpanel, hwork, grown_append writeCount_append htrace rfl⟩
    | csD v => cases ha
    | dc v => cases ha
    | rst v => cases ha
  | sleep n => exact ⟨hcsD, hdc, hrst, hpanel, hwork, grown_append writeCount_append htrace rfl⟩
  | work w =>
    cases w with
    | s1 p => exact ⟨hcsD, hdc, hrst, hpanel, hwork, htrace⟩
    | s2 p => exact ⟨hcsD, hdc, hrst, hpanel, hwork, htrace⟩
    | s3 p => exact ⟨hcsD, hdc, hrst, hpanel, hwork, htrace⟩
    | _ => cases ha
  | xfer bs =>
    unfold runAct busXfer
    split_ifs
    · trivial
    · cases nextAnswer t with
      | ok q => exact ⟨hcsD, hdc, hrst, hpanel, hwork, grown_append writeCount_append htrace rfl⟩
      | fault k => exact ⟨hcsD, hdc, hrst, hpanel, hwork, htrace⟩
      | stall k => exact ⟨hcsD, hdc, hrst, hpanel, hwork, htrace⟩
  | write bs => cases ha

/-- A result that leaves RES_C (R27). -/
def Result.keepsColour : Result → Bool
  | .colour _ => false
  | .none => true
  | .sample _ _ => true
  | .noTouch => true
  | .point _ _ => true

theorem setResult_resC {v : Result} (h : v.keepsColour = true) (s : State) : (setResult v s).resC = s.resC := by
  cases v with
  | colour c => cases h
  | _ => rfl

theorem touchResult_keepsColour (c : Config) (p1 p2 p3 : Nat × Nat) : (touchResult c p1 p2 p3).keepsColour = true := by
  unfold touchResult
  split_ifs <;> rfl

theorem sample_ends {E : Status → Prop} (hE : E .transportFault) (s : State) : (sample s).Ends E fun _ => True :=
  (runActs_ends hE _ s).andThen fun _ _ => trivial

theorem settledSample_ends {E : Status → Prop} (hE : E .transportFault) (s : State) :
    (settledSample s).Ends E fun _ => True :=
  (runActs_ends hE _ s).andThen fun _ t => sample_ends hE t

/-- A touch operation is ended only by a TransportFault, and returns no colour (R203, R204, R207). -/
theorem hostBody_touch_ends {i : Instr} (ht : i.target = .digitizer) (s : State) :
    (hostBody i s).Ends (· = .transportFault) fun v => v.keepsColour = true := by
  have samp : ∀ t, (sample t).Ends (· = .transportFault) fun _ => True := sample_ends rfl
  have settled : ∀ t, (settledSample t).Ends (· = .transportFault) fun _ => True := settledSample_ends rfl
  cases i with
  | tSample => exact (samp s).andThen fun _ _ => rfl
  | tGettouch =>
    refine (samp s).andThen fun p1 t => ?_
    show Run.Ends _ _ (if p1 = (0, 0) then _ else _)
    split_ifs
    · rfl
    · exact (settled _).andThen fun p2 u => (settled _).andThen fun p3 v =>
        touchResult_keepsColour v.cfg p1 p2 p3
  | tNorm rawX rawY => rfl
  | wireConvX => rfl
  | wireConvY => rfl
  | _ => cases ht

/-- What both invariants say of a next state that `end(s)` has not written. -/
theorem touchFrame_of_kept {s u : State} (hk : kept { s with busy := true } u)
    (ht : touchKept { s with busy := true } u) :
    u.cfg = s.cfg ∧ u.csD = s.csD ∧ u.dc = s.dc ∧ u.rst = s.rst ∧ u.panel = s.panel ∧ u.refused = s.refused
      ∧ u.resC = s.resC ∧ sameDisplayWork s u ∧ sameHost s u
      ∧ ∃ es : List Event, u.trace = s.trace ++ es ∧ writeCount es = 0 := by
  obtain ⟨hcfg, -, -, hrefused, ⟨-, -, -, hC⟩, hhost, -, -⟩ := hk
  obtain ⟨hcsD, hdc, hrst, hpanel, hwork, htrace⟩ := ht
  exact ⟨hcfg, hcsD, hdc, hrst, hpanel, hrefused, hC, hwork, hhost, htrace⟩

/-- Settles O46: the primitives keep the frame, and `end(s)` with OK or TransportFault and no colour writes none of
it. -/
theorem touchFrameCondition : Obligations.TouchFrameCondition := by
  intro i s t htarget h
  have hbody := hostBody_all_touch htarget (fun _ ha _ => runAct_touchKept ha) (touchKept_refl { s with busy := true })
  have hacts := runActs_all (fun a ha _ => runAct_touchKept (frameActs_touch htarget s.cfg a ha))
    (touchKept_refl { s with busy := true })
  obtain ⟨v, u, ⟨hk, ht⟩, hv, rfl⟩ | ⟨st, u, ⟨hk, ht⟩, rfl, rfl⟩ | ⟨u, ⟨hk, ht⟩, rfl⟩ | ⟨hk, ht⟩ :=
    exec_next_of_ends hbody hacts (hostBody_touch_ends htarget _) rfl h
  · simpa [sameDisplayWork, sameHost, setResult_resC hv] using touchFrame_of_kept hk ht
  · simpa [sameDisplayWork, sameHost] using touchFrame_of_kept hk ht
  · exact touchFrame_of_kept (u := u) hk ht
  · exact touchFrame_of_kept hk ht

end Sys2Proof.Machine

/-! ## The proofs of the statements of spec/20_memory.md -/

namespace Sys2Proof.Machine

/-! ### What a legal configuration gives (R6, R7) -/

/-- The panel's size is between 1 and 32767 on either axis (R6). -/
theorem panelSize_of_valid {c : Config} (h : c.valid = true) :
    (1 ≤ c.panelW ∧ c.panelW ≤ 32767) ∧ 1 ≤ c.panelH ∧ c.panelH ≤ 32767 := by
  simp only [Config.valid, Bool.and_eq_true, decide_eq_true_eq] at h
  omega

/-- The three window opcodes can be told apart (R7). -/
theorem windowOps_of_valid {c : Config} (h : c.valid = true) :
    c.opCaset ≠ c.opRaset ∧ c.opCaset ≠ c.opRamwr ∧ c.opRaset ≠ c.opRamwr := by
  simp only [Config.valid, Bool.and_eq_true, bne_iff_ne] at h
  tauto

/-- The clipped rectangle of D.FILLRECT lies on the panel and is not empty (R162, R165). -/
theorem fillRect_onPanel {c : Config} (h : c.valid = true) (x y w v : Int) :
    (0 ≤ (fillRect c x y w v).xc ∧ 1 ≤ (fillRect c x y w v).wc
        ∧ (fillRect c x y w v).xc + (fillRect c x y w v).wc ≤ c.panelW)
      ∧ 0 ≤ (fillRect c x y w v).yc ∧ 1 ≤ (fillRect c x y w v).hc
        ∧ (fillRect c x y w v).yc + (fillRect c x y w v).hc ≤ c.panelH := by
  have := panelSize_of_valid h
  simp only [fillRect, clip]
  omega

/-- D.FILLRECT streams no more pixels than the panel has (R29, R163). -/
theorem fillRect_pixels_le {c : Config} (h : c.valid = true) (x y w v : Int) :
    (fillRect c x y w v).pixels ≤ c.panelW * c.panelH := by
  obtain ⟨⟨hx, hw, hxw⟩, hy, hh, hyh⟩ := fillRect_onPanel h x y w v
  have := Int.mul_le_mul (show (fillRect c x y w v).wc ≤ c.panelW by omega)
    (show (fillRect c x y w v).hc ≤ c.panelH by omega) (by omega) (by omega)
  rw [FillRect.pixels, Int.toNat_le]
  exact_mod_cast this

/-! ### What the machine stores: the working registers and the frame memory (R29, R60) -/

/-- A frame memory in canonical form whose bytes all belong to pixels of the panel (R60, R68). -/
def Memory.onPanel (c : Config) (m : Memory) : Prop :=
  Memory.wf m = true
    ∧ ∀ cell ∈ m, ∃ x y : Nat, x < c.panelW ∧ y < c.panelH ∧ (cell.1 = gramAddr x y ∨ cell.1 = gramAddr x y + 1)

theorem Memory.onPanel_nil (c : Config) : Memory.onPanel c [] := ⟨rfl, fun _ h => nomatch h⟩

theorem gramWrite_onPanel {c : Config} {m : Memory} (h : Memory.onPanel c m) {x y : Nat} (hx : x < c.panelW)
    (hy : y < c.panelH) (v : Half) : Memory.onPanel c (gramWrite m x y v) := by
  refine ⟨gramWrite_wf h.1 x y v, fun cell hc => ?_⟩
  obtain rfl | hc := Memory.mem_write hc
  · exact ⟨x, y, hx, hy, .inr rfl⟩
  · obtain rfl | hc := Memory.mem_write hc
    · exact ⟨x, y, hx, hy, .inl rfl⟩
    · exact h.2 cell hc

/-- A byte writes only on the panel (R72). -/
theorem Panel.receive_onPanel {c : Config} {p : Panel} (h : Memory.onPanel c p.gram) (dc : DcLevel) (b : Byte) :
    Memory.onPanel c (p.receive c dc b).gram := by
  obtain e | ⟨r, e⟩ | ⟨-, -, -, -, -, hx, hy, v, e⟩ := Panel.receive_gram c dc p b
  · rwa [e]
  · rw [e]; exact Memory.onPanel_nil c
  · rw [e]; exact gramWrite_onPanel h hx hy v

theorem Panel.listen_onPanel {c : Config} {p : Panel} (h : Memory.onPanel c p.gram) (csD : Select) (dc : DcLevel)
    (bs : List Byte) : Memory.onPanel c (p.listen c csD dc bs).gram := by
  cases csD with
  | deasserted => exact h
  | asserted =>
    show Memory.onPanel c (p.receiveAll c dc bs).gram
    induction bs generalizing p with
    | nil => exact h
    | cons b bs ih => exact ih (Panel.receive_onPanel h dc b)

theorem Panel.onDrive_onPanel {c : Config} {p : Panel} (h : Memory.onPanel c p.gram) (d : Drive) :
    Memory.onPanel c (p.onDrive d).gram := by
  cases d with
  | rst v =>
    cases v with
    | low => exact Memory.onPanel_nil c
    | high => exact h
  | _ => exact h

/-- The working registers have their sizes and the frame memory lies on the panel: what writes can break. -/
def stored (s : State) : Prop := workSizes s ∧ Memory.onPanel s.cfg s.panel.gram

/-- A write to a working register that keeps the registers' sizes (R29). -/
def WorkWrite.fits (c : Config) : WorkWrite → Prop
  | .gbuf bs => bs.length = 128
  | .cbuf bs => bs.length = 2 * c.chunk
  | .pcnt n => n ≤ c.panelW * c.panelH
  | .window _ _ _ _ => True
  | .tidx _ => True
  | .s1 _ => True
  | .s2 _ => True
  | .s3 _ => True

/-- A primitive that keeps the registers' sizes. -/
def Act.fits (c : Config) : Act → Prop
  | .work w => w.fits c
  | .line _ => True
  | .write _ => True
  | .xfer _ => True
  | .sleep _ => True

theorem writeWork_stored {s : State} (h : stored s) {w : WorkWrite} (hw : w.fits s.cfg) :
    stored { s with work := writeWork w s.work } := by
  obtain ⟨⟨hg, hb, hp⟩, hm⟩ := h
  cases w with
  | gbuf bs => exact ⟨⟨hw, hb, hp⟩, hm⟩
  | cbuf bs => exact ⟨⟨hg, hw, hp⟩, hm⟩
  | pcnt n => exact ⟨⟨hg, hb, hw⟩, hm⟩
  | _ => exact ⟨⟨hg, hb, hp⟩, hm⟩

theorem driveLine_stored {s : State} (h : stored s) (d : Drive) : stored (driveLine d s) := by
  refine ⟨?_, ?_⟩
  · simpa [workSizes] using h.1
  · simpa using Panel.onDrive_onPanel h.2 d

theorem runAct_stored {a : Act} {s : State} (ha : a.fits s.cfg) (h : stored s) : (runAct a s).All stored := by
  have delivered : ∀ bs, stored (deliver bs (usedAnswer s)) := fun bs => ⟨h.1, Panel.listen_onPanel h.2 s.csD s.dc bs⟩
  cases a with
  | line d => exact driveLine_stored h d
  | sleep n => exact h
  | work w => exact writeWork_stored h ha
  | write bs =>
    unfold runAct busWrite
    split_ifs
    · trivial
    · cases nextAnswer s with
      | ok q => exact delivered bs
      | fault k => exact delivered (bs.take k)
      | stall k => exact delivered (bs.take k)
  | xfer bs =>
    unfold runAct busXfer
    split_ifs
    · trivial
    · cases nextAnswer s with
      | ok q => exact h
      | fault k => exact h
      | stall k => exact h

theorem runActs_stored {acts : List Act} {s : State} (ha : ∀ a ∈ acts, a.fits s.cfg) (h : stored s) :
    (runActs acts s).All stored := by
  have both := runActs_all (P := fun u => stored u ∧ kept s u) (acts := acts) (s := s)
    (fun a hmem u hu => (runAct_stored (hu.2.1.symm ▸ ha a hmem) hu.1).and (runAct_kept a hu.2))
    ⟨h, kept_refl s⟩
  exact both.mono fun _ hu => hu.1

/-! ### The invariant inside an operation -/

/-- The invariant while an operation runs, at any of its primitives (R61). -/
structure Within (c : Config) (s : State) : Prop where
  inv : Inv s
  busy : s.busy = true
  cfg : s.cfg = c

/-- The invariant while an operation runs, between two frames: no chip-select is asserted unless a fault was recorded
before (R61, R232). -/
structure Between (c : Config) (s : State) : Prop extends Within c s where
  quiet : s.fault = false → s.csD = .deasserted ∧ s.csT = .deasserted

/-- The invariant from what every primitive keeps, what it stores, and the chip-selects. -/
theorem Within.of_kept {c : Config} {s t : State} (h : Within c s) (hk : kept s t) (hst : stored t)
    (hx : ¬ (t.csD = .asserted ∧ t.csT = .asserted)) : Within c t := by
  obtain ⟨⟨hvalid, -, -, hflags, hresults, -⟩, hbusy, hcfg⟩ := h
  obtain ⟨kcfg, kstatus, kfault, krefused, ⟨kkind, kX, kY, -⟩, -, kbusy, -⟩ := hk
  have tbusy : t.busy = true := kbusy.trans hbusy
  refine ⟨⟨?valid, hst.1, ⟨hx, fun e => ?notBusy⟩, ?flags, ?results, hst.2⟩, tbusy, kcfg.trans hcfg⟩
  case valid => rw [kcfg]; exact hvalid
  case notBusy => rw [tbusy] at e; cases e
  case flags => simpa only [flagsAgree, kstatus, kfault, krefused, kkind] using hflags
  case results => simpa only [resultsInRange, kcfg, kkind, kX, kY] using hresults

theorem Within.stored {c : Config} {s : State} (h : Within c s) : stored s := by
  obtain ⟨-, hsizes, -, -, -, hgram⟩ := h.inv
  exact ⟨hsizes, hgram⟩

theorem Within.exclusive {c : Config} {s : State} (h : Within c s) : ¬ (s.csD = .asserted ∧ s.csT = .asserted) := by
  obtain ⟨-, -, ⟨hx, -⟩, -⟩ := h.inv
  exact hx

theorem Within.valid {c : Config} {s : State} (h : Within c s) : c.valid = true := h.cfg ▸ h.inv.1

/-- What leaves both chip-selects as they were stays between two frames. -/
theorem Between.of_kept {c : Config} {s t : State} (h : Between c s) (hk : kept s t) (hst : Machine.stored t)
    (hD : t.csD = s.csD) (hT : t.csT = s.csT) : Between c t := by
  refine ⟨h.toWithin.of_kept hk hst ?_, ?_⟩
  · rw [hD, hT]; exact h.exclusive
  · obtain ⟨-, -, hfault, -⟩ := hk
    rw [hfault, hD, hT]; exact h.quiet

/-- The panel's ghost flags are not part of the invariant. -/
theorem Between.withPanel {c : Config} {s : State} (h : Between c s) {p : Panel} (hp : p.gram = s.panel.gram) :
    Between c { s with panel := p } :=
  h.of_kept (by simp [kept, sameResults, sameHost])
    ⟨h.stored.1, show Memory.onPanel s.cfg p.gram by rw [hp]; exact h.stored.2⟩ rfl rfl

/-- A run that keeps the invariant: it is between two frames where it is done or refused, and within one at most where a
transport call faulted or stalled; the values it returns satisfy `R`. -/
def Run.Sound {α : Type} (c : Config) (R : α → Prop) : Run α → Prop
  | .done a u => Between c u ∧ R a
  | .ended st u => Within c u ∧ (st ≠ .transportFault → Between c u)
  | .stalled u => Within c u
  | .noMeaning _ => True

theorem Run.Sound.andThen {α β : Type} {c : Config} {Q : α → Prop} {R : β → Prop} {r : Run α} {k : α → State → Run β}
    (hr : r.Sound c Q) (hk : ∀ a t, Between c t → Q a → (k a t).Sound c R) : (r.andThen k).Sound c R := by
  cases r with
  | done a t => exact hk a t hr.1 hr.2
  | ended st t => exact hr
  | stalled t => exact hr
  | noMeaning x => trivial

/-! ### One frame (R61, R101, R102, R113) -/

/-- Where both chip-selects are deasserted after a move of a line, a frame has ended. -/
theorem Within.driveLine_between {c : Config} {u : State} (h : Within c u) {d : Drive}
    (hD : (driveLine d u).csD = .deasserted) (hT : (driveLine d u).csT = .deasserted) : Between c (driveLine d u) := by
  refine ⟨h.of_kept (runAct_kept (.line d) (kept_refl u)) (driveLine_stored h.stored d) ?_, fun _ => ⟨hD, hT⟩⟩
  simp [hD]

/-- A frame reaches the transport, so a recorded fault leaves it without a meaning (R272). Otherwise it starts with both
chip-selects deasserted, and is sound when its primitives up to the last assert one at most and the last drops it. -/
theorem frame_sound {c : Config} {pre : List Act} {d : Drive} {s : State} (hs : Between c s)
    (hfit : ∀ a ∈ pre, a.fits s.cfg) (ht : ∃ a ∈ pre, a.transport = true)
    (hlines : s.csD = .deasserted → s.csT = .deasserted → (runActs pre s).All fun u =>
      ¬ (u.csD = .asserted ∧ u.csT = .asserted) ∧ (driveLine d u).csD = .deasserted
        ∧ (driveLine d u).csT = .deasserted) :
    (runActs (pre ++ [.line d]) s).Sound c fun _ => True := by
  cases hf : s.fault with
  | true =>
    obtain ⟨a, hmem, ha⟩ := ht
    rw [runActs_afterFault hf ⟨a, List.mem_append_left _ hmem, ha⟩]
    trivial
  | false =>
    obtain ⟨hD, hT⟩ := hs.quiet hf
    have hkept := runActs_all (fun a _ _ => runAct_kept a) (acts := pre) (kept_refl s)
    have hall : (runActs pre s).All fun u => Within c u ∧ Between c (driveLine d u) :=
      ((hkept.and (runActs_stored hfit hs.stored)).and (hlines hD hT)).mono
        fun u ⟨⟨hk, hst⟩, hx, hD', hT'⟩ =>
          have hw := hs.toWithin.of_kept hk hst hx
          ⟨hw, hw.driveLine_between hD' hT'⟩
    have hends := runActs_ends (E := (· = .transportFault)) rfl pre s
    rw [runActs_append]
    cases hr : runActs pre s with
    | done r u => rw [hr] at hall; exact ⟨hall.2, trivial⟩
    | ended st u => rw [hr] at hall hends; exact ⟨hall.1, fun hne => absurd hends hne⟩
    | stalled u => rw [hr] at hall; exact hall.1
    | noMeaning x => trivial

/-- A frame of the display unit leaves CS_T as it was. -/
theorem displayFrame_sound {c : Config} {pre : List Act} {s : State} (hs : Between c s) (hd : allDisplay pre)
    (hk : samplesKept pre = true) (hfit : ∀ a ∈ pre, a.fits s.cfg) (ht : ∃ a ∈ pre, a.transport = true) :
    (runActs (pre ++ [.line (.csD .deasserted)]) s).Sound c fun _ => True :=
  frame_sound hs hfit ht fun _ hT => (runActs_displayKept hd hk (displayKept_refl s)).mono fun u ⟨_, hcsT, _⟩ =>
    have hcsT' : u.csT = .deasserted := hcsT.trans hT
    ⟨by simp [hcsT'], rfl, hcsT'⟩

/-- A frame of the touch unit leaves CS_D as it was. -/
theorem touchFrame_sound {c : Config} {pre : List Act} {s : State} (hs : Between c s) (hd : ∀ a ∈ pre, a.touch = true)
    (hfit : ∀ a ∈ pre, a.fits s.cfg) (ht : ∃ a ∈ pre, a.transport = true) :
    (runActs (pre ++ [.line (.csT .deasserted)]) s).Sound c fun _ => True :=
  frame_sound hs hfit ht fun hD _ =>
    (runActs_all (fun a ha _ => runAct_touchKept (hd a ha)) (touchKept_refl s)).mono fun u ⟨hcsD, _⟩ =>
      have hcsD' : u.csD = .deasserted := hcsD.trans hD
      ⟨by simp [hcsD'], hcsD', rfl⟩

theorem cmdXact_sound {c : Config} {s : State} (hs : Between c s) (op : Byte) (pl : List Byte) :
    (runActs (cmdXact op pl) s).Sound c fun _ => True := by
  refine displayFrame_sound hs (fun a ha => cmdXact_display op pl a (List.mem_append_left _ ha)) ?_ ?_ ?_
  · cases pl <;> rfl
  · cases pl <;> simp [Act.fits]
  · exact ⟨.write [op], by simp, rfl⟩

theorem dataXact_sound {c : Config} {s : State} (hs : Between c s) (bs : List Byte) :
    (runActs (dataXact bs) s).Sound c fun _ => True :=
  displayFrame_sound (pre := [.line (.csD .asserted), .line (.dc .data), .write bs]) hs
    (fun a ha => dataXact_display bs a (List.mem_append_left [_] ha)) rfl (by simp [Act.fits])
    ⟨.write bs, by simp, rfl⟩

theorem convert_sound {c : Config} {s : State} (hs : Between c s) (op : Byte) :
    (runActs (convert op) s).Sound c fun _ => True :=
  touchFrame_sound (pre := [.line (.csT .asserted), .xfer [op, 0x00, 0x00]]) hs
    (fun a ha => convert_touch op a (List.mem_append_left [_] ha)) (by simp [Act.fits])
    ⟨.xfer [op, 0x00, 0x00], by simp, rfl⟩

/-! ### The lists of primitives of the operations -/

/-- A list of primitives made of whole frames, with sleeps, moves of the reset line and fitting writes to the working
registers between them. -/
inductive Procedure (c : Config) : List Act → Prop where
  | nil : Procedure c []
  | command (op : Byte) (pl : List Byte) {as : List Act} (h : Procedure c as) : Procedure c (cmdXact op pl ++ as)
  | data (bs : List Byte) {as : List Act} (h : Procedure c as) : Procedure c (dataXact bs ++ as)
  | conversion (op : Byte) {as : List Act} (h : Procedure c as) : Procedure c (convert op ++ as)
  | sleep (n : Nat) {as : List Act} (h : Procedure c as) : Procedure c (.sleep n :: as)
  | reset (v : RstLevel) {as : List Act} (h : Procedure c as) : Procedure c (.line (.rst v) :: as)
  | work {w : WorkWrite} (hw : w.fits c) {as : List Act} (h : Procedure c as) : Procedure c (.work w :: as)

theorem Procedure.append {c : Config} {as bs : List Act} (ha : Procedure c as) (hb : Procedure c bs) :
    Procedure c (as ++ bs) := by
  induction ha with
  | nil => exact hb
  | command op pl _ ih => rw [List.append_assoc]; exact .command op pl ih
  | data bytes _ ih => rw [List.append_assoc]; exact .data bytes ih
  | conversion op _ ih => rw [List.append_assoc]; exact .conversion op ih
  | sleep n _ ih => exact .sleep n ih
  | reset v _ ih => exact .reset v ih
  | work hw _ ih => exact .work hw ih

theorem cmdXact_procedure (c : Config) (op : Byte) (pl : List Byte) : Procedure c (cmdXact op pl) := by
  simpa using Procedure.command op pl (.nil (c := c))

theorem convert_procedure (c : Config) (op : Byte) : Procedure c (convert op) := by
  simpa using Procedure.conversion op (.nil (c := c))

theorem setWindow_procedure (c : Config) (w : Window) : Procedure c (setWindow c w) := by
  simp only [setWindow, List.append_assoc]
  exact .work (w := .window _ _ _ _) trivial (.command _ _ (.command _ _ (cmdXact_procedure c _ _)))

theorem length_rep (bs : List Byte) (n : Nat) : (rep bs n).length = n * bs.length := by
  simp [rep]

theorem length_raster (g : List Byte) (fg bg : Half) : (raster g fg bg).length = 128 := by
  simp [raster, rasterRow, be16, List.length_flatMap, glyphSize]

theorem streamLoop_procedure {c : Config} (color : Half) (chunk k : Nat) {n : Nat} (hn : n ≤ c.panelW * c.panelH) :
    Procedure c (streamLoop color chunk k n) := by
  induction k generalizing n with
  | zero =>
    unfold streamLoop
    split_ifs
    · exact .nil
    · exact .data _ (.work (w := .pcnt 0) (Nat.zero_le _) .nil)
  | succ k ih =>
    have hle : n - chunk ≤ c.panelW * c.panelH := (Nat.sub_le n chunk).trans hn
    exact .data _ (.work (w := .pcnt _) hle (ih hle))

theorem fillActs_procedure {c : Config} (hc : c.valid = true) (x y w h : Int) (color : Half) :
    Procedure c (fillActs c x y w h color) := by
  have hn := fillRect_pixels_le hc x y w h
  have hlen : (rep (be16 color) c.chunk).length = 2 * c.chunk := by rw [length_rep, Nat.mul_comm]; rfl
  unfold fillActs
  simp only
  split_ifs
  · exact .nil
  · exact (setWindow_procedure c _).append 
      (.work (w := .pcnt _) hn (.work (w := .cbuf _) hlen (streamLoop_procedure color _ _ hn)))

theorem drawGlyph_procedure (c : Config) (ch : Byte) (x y : Int) (fg bg : Half) :
    Procedure c (drawGlyph c ch x y fg bg) :=
  (setWindow_procedure c _).append 
    (.work (w := .gbuf _) (length_raster _ fg bg) (by simpa using Procedure.data _ .nil))

theorem textLoop_procedure (c : Config) (x y : Int) (fg bg : Half) (i : Nat) (text : List Byte) :
    Procedure c (textLoop c x y fg bg i text) := by
  induction text generalizing i with
  | nil => exact .nil
  | cons ch text ih => exact .work (w := .tidx i) trivial ((drawGlyph_procedure c ch _ y fg bg).append (ih (i + 1)))

theorem tableActs_procedure (c : Config) (i : Nat) (es : List InitEntry) : Procedure c (tableActs i es) := by
  induction es generalizing i with
  | nil => exact .nil
  | cons e es ih => exact .work (w := .tidx i) trivial (.command _ _ (ih (i + 1)))

theorem initActs_procedure (c : Config) : Procedure c (initActs c) := by
  simp only [initActs, List.append_assoc]
  exact (tableActs_procedure c 0 _).append (.command _ _ (.sleep _ (cmdXact_procedure c _ _)))

theorem resetActs_procedure (c : Config) : Procedure c (resetActs c) := by
  unfold resetActs
  split_ifs
  · exact .reset _ (.sleep _ (.reset _ (.sleep _ .nil)))
  · exact .nil

theorem sampleActs_procedure (c : Config) : Procedure c (sampleActs c) :=
  .conversion _ (convert_procedure c _)

theorem frameActs_procedure (c : Config) (i : Instr) : Procedure c (frameActs c i) := by
  cases i with
  | wireConvX => exact convert_procedure c _
  | wireConvY => exact convert_procedure c _
  | wireCaset x0 x1 => exact cmdXact_procedure c _ _
  | wireRaset y0 y1 => exact cmdXact_procedure c _ _
  | wireRamwr => exact cmdXact_procedure c _ _
  | wireSlpout => exact cmdXact_procedure c _ _
  | wireDispon => exact cmdXact_procedure c _ _
  | _ => exact .nil

/-- A run of one list and then of another. -/
theorem runActs_append_sound {c : Config} {as bs : List Act} {s : State}
    (ha : (runActs as s).Sound c fun _ => True) (hb : ∀ t, Between c t → (runActs bs t).Sound c fun _ => True) :
    (runActs (as ++ bs) s).Sound c fun _ => True := by
  rw [runActs_append]
  exact ha.andThen fun _ t ht _ => (hb t ht).andThen fun _ _ hu _ => ⟨hu, trivial⟩

/-- A primitive that moves no chip-select, and then a list. -/
theorem runActs_cons_sound {c : Config} {a : Act} {as : List Act} {s t : State} (hs : Between c s) (hfit : a.fits c)
    (ha : runAct a s = .done [] t) (hD : t.csD = s.csD) (hT : t.csT = s.csT)
    (has : ∀ u, Between c u → (runActs as u).Sound c fun _ => True) : (runActs (a :: as) s).Sound c fun _ => True := by
  have hk := runAct_kept a (kept_refl s)
  have hst := runAct_stored (hs.cfg.symm ▸ hfit) hs.stored
  rw [ha] at hk hst
  rw [runActs, ha]
  exact (has t (hs.of_kept hk hst hD hT)).andThen fun _ _ hu _ => ⟨hu, trivial⟩

/-- Such a list keeps the invariant, however it comes out. -/
theorem Procedure.sound {c : Config} {acts : List Act} (h : Procedure c acts) {s : State} (hs : Between c s) :
    (runActs acts s).Sound c fun _ => True := by
  induction h generalizing s with
  | nil => exact ⟨hs, trivial⟩
  | command op pl _ ih => exact runActs_append_sound (cmdXact_sound hs op pl) fun _ => ih
  | data bs _ ih => exact runActs_append_sound (dataXact_sound hs bs) fun _ => ih
  | conversion op _ ih => exact runActs_append_sound (convert_sound hs op) fun _ => ih
  | sleep n _ ih => exact runActs_cons_sound hs trivial rfl rfl rfl fun _ => ih
  | reset v _ ih => exact runActs_cons_sound hs trivial rfl rfl rfl fun _ => ih
  | work hw _ ih => exact runActs_cons_sound hs hw rfl rfl rfl fun _ => ih

/-! ### What the operations return (R27, R202, R206) -/

/-- A sample is (0, 0) or has both readings in [100, 4000] (R202). -/
def sampleInRange (p : Nat × Nat) : Prop :=
  p = (0, 0) ∨ (100 ≤ p.1 ∧ p.1 ≤ 4000) ∧ 100 ≤ p.2 ∧ p.2 ≤ 4000

theorem sampleOf_inRange (reads : List (List Byte)) : sampleInRange (sampleOf reads) := by
  unfold sampleOf rangeFilter
  split_ifs with h
  · exact .inl rfl
  · simp only [outOfRange, Bool.or_eq_true, decide_eq_true_eq, not_or, Nat.not_lt] at h
    exact .inr h

/-- A result whose registers are in range: a sample as the range filter leaves it, a point on the panel (R27). -/
def Result.inRange (c : Config) : Result → Prop
  | .sample x y => (x.toNat = 0 ∧ y.toNat = 0)
      ∨ (100 ≤ x.toNat ∧ x.toNat ≤ 4000 ∧ 100 ≤ y.toNat ∧ y.toNat ≤ 4000)
  | .point x y => x.toNat ≤ c.panelW ∧ y.toNat ≤ c.panelH
  | .none => True
  | .colour _ => True
  | .noTouch => True

theorem sampleResult_inRange (c : Config) {p : Nat × Nat} (h : sampleInRange p) : (sampleResult p).inRange c := by
  obtain rfl | ⟨hx, hy⟩ := h
  · exact .inl ⟨rfl, rfl⟩
  · right
    rw [BitVec.toNat_ofNat, BitVec.toNat_ofNat, Nat.mod_eq_of_lt (by omega), Nat.mod_eq_of_lt (by omega)]
    exact ⟨hx.1, hx.2, hy⟩

/-- A coordinate clipped to the panel's size has its value in the register (R206). -/
theorem toNat_ofInt_clip_le (v : Int) {n : Nat} (hn : n ≤ 32767) : (BitVec.ofInt 16 (clip v 0 n)).toNat ≤ n := by
  have hlo : 0 ≤ clip v 0 n := by unfold clip; omega
  have hhi : clip v 0 n ≤ n := by unfold clip; omega
  rw [BitVec.toNat_ofInt]
  omega

theorem pointResult_inRange {c : Config} (hc : c.valid = true) (rawX rawY : Int) :
    (pointResult (normalize c rawX rawY)).inRange c := by
  obtain ⟨⟨-, hW⟩, -, hH⟩ := panelSize_of_valid hc
  exact ⟨toNat_ofInt_clip_le _ hW, toNat_ofInt_clip_le _ hH⟩

theorem touchResult_inRange {c : Config} (hc : c.valid = true) (p1 p2 p3 : Nat × Nat) :
    (touchResult c p1 p2 p3).inRange c := by
  unfold touchResult
  split_ifs
  · trivial
  · trivial
  · exact pointResult_inRange hc _ _

/-! ### The operations' bodies -/

theorem sample_sound {c : Config} {s : State} (hs : Between c s) : (sample s).Sound c sampleInRange :=
  have hacts : Procedure c (sampleActs s.cfg) := hs.cfg ▸ sampleActs_procedure s.cfg
  (hacts.sound hs).andThen fun reads _ ht _ => ⟨ht, sampleOf_inRange reads⟩

theorem settledSample_sound {c : Config} {s : State} (hs : Between c s) :
    (settledSample s).Sound c sampleInRange :=
  ((Procedure.sleep tSettle .nil).sound hs).andThen fun _ _ ht _ => sample_sound ht

theorem latch_between {c : Config} {s : State} (hs : Between c s) {w : WorkWrite} (hw : w.fits c) :
    Between c (latch w s) :=
  hs.of_kept (runAct_kept (.work w) (kept_refl s)) (writeWork_stored hs.stored (hs.cfg ▸ hw)) rfl rfl

theorem touchBody_sound {c : Config} {s : State} (hs : Between c s) : (touchBody s).Sound c (Result.inRange c) := by
  refine (sample_sound hs).andThen fun p1 t ht _ => ?_
  have ht1 : Between c (latch (.s1 (sample13 p1)) t) := latch_between ht trivial
  show Run.Sound _ _ (if p1 = (0, 0) then _ else _)
  split_ifs
  · exact ⟨ht1, trivial⟩
  · refine (settledSample_sound ht1).andThen fun p2 u hu _ => ?_
    refine (settledSample_sound (latch_between (w := .s2 (sample13 p2)) hu trivial)).andThen fun p3 v hv _ => ?_
    exact ⟨latch_between hv trivial, by rw [hv.cfg]; exact touchResult_inRange hv.valid p1 p2 p3⟩

theorem runReturning_sound {c : Config} {acts : List Act} (h : Procedure c acts) {s : State} (hs : Between c s) :
    (runReturning acts .none s).Sound c (Result.inRange c) :=
  (h.sound hs).andThen fun _ _ ht _ => ⟨ht, trivial⟩

/-- An operation refused before its first primitive (R14, R119). -/
theorem ended_sound {c : Config} {R : Result → Prop} {s : State} (hs : Between c s) (st : Status) :
    (Run.ended st s).Sound c R :=
  ⟨hs.toWithin, fun _ => hs⟩

theorem textBody_sound {c : Config} {s : State} (hs : Between c s) (x y : Int) (fg bg : Half) (text : List Byte) :
    (textBody x y fg bg text s).Sound c (Result.inRange c) := by
  obtain e | e := textBody_cases x y fg bg text s
  · rw [e]; exact ended_sound hs .operandRange
  · rw [e, hs.cfg]; exact runReturning_sound (textLoop_procedure c x y fg bg 0 text) hs

theorem initBody_sound {c : Config} {s : State} (hs : Between c s) : (initBody s).Sound c (Result.inRange c) := by
  obtain rfl := hs.cfg
  have hbegin : Between s.cfg { s with panel := s.panel.beginInit } := hs.withPanel rfl
  refine ((initActs_procedure s.cfg).sound hbegin).andThen fun _ u hu _ => ?_
  exact ⟨hu.withPanel (by rw [Panel.markReady_eq]), trivial⟩

/-- The body of every host operation keeps the invariant, however it comes out. -/
theorem hostBody_sound (i : Instr) {c : Config} {s : State} (hs : Between c s) :
    (hostBody i s).Sound c (Result.inRange c) := by
  obtain rfl := hs.cfg
  cases i with
  | dReset => exact runReturning_sound (resetActs_procedure _) hs
  | dInit => exact initBody_sound hs
  | dWrcmd op payload =>
    exact runReturning_sound (cmdXact_procedure _ op payload) (hs.withPanel (by rw [Panel.noteCommand_eq]))
  | dSetwin x0 y0 x1 y1 =>
    show Run.Sound _ _ (if _ then _ else _)
    split_ifs
    · exact ended_sound hs .operandRange
    · exact runReturning_sound (setWindow_procedure _ _) hs
  | dFillrect x y w h color => exact runReturning_sound (fillActs_procedure hs.valid x y w h color) hs
  | dGlyph ch x y fg bg =>
    show Run.Sound _ _ (if _ then _ else _)
    split_ifs
    · exact ended_sound hs .operandRange
    · exact runReturning_sound (drawGlyph_procedure _ ch x y fg bg) hs
  | dText x y fg bg text => exact textBody_sound hs x y fg bg text
  | dTextd x y fg text => exact textBody_sound hs x y fg _ text
  | tSample => exact (sample_sound hs).andThen fun _ _ ht hp => ⟨ht, sampleResult_inRange _ hp⟩
  | tGettouch => exact touchBody_sound hs
  | tNorm rawX rawY => exact ⟨hs, pointResult_inRange hs.valid rawX rawY⟩
  | _ => exact ⟨hs, trivial⟩

/-! ### The end of an operation and the step (R140, R30) -/

/-- BUSY's rise takes an idle block between two frames. -/
theorem Inv.between {s : State} (h : Inv s) (hb : s.busy = false) : Between s.cfg { s with busy := true } := by
  obtain ⟨hvalid, hsizes, ⟨hx, hquiet⟩, hflags, hresults, hgram⟩ := h
  exact ⟨⟨⟨hvalid, hsizes, ⟨hx, fun e => nomatch e⟩, hflags, hresults, hgram⟩, rfl, rfl⟩, hquiet hb⟩

/-- BUSY's fall between two frames gives the invariant back. -/
theorem Between.inv_idle {c : Config} {s : State} (h : Between c s) : Inv { s with busy := false } := by
  obtain ⟨⟨⟨hvalid, hsizes, ⟨hx, -⟩, hflags, hresults, hgram⟩, -, -⟩, hquiet⟩ := h
  exact ⟨hvalid, hsizes, ⟨hx, fun _ => hquiet⟩, hflags, hresults, hgram⟩

theorem endOp_flagsAgree (st : Status) (v : Result) (s : State) : flagsAgree (endOp st v s) := by
  cases st <;> simp [flagsAgree]

theorem endOp_resultsInRange (st : Status) {v : Result} {s : State} (hv : v.inRange s.cfg) :
    resultsInRange (endOp st v s) := by
  cases st with
  | ok =>
    cases v with
    | sample x y => simpa [resultsInRange, Result.inRange] using hv
    | point x y => simpa [resultsInRange, Result.inRange] using hv
    | _ => simp [resultsInRange]
  | _ => simp [resultsInRange]

/-- `end(s)` gives the invariant back: with a TransportFault from anywhere, otherwise from between two frames (R140,
R232). -/
theorem Within.inv_endOp {c : Config} {s : State} (h : Within c s) {st : Status} {v : Result} (hv : v.inRange c)
    (hquiet : st ≠ .transportFault → Between c s) : Inv (endOp st v s) := by
  refine ⟨?valid, ?sizes, ⟨?exclusive, fun _ hf => ?lines⟩, endOp_flagsAgree st v s,
    endOp_resultsInRange st (h.cfg ▸ hv), ?gram⟩
  case valid => simpa using h.inv.1
  case sizes => simpa [workSizes] using h.stored.1
  case exclusive => simpa using h.exclusive
  case lines =>
    rw [endOp_fault, faultAfter, Bool.or_eq_false_iff, decide_eq_false_iff_not] at hf
    simpa using (hquiet hf.2).quiet hf.1
  case gram =>
    show Memory.onPanel (endOp st v s).cfg (endOp st v s).panel.gram
    simpa using h.stored.2

theorem operation_inv {body : State → Run Result} {s t : State} (hs : Inv s)
    (hbody : ∀ u, Between s.cfg u → (body u).Sound s.cfg (Result.inRange s.cfg))
    (h : operation body s = .next t) : Inv t := by
  obtain ⟨hb, ⟨v, u, hu, rfl⟩ | ⟨st, u, hu, rfl⟩ | hu⟩ := operation_next h
  all_goals have hsound := hbody _ (hs.between hb); rw [hu] at hsound
  · exact hsound.1.toWithin.inv_endOp hsound.2 fun _ => hsound.1
  · exact hsound.1.inv_endOp trivial hsound.2
  · exact hsound.inv

theorem frameAlone_inv {acts : List Act} {s t : State} (hs : Inv s) (hacts : Procedure s.cfg acts)
    (h : frameAlone acts s = .next t) : Inv t := by
  obtain ⟨hb, ⟨r, u, hu, rfl⟩ | ⟨st, u, hu, rfl⟩ | hu⟩ := frameAlone_next h
  all_goals have hsound := hacts.sound (hs.between hb); rw [hu] at hsound
  · exact hsound.1.inv_idle
  · exact hsound.1.inv_endOp trivial hsound.2
  · exact hsound.inv

theorem exec_inv {i : Instr} {s t : State} (hs : Inv s) (h : exec i s = .next t) : Inv t := by
  cases hi : i.isHost with
  | true => exact operation_inv hs (fun _ => hostBody_sound i) (exec_host hi s ▸ h)
  | false => exact frameAlone_inv hs (frameActs_procedure s.cfg i) (exec_frame hi s ▸ h)

theorem issue_inv {d : List Byte} {s t : State} (hs : Inv s) (h : issue d s = .next t) : Inv t := by
  cases hd : decode d with
  | ok i => rw [issue_ok hd] at h; exact exec_inv hs h
  | error e =>
    rw [issue_error hd] at h
    exact operation_inv (body := .ended .illegalOp) hs (fun _ hu => ended_sound hu .illegalOp) h

theorem Inv.hostAdvance {s : State} (h : Inv s) : Inv (hostAdvance s) := by
  simpa [Inv, workSizes, linesExclusive, flagsAgree, resultsInRange, gramOnPanel] using h

theorem Inv.clearFrame {s : State} (h : Inv s) : Inv (clearFrame s) := h

/-- Settles O51: every list of primitives is made of whole frames, each of which starts and ends with its chip-select
deasserted; what `end(s)` writes agrees with itself; and the host's own move touches nothing of the invariant. -/
theorem stepKeepsTheInvariant : Obligations.StepKeepsTheInvariant := by
  intro s t hs h
  obtain rfl | ⟨d, u, hu, rfl⟩ | ⟨i, u, hu, rfl⟩ := step_next h
  · exact hs
  · exact (issue_inv hs hu).hostAdvance
  · exact Inv.clearFrame (exec_inv hs hu)

/-! ### The bytes of an address command (R71) -/

/-- A live panel takes a data byte by its command (R69). -/
theorem Panel.receive_data {p : Panel} (hr : p.refused = none) (c : Config) (b : Byte) :
    p.receive c .data b = p.data c b := by
  simp [Panel.receive, hr]

theorem Panel.receive_commandByte {p : Panel} (hr : p.refused = none) (c : Config) (b : Byte) :
    p.receive c .command b = p.command c b := by
  simp [Panel.receive, hr]

theorem Panel.colByte_full {p : Panel} (ha : 4 ≤ p.args.length) (b : Byte) :
    p.colByte b = Panel.refuse .fifthBoundByte := by
  unfold Panel.colByte
  split
  · next e => simp [e] at ha
  · exact if_pos ha

theorem Panel.rowByte_full {p : Panel} (ha : 4 ≤ p.args.length) (b : Byte) :
    p.rowByte b = Panel.refuse .fifthBoundByte := by
  unfold Panel.rowByte
  split
  · next e => simp [e] at ha
  · exact if_pos ha

/-- A fifth payload byte of an address command is refused (R74). -/
theorem Panel.receive_fifthByte {c : Config} {p : Panel} (hr : p.refused = none)
    (hc : p.cmd = some c.opCaset ∨ p.cmd = some c.opRaset) (ha : 4 ≤ p.args.length) (b : Byte) :
    p.receive c .data b = Panel.refuse .fifthBoundByte := by
  rw [Panel.receive_data hr]
  obtain hc | hc := hc
  · simp [Panel.data, hc, Panel.colByte_full ha]
  · simp [Panel.data, hc, Panel.colByte_full ha, Panel.rowByte_full ha]

/-- Settles O53: the four bytes are those of the two bounds, and the fifth finds four before it. -/
theorem addressBytesSetTheBounds : Obligations.AddressBytesSetTheBounds := by
  intro c p a b d e f hc hr ha
  obtain ⟨hne, -, -⟩ := windowOps_of_valid hc
  have fifth : p.receiveAll c .data [a, b, d, e, f]
      = (p.receiveAll c .data [a, b, d, e]).receive c .data f := Panel.receiveAll_append p c .data [a, b, d, e] [f]
  refine ⟨fun hcmd => ?columns, fun hcmd => ?rows⟩
  case columns =>
    have four : p.receiveAll c .data [a, b, d, e]
        = { p with args := [a, b, d, e], xs := unbe16 a b, xe := unbe16 d e, colsSet := true } := by
      simpa using Panel.receive_columns c (unbe16 a b) (unbe16 d e) hr ha hcmd
    refine ⟨four, ?_⟩
    rw [fifth, Panel.receive_fifthByte (by rw [four]; exact hr) (by rw [four]; exact .inl hcmd)
      (by rw [four]; exact Nat.le_refl 4)]
    rfl
  case rows =>
    have four : p.receiveAll c .data [a, b, d, e]
        = { p with args := [a, b, d, e], ys := unbe16 a b, ye := unbe16 d e, rowsSet := true } := by
      simpa using Panel.receive_rows c (unbe16 a b) (unbe16 d e) hr ha hcmd hne
    refine ⟨four, ?_⟩
    rw [fifth, Panel.receive_fifthByte (by rw [four]; exact hr) (by rw [four]; exact .inr hcmd)
      (by rw [four]; exact Nat.le_refl 4)]
    rfl

/-! ### The cases the panel model stops at (R74, U19) -/

theorem Panel.receive_noCommand {p : Panel} (hr : p.refused = none) (hc : p.cmd = none) (c : Config) (b : Byte) :
    p.receive c .data b = Panel.refuse .dataWithoutCommand := by
  rw [Panel.receive_data hr, Panel.data, hc]

theorem Panel.receive_midPixel {p : Panel} (hr : p.refused = none) (hh : p.half ≠ none) (c : Config) (b : Byte) :
    p.receive c .command b = Panel.refuse .commandMidPixel := by
  rw [Panel.receive_commandByte hr, Panel.command, if_pos (Option.isSome_iff_ne_none.2 hh)]

/-- A window command to a panel that is not ready is refused (U19, R273). -/
theorem Panel.receive_beforeReady {c : Config} {p : Panel} (hr : p.refused = none) (hi : p.ready = false) {b : Byte}
    (hb : b = c.opCaset ∨ b = c.opRaset ∨ b = c.opRamwr) : ∃ r, p.receive c .command b = Panel.refuse r := by
  have hwin : p.ready = false ∧ Config.isWindowOp c b = true := ⟨hi, by simpa [Config.isWindowOp] using hb⟩
  rw [Panel.receive_commandByte hr, Panel.command, if_pos hwin]
  split_ifs
  · exact ⟨_, rfl⟩
  · exact ⟨_, rfl⟩

/-- Memory-write before both bounds are set is refused (R74). -/
theorem Panel.receive_beforeBounds {c : Config} {p : Panel} (hr : p.refused = none)
    (hb : p.colsSet = false ∨ p.rowsSet = false) : ∃ r, p.receive c .command c.opRamwr = Panel.refuse r := by
  have hbounds : c.opRamwr = c.opRamwr ∧ ¬ (p.colsSet = true ∧ p.rowsSet = true) := by
    refine ⟨rfl, fun h => ?_⟩
    rcases hb with e | e <;> simp [e] at h
  rw [Panel.receive_commandByte hr, Panel.command]
  split_ifs
  · exact ⟨_, rfl⟩
  · exact ⟨_, rfl⟩
  · exact ⟨_, rfl⟩

/-- A pixel that has no place is refused: before `P.ready`, in a window out of order or not on the panel, or after
`P.done` (R74). -/
theorem Panel.pixelArrives_refused {c : Config} {p : Panel} (v : Half)
    (h : p.ready = false ∨ p.done = true ∨ p.windowOnPanel c = false) : ∃ r, p.pixelArrives c v = Panel.refuse r := by
  unfold Panel.pixelArrives
  split_ifs with h1 h2 h3 h4
  · exact ⟨_, rfl⟩
  · exact ⟨_, rfl⟩
  · exact ⟨_, rfl⟩
  · exact ⟨_, rfl⟩
  · simp_all

/-- The byte that completes a pixel of the stream (R72). -/
theorem Panel.receive_secondByte {c : Config} {p : Panel} {a : Byte} (hcw : c.opCaset ≠ c.opRamwr)
    (hrw : c.opRaset ≠ c.opRamwr) (hr : p.refused = none) (hc : p.cmd = some c.opRamwr) (hs : p.streaming = true)
    (hh : p.half = some a) (b : Byte) : p.receive c .data b = p.pixelArrives c (unbe16 a b) := by
  simp [Panel.receive_data hr, Panel.data, hc, hcw.symm, hrw.symm, hs, Panel.streamByte, hh]

/-- What a refusal leaves: no pixel is known, and no byte starts the panel model again (R74, log 8). -/
theorem Panel.stops_of_refuse {c : Config} {q : Panel} (h : ∃ r, q = Panel.refuse r) :
    q.refused.isSome = true ∧ (∀ x y, q.pixel x y = none) ∧ ∀ dc bs, q.receiveAll c dc bs = q := by
  obtain ⟨r, rfl⟩ := h
  exact ⟨rfl, fun _ _ => rfl, Panel.receiveAll_stopped rfl c⟩

/-- Settles O54: each case is one of the refusals. -/
theorem panelRefusesTheUnreachedCases : Obligations.PanelRefusesTheUnreachedCases := by
  intro c p a b hc hr
  obtain ⟨-, hcw, hrw⟩ := windowOps_of_valid hc
  refine ⟨fun hcmd => ?_, fun hcmd hargs => ?_, fun hhalf => ?_, fun hready hb => ?_, fun hbounds => ?_,
    fun hcmd hstream hhalf hplace => ?_⟩
  · exact Panel.stops_of_refuse ⟨_, Panel.receive_noCommand hr hcmd c b⟩
  · exact Panel.stops_of_refuse ⟨_, Panel.receive_fifthByte hr hcmd hargs b⟩
  · exact Panel.stops_of_refuse ⟨_, Panel.receive_midPixel hr hhalf c b⟩
  · exact Panel.stops_of_refuse (Panel.receive_beforeReady hr hready hb)
  · exact Panel.stops_of_refuse (Panel.receive_beforeBounds hr hbounds)
  · have hwindow : p.ready = false ∨ p.done = true ∨ p.windowOnPanel c = false := by
      simpa [Panel.windowOnPanel, imp_iff_not_or, or_assoc] using hplace
    rw [Panel.receive_secondByte hcw hrw hr hcmd hstream hhalf]
    exact Panel.stops_of_refuse (Panel.pixelArrives_refused _ hwindow)

/-! ### A window and its pixels (R75) -/

/-- Pixel (x, y) of a window `w` pixels wide at (x0, y0) is its pixel number `(y - y0) * w + (x - x0)`. -/
theorem window_pixel_index {x0 y0 w x y : Nat} (hx : x0 ≤ x) (hxw : x < x0 + w) (hy : y0 ≤ y) :
    x0 + ((y - y0) * w + (x - x0)) % w = x ∧ y0 + ((y - y0) * w + (x - x0)) / w = y := by
  have hlt : x - x0 < w := by omega
  rw [Nat.mul_comm, Nat.mul_add_mod, Nat.mod_eq_of_lt hlt, Nat.mul_add_div (by omega), Nat.div_eq_of_lt hlt]
  omega

/-- Its number is below the number of the window's pixels. -/
theorem window_pixel_lt {x0 y0 x1 y1 x y : Nat} (hin : (x0 ≤ x ∧ x ≤ x1) ∧ y0 ≤ y ∧ y ≤ y1) :
    (y - y0) * (x1 - x0 + 1) + (x - x0) < (x1 - x0 + 1) * (y1 - y0 + 1) := by
  have hrow := Nat.mul_le_mul_right (x1 - x0 + 1) (show y - y0 + 1 ≤ y1 - y0 + 1 by omega)
  rw [Nat.succ_mul, Nat.mul_comm (y1 - y0 + 1)] at hrow
  omega

/-- After the frames of a window on the panel the stream stands at the window's first pixel, and the frame memory is as
before (R70, R71). -/
theorem windowFrames_atPixel {c : Config} {h : Heard} {x0 y0 x1 y1 : Nat} (hc : c.valid = true)
    (htakes : h.panel.takesWindow) (hx : x0 < c.panelW) (hy : y0 < c.panelH) :
    let q := (h.events c
      (windowFrames c (BitVec.ofNat 16 x0) (BitVec.ofNat 16 y0) (BitVec.ofNat 16 x1) (BitVec.ofNat 16 y1))).panel
    q.atPixel c x0 y0 x1 y1 0 ∧ q.gram = h.panel.gram := by
  obtain ⟨hready, hlive, hhalf, -⟩ := htakes
  obtain ⟨hcr, hcw, hrw⟩ := windowOps_of_valid hc
  obtain ⟨⟨-, hW⟩, -, hH⟩ := panelSize_of_valid hc
  obtain ⟨hwindowed, hpx, hpy, hdone, hgram, hready', -⟩ := windowFrames_panel (BitVec.ofNat 16 x0) (BitVec.ofNat 16 y0)
    (BitVec.ofNat 16 x1) (BitVec.ofNat 16 y1) hcr hcw hrw hlive hhalf hready
  rw [BitVec.toNat_ofNat, Nat.mod_eq_of_lt (by omega)] at hpx hpy
  exact ⟨⟨hwindowed, hready'.trans hready, by simpa using hpx, by simpa using hpy, hdone⟩, hgram⟩

/-- Settles O55: the window's frames leave the stream at its first pixel, and the stream paints row by row from
there. -/
theorem windowThenPixelsFillsRowMajor : Obligations.WindowThenPixelsFillsRowMajor := by
  intro c h x0 y0 x1 y1 splits pixels hc htakes hwf hx hx1 hy hy1 hlen hsplits
  obtain ⟨-, hcw, hrw⟩ := windowOps_of_valid hc
  obtain ⟨⟨-, hW⟩, -, hH⟩ := panelSize_of_valid hc
  obtain ⟨hstart, hgram⟩ := windowFrames_atPixel (x1 := x1) (y1 := y1) hc htakes (hx.trans_lt hx1) (hy.trans_lt hy1)
  obtain ⟨hpaint, hlive, -, hfilled⟩ := Panel.receive_pixels hstart hcw hrw (by omega) (by omega) hx hx1 hy hy1 pixels
    (by omega)
  simp only [Heard.events_append, dataFrames_panel, hsplits, Panel.pixel, hpaint, hgram]
  have hpos : pixels ≠ [] := by rintro rfl; simp at hlen
  refine ⟨hfilled hpos (by omega), hlive, fun k hk => ?_, fun x y hxb _ hout => ?_⟩
  · rw [paint_same hwf (by omega) (by omega) (Nat.zero_le k) (by omega), Nat.sub_zero]
  · apply paint_other hwf hxb (by omega) (by omega)
    rintro j - hj ⟨ex, ey⟩
    have hmod := Nat.mod_lt j (show 0 < x1 - x0 + 1 by omega)
    have hdiv : j / (x1 - x0 + 1) < y1 - y0 + 1 := Nat.div_lt_of_lt_mul (by omega)
    generalize j % (x1 - x0 + 1) = column at *
    generalize j / (x1 - x0 + 1) = row at *
    omega

/-! ### What an operation shows (R75, R162, R182) -/

/-- R75 read by pixels: pixel (x, y) of the window is pixel number `(y - y0) * w + (x - x0)` of the stream. -/
theorem windowThenPixels_pixel {c : Config} {h : Heard} {x0 y0 x1 y1 : Nat} {splits : List (List Byte)}
    {pixels : List Half} (hc : c.valid = true) (htakes : h.panel.takesWindow) (hwf : Memory.wf h.panel.gram = true)
    (hx : x0 ≤ x1) (hx1 : x1 < c.panelW) (hy : y0 ≤ y1) (hy1 : y1 < c.panelH)
    (hlen : pixels.length = (x1 - x0 + 1) * (y1 - y0 + 1)) (hsplits : splits.flatten = pixels.flatMap be16)
    {x y : Nat} (hin : (x0 ≤ x ∧ x ≤ x1) ∧ y0 ≤ y ∧ y ≤ y1) :
    (h.events c (windowFrames c (BitVec.ofNat 16 x0) (BitVec.ofNat 16 y0) (BitVec.ofNat 16 x1) (BitVec.ofNat 16 y1)
        ++ splits.flatMap dataFrame)).panel.pixel x y
      = pixels[(y - y0) * (x1 - x0 + 1) + (x - x0)]? := by
  obtain ⟨-, -, hshown, -⟩ :=
    windowThenPixelsFillsRowMajor c h x0 y0 x1 y1 splits pixels hc htakes hwf hx hx1 hy hy1 hlen hsplits
  obtain ⟨ex, ey⟩ := window_pixel_index (w := x1 - x0 + 1) hin.1.1 (by omega) hin.2.1
  rw [← hshown _ (by rw [hlen]; exact window_pixel_lt hin), ex, ey]

/-- D.FILLRECT's frames are a window on the panel and exactly its pixels, all of the one colour (R162, R163, R165). -/
theorem displayFrames_dFillrect {c : Config} (hc : c.valid = true) (x y w h : Int) (color : Half) :
    ∃ (x0 y0 x1 y1 : Nat) (splits : List (List Byte)),
      ((fillRect c x y w h).xc = x0 ∧ (fillRect c x y w h).yc = y0
          ∧ (fillRect c x y w h).xc + (fillRect c x y w h).wc = x1 + 1
          ∧ (fillRect c x y w h).yc + (fillRect c x y w h).hc = y1 + 1)
        ∧ (x0 ≤ x1 ∧ x1 < c.panelW ∧ y0 ≤ y1 ∧ y1 < c.panelH)
        ∧ displayFrames c (.dFillrect x y w h color)
            = windowFrames c (BitVec.ofNat 16 x0) (BitVec.ofNat 16 y0) (BitVec.ofNat 16 x1) (BitVec.ofNat 16 y1)
              ++ splits.flatMap dataFrame
        ∧ splits.flatten = (List.replicate ((x1 - x0 + 1) * (y1 - y0 + 1)) color).flatMap be16 := by
  obtain ⟨⟨hx, hw, hxw⟩, hy, hh, hyh⟩ := fillRect_onPanel hc x y w h
  have harea : (fillRect c x y w h).wc * (fillRect c x y w h).hc ≠ 0 := mul_ne_zero (by omega) (by omega)
  obtain ⟨splits, hframes, hbytes⟩ := chunkFrames_splits color c.chunk (fillRect c x y w h).pixels
  simp only [displayFrames, if_neg harea, hframes, FillRect.window]
  generalize fillRect c x y w h = r at *
  obtain ⟨x0, ex⟩ := Int.eq_ofNat_of_zero_le hx
  obtain ⟨y0, ey⟩ := Int.eq_ofNat_of_zero_le hy
  obtain ⟨x1, ex1⟩ := Int.eq_ofNat_of_zero_le (show 0 ≤ r.xc + r.wc - 1 by omega)
  obtain ⟨y1, ey1⟩ := Int.eq_ofNat_of_zero_le (show 0 ≤ r.yc + r.hc - 1 by omega)
  have hpixels : r.pixels = (x1 - x0 + 1) * (y1 - y0 + 1) := by
    rw [FillRect.pixels, show r.wc = ((x1 - x0 + 1 : Nat) : Int) by omega,
      show r.hc = ((y1 - y0 + 1 : Nat) : Int) by omega, ← Int.natCast_mul, Int.toNat_natCast]
  refine ⟨x0, y0, x1, y1, splits, by omega, by omega, ?_, by rw [hbytes, hpixels]⟩
  rw [ex1, ey1, ex, ey]
  simp only [BitVec.ofInt_natCast]

/-- An operation that runs display primitives to its end: its status, and that the panel has heard their events
(R140, R69). -/
theorem operation_panelHears {body : State → Run Result} {acts : List Act} {s : State}
    (hbody : body { s with busy := true } = runReturning acts .none { s with busy := true }) (hd : allDisplay acts)
    (hr : busReady (writeCount (actEvents acts)) s) :
    ∃ t, operation body s = .next t ∧ t.status = .ok ∧ t.panel = panelHears s (actEvents acts) :=
  ⟨_, operation_completes acts s.panel hbody hd hr, rfl, rfl⟩

theorem dFillrect_completes {s : State} {x y w h : Int} {color : Half}
    (hr : busReady (writeCount (displayFrames s.cfg (.dFillrect x y w h color))) s) :
    ∃ t, exec (.dFillrect x y w h color) s = .next t ∧ t.status = .ok
      ∧ t.panel = panelHears s (displayFrames s.cfg (.dFillrect x y w h color)) := by
  rw [← actEvents_fillActs] at hr ⊢
  exact operation_panelHears rfl (fillActs_display s.cfg x y w h color) hr

/-- Settles O56: the rectangle's window takes one pixel of the colour for each of its places. -/
theorem fillRectShowsTheRectangle : Obligations.FillRectShowsTheRectangle := by
  intro s x y w h color hc hwf htakes hr
  obtain ⟨t, hexec, hstatus, hpanel⟩ := dFillrect_completes hr
  obtain ⟨x0, y0, x1, y1, splits, ⟨ex, ey, exw, eyh⟩, ⟨hx, hx1, hy, hy1⟩, hframes, hsplits⟩ :=
    displayFrames_dFillrect hc x y w h color
  have hlen := List.length_replicate (n := (x1 - x0 + 1) * (y1 - y0 + 1)) (a := color)
  obtain ⟨hdone, hlive, -, hother⟩ := windowThenPixelsFillsRowMajor s.cfg s.heard x0 y0 x1 y1 splits _ hc htakes hwf
    hx hx1 hy hy1 hlen hsplits
  rw [hframes, panelHears] at hpanel
  rw [← hpanel] at hdone hlive hother
  refine ⟨t, hexec, hstatus, hlive, hdone, fun px py hpx hpy => ?_⟩
  split_ifs with hin
  · rw [hpanel, windowThenPixels_pixel hc htakes hwf hx hx1 hy hy1 hlen hsplits (by omega), List.getElem?_replicate,
      if_pos (window_pixel_lt (by omega))]
  · exact hother px py hpx hpy (by omega)

/-! ### A glyph (R111, R180 to R182) -/

/-- The 64 pixels of a glyph, row by row (R180). -/
def glyphPixels (g : List Byte) (fg bg : Half) : List Half :=
  (List.range 64).map fun p => glyphPixel (g.getD (p / 8) 0) (p % 8) fg bg

/-- The glyph buffer is the pixels' bytes (R180). -/
theorem raster_eq (g : List Byte) (fg bg : Half) : raster g fg bg = (glyphPixels g fg bg).flatMap be16 := by
  have rows : List.range 64 = (List.range 8).flatMap fun r => (List.range 8).map fun k => r * 8 + k := by decide
  simp only [raster, rasterRow, glyphPixels, rows, List.map_flatMap, List.map_map, List.flatMap_assoc,
    List.flatMap_map]
  refine List.flatMap_congr fun r _ => List.flatMap_congr fun k hk => ?_
  have hk8 : k < 8 := List.mem_range.1 hk
  have hrow : (r * 8 + k) / 8 = r := by omega
  have hcol : (r * 8 + k) % 8 = k := by omega
  simp only [Function.comp_apply, hrow, hcol]

theorem length_glyphPixels (g : List Byte) (fg bg : Half) : (glyphPixels g fg bg).length = 64 := by
  simp [glyphPixels]

/-- Bit 7 − k of a glyph row as a number (R111). -/
theorem glyphPixel_eq (row : Byte) (k : Nat) (fg bg : Half) :
    glyphPixel row k fg bg = if (row.toNat >>> (7 - k)) &&& 1 = 1 then fg else bg := by
  have hbit : row.getLsbD (7 - k) = decide ((row.toNat >>> (7 - k)) &&& 1 = 1) := by
    rw [← BitVec.testBit_toNat, Nat.testBit, Nat.and_comm, Nat.and_one_is_mod]
    rcases Nat.mod_two_eq_zero_or_one (row.toNat >>> (7 - k)) with e | e <;> simp [e]
  simp only [glyphPixel, hbit, decide_eq_true_eq]

theorem glyphPixels_getElem? (g : List Byte) (fg bg : Half) {r k : Nat} (hr : r < 8) (hk : k < 8) :
    (glyphPixels g fg bg)[r * 8 + k]?
      = some (if ((g.getD r 0).toNat >>> (7 - k)) &&& 1 = 1 then fg else bg) := by
  have hlt : r * 8 + k < 64 := by omega
  have hrow : (r * 8 + k) / 8 = r := by omega
  have hcol : (r * 8 + k) % 8 = k := by omega
  rw [glyphPixels, List.getElem?_map, List.getElem?_range hlt, Option.map_some, hrow, hcol, glyphPixel_eq]

/-- A glyph's frames are its 8 × 8 window and its pixels (R181). -/
theorem glyphFrames_eq (c : Config) (ch : Byte) (x y : Nat) (fg bg : Half) :
    glyphFrames c ch x y fg bg
      = windowFrames c (BitVec.ofNat 16 x) (BitVec.ofNat 16 y) (BitVec.ofNat 16 (x + 7)) (BitVec.ofNat 16 (y + 7))
        ++ [raster (glyphOf c ch) fg bg].flatMap dataFrame := by
  have cast : ∀ n : Nat, ((n : Int) + 7) = ((n + 7 : Nat) : Int) := fun _ => rfl
  simp only [glyphFrames, cast, BitVec.ofInt_natCast, List.flatMap_singleton]

theorem dGlyph_completes {s : State} {ch : Byte} {x y : Int} {fg bg : Half} (hgood : glyphBad x y = false)
    (hr : busReady 6 s) :
    ∃ t, exec (.dGlyph ch x y fg bg) s = .next t ∧ t.status = .ok
      ∧ t.panel = panelHears s (glyphFrames s.cfg ch x y fg bg) := by
  have hbody : hostBody (.dGlyph ch x y fg bg) { s with busy := true }
      = runReturning (drawGlyph s.cfg ch x y fg bg) .none { s with busy := true } := by
    rw [hostBody, hgood, if_neg Bool.false_ne_true]
  rw [exec_host rfl, ← actEvents_drawGlyph]
  exact operation_panelHears hbody (drawGlyph_display s.cfg ch x y fg bg) (by simpa using hr)

/-- Settles O57: the glyph's window takes its 64 pixels. -/
theorem glyphShowsItsBitmap : Obligations.GlyphShowsItsBitmap := by
  intro s ch x y fg bg hc hwf htakes hx hy hr
  obtain ⟨⟨-, hW⟩, -, hH⟩ := panelSize_of_valid hc
  have hgood : glyphBad x y = false := by simp [glyphBad]; omega
  obtain ⟨t, hexec, hstatus, hpanel⟩ := dGlyph_completes (ch := ch) (fg := fg) (bg := bg) hgood hr
  have hlen : (glyphPixels (glyphOf s.cfg ch) fg bg).length = (x + 7 - x + 1) * (y + 7 - y + 1) := by
    rw [length_glyphPixels, Nat.add_sub_cancel_left, Nat.add_sub_cancel_left]
  have hbytes : [raster (glyphOf s.cfg ch) fg bg].flatten = (glyphPixels (glyphOf s.cfg ch) fg bg).flatMap be16 := by
    rw [List.flatten_singleton, raster_eq]
  obtain ⟨-, hlive, -, hother⟩ := windowThenPixelsFillsRowMajor s.cfg s.heard x y (x + 7) (y + 7) _ _ hc htakes hwf
    (by omega) hx (by omega) hy hlen hbytes
  rw [glyphFrames_eq, panelHears] at hpanel
  rw [← hpanel] at hlive hother
  refine ⟨t, hexec, hstatus, hlive, fun r k hr8 hk8 => ?_, hother⟩
  rw [hpanel, windowThenPixels_pixel hc htakes hwf (by omega) hx (by omega) hy hlen hbytes (by omega),
    ← glyphPixels_getElem? (glyphOf s.cfg ch) fg bg hr8 hk8]
  simp only [Nat.add_sub_cancel_left]

end Sys2Proof.Machine

/-! ## The proofs of the statements of spec/30_encoding.md -/

/-! ### The descriptor round trip (R115 to R121) -/

namespace Sys2Proof

/-- A variable part with its own length byte is taken whole (R121). -/
theorem exactly_ofNat_length {bs : List Byte} (h : lengthInRange bs = true) (i : Instr) :
    exactly (BitVec.ofNat 8 bs.length) bs i = .ok i :=
  exactly_length i (ofNat_length h).symm

/-- Settles O1, layout by layout: an s16 field and a u16 field decode back to their values, and a variable part is as
long as its length byte says. -/
theorem hostDescriptorRoundTrip : Obligations.HostDescriptorRoundTrip := by
  intro c i hhost hwf
  cases i with
  | dWrcmd op payload => exact exactly_ofNat_length hwf _
  | dSetwin x0 y0 x1 y1 =>
    simp only [Instr.wellFormed, Bool.and_eq_true, and_assoc] at hwf
    obtain ⟨hx0, hy0, hx1, hy1⟩ := hwf
    show Except.ok (Instr.dSetwin (s16 _ _) (s16 _ _) (s16 _ _) (s16 _ _)) = _
    rw [s16_s16Bytes hx0, s16_s16Bytes hy0, s16_s16Bytes hx1, s16_s16Bytes hy1]
  | dFillrect x y w h color =>
    simp only [Instr.wellFormed, Bool.and_eq_true, and_assoc] at hwf
    obtain ⟨hx, hy, hw, hh⟩ := hwf
    show Except.ok (Instr.dFillrect (s16 _ _) (s16 _ _) (s16 _ _) (s16 _ _) (unbe16 _ _)) = _
    rw [s16_s16Bytes hx, s16_s16Bytes hy, s16_s16Bytes hw, s16_s16Bytes hh, Machine.unbe16_hi8_lo8]
  | dGlyph ch x y fg bg =>
    simp only [Instr.wellFormed, Bool.and_eq_true] at hwf
    obtain ⟨hx, hy⟩ := hwf
    show Except.ok (Instr.dGlyph ch (s16 _ _) (s16 _ _) (unbe16 _ _) (unbe16 _ _)) = _
    rw [s16_s16Bytes hx, s16_s16Bytes hy, Machine.unbe16_hi8_lo8, Machine.unbe16_hi8_lo8]
  | dText x y fg bg text =>
    simp only [Instr.wellFormed, Bool.and_eq_true, and_assoc] at hwf
    obtain ⟨hx, hy, htext⟩ := hwf
    show exactly _ _ (.dText (s16 _ _) (s16 _ _) (unbe16 _ _) (unbe16 _ _) text) = _
    rw [exactly_ofNat_length htext, s16_s16Bytes hx, s16_s16Bytes hy, Machine.unbe16_hi8_lo8, Machine.unbe16_hi8_lo8]
  | dTextd x y fg text =>
    simp only [Instr.wellFormed, Bool.and_eq_true, and_assoc] at hwf
    obtain ⟨hx, hy, htext⟩ := hwf
    show exactly _ _ (.dTextd (s16 _ _) (s16 _ _) (unbe16 _ _) text) = _
    rw [exactly_ofNat_length htext, s16_s16Bytes hx, s16_s16Bytes hy, Machine.unbe16_hi8_lo8]
  | tNorm rawX rawY =>
    simp only [Instr.wellFormed, Bool.and_eq_true] at hwf
    obtain ⟨hX, hY⟩ := hwf
    show Except.ok (Instr.tNorm (s16 _ _) (s16 _ _)) = _
    rw [s16_s16Bytes hX, s16_s16Bytes hY]
  | dReset => rfl
  | dInit => rfl
  | dCpack r g b => rfl
  | tSample => rfl
  | tGettouch => rfl
  | _ => cases hhost

/-- Settles O2, from what each layout decodes; a descriptor without operands is its opcode alone. -/
theorem decodedDescriptorIsItsEncoding : Obligations.DecodedDescriptorIsItsEncoding := by
  intro c bs i h
  have nullary : ∀ {hop : Byte} {j : Instr} {rest : List Byte}, decodesTo c [hop] j →
      decodeNullary j rest = .ok i → decodesTo c (hop :: rest) i := by
    rintro hop j rest hj h
    obtain ⟨rfl, rfl⟩ := decodeNullary_ok h
    exact hj
  cases bs with
  | nil => cases h
  | cons hop rest =>
    obtain ⟨rfl, h⟩ | ⟨rfl, h⟩ | ⟨rfl, h⟩ | ⟨rfl, h⟩ | ⟨rfl, h⟩ | ⟨rfl, h⟩ | ⟨rfl, h⟩ | ⟨rfl, h⟩ | ⟨rfl, h⟩ | ⟨rfl, h⟩
      | ⟨rfl, h⟩ | ⟨rfl, h⟩ := decode_cases h
    · exact nullary ⟨rfl, rfl, rfl⟩ h
    · exact nullary ⟨rfl, rfl, rfl⟩ h
    · exact decodeWrcmd_ok c h
    · exact decodeSetwin_ok c h
    · exact decodeFillrect_ok c h
    · exact decodeGlyph_ok c h
    · exact decodeText_ok c h
    · exact decodeTextd_ok c h
    · exact decodeCpack_ok c h
    · exact nullary ⟨rfl, rfl, rfl⟩ h
    · exact nullary ⟨rfl, rfl, rfl⟩ h
    · exact decodeNorm_ok c h

/-! ### The wire frames (R101, R103 to R107, R113) -/

/-- The opcodes of the panel's frames differ, and so do the two conversion requests' (log 13). -/
theorem wireDistinct_iff (c : Config) :
    c.wireDistinct = true ↔ [c.opCaset, c.opRaset, c.opRamwr, c.opSlpout, c.opDispon].Nodup ∧ c.opConvX ≠ c.opConvY := by
  simp [Config.wireDistinct]

/-- Settles O3, frame by frame: the decoder's earlier opcodes are others, and a 16-bit operand decodes back to its
value. -/
theorem wireFrameRoundTrip : Obligations.WireFrameRoundTrip := by
  intro c i hdistinct hframe
  obtain ⟨hpanel, hconv⟩ := (wireDistinct_iff c).1 hdistinct
  simp only [List.nodup_cons, List.mem_cons, List.not_mem_nil, or_false, not_or] at hpanel
  obtain ⟨⟨hcr, -⟩, -, ⟨hws, hwd⟩, hsd, -⟩ := hpanel
  cases i with
  | wireCaset x0 x1 => simp [Instr.target, encode, be16, decodeFrame, decodePanelFrame]
  | wireRaset y0 y1 => simp [Instr.target, encode, be16, decodeFrame, decodePanelFrame, Ne.symm hcr]
  | wireRamwr => exact if_pos rfl
  | wireSlpout => exact (if_neg (Ne.symm hws)).trans (if_pos rfl)
  | wireDispon => exact (if_neg (Ne.symm hwd)).trans ((if_neg (Ne.symm hsd)).trans (if_pos rfl))
  | wireConvX => exact if_pos ⟨rfl, rfl, rfl⟩
  | wireConvY => exact (if_neg fun h => hconv h.2.2.symm).trans (if_pos ⟨rfl, rfl, rfl⟩)
  | _ => cases hframe

/-! ### Malformed descriptors (R119, R234) -/

/-- The twelve host opcodes (R116). -/
def hostOpcodes : List Byte := [0x01, 0x02, 0x03, 0x04, 0x05, 0x06, 0x07, 0x08, 0x09, 0x10, 0x11, 0x12]

/-- A descriptor that is empty, has a reserved opcode, or is not as long as its layout (R119). -/
def malformed (d : List Byte) : Prop := d = [] ∨ d.headD 0 ∉ hostOpcodes ∨ d.length ≠ descriptorLength d

theorem decodeNullary_of_length (i : Instr) {rest : List Byte} (h : rest.length = 0) :
    decodeNullary i rest = .ok i := by
  rw [List.length_eq_zero_iff.1 h, decodeNullary]

theorem decodeWrcmd_of_length {rest : List Byte} (h : rest.length = 2 + (rest.getD 1 0).toNat) :
    ∃ i, decodeWrcmd rest = .ok i :=
  match rest, h with
  | [], h => absurd h (by simp)
  | [_], h => absurd h (by simp)
  | _ :: _ :: payload, h => ⟨_, exactly_length _ (by simp at h; omega)⟩

theorem decodeSetwin_of_length {rest : List Byte} (h : rest.length = 8) : ∃ i, decodeSetwin rest = .ok i :=
  match rest, h with
  | [_, _, _, _, _, _, _, _], _ => ⟨_, rfl⟩

theorem decodeFillrect_of_length {rest : List Byte} (h : rest.length = 10) : ∃ i, decodeFillrect rest = .ok i :=
  match rest, h with
  | [_, _, _, _, _, _, _, _, _, _], _ => ⟨_, rfl⟩

theorem decodeGlyph_of_length {rest : List Byte} (h : rest.length = 9) : ∃ i, decodeGlyph rest = .ok i :=
  match rest, h with
  | [_, _, _, _, _, _, _, _, _], _ => ⟨_, rfl⟩

theorem decodeCpack_of_length {rest : List Byte} (h : rest.length = 3) : ∃ i, decodeCpack rest = .ok i :=
  match rest, h with
  | [_, _, _], _ => ⟨_, rfl⟩

theorem decodeNorm_of_length {rest : List Byte} (h : rest.length = 4) : ∃ i, decodeNorm rest = .ok i :=
  match rest, h with
  | [_, _, _, _], _ => ⟨_, rfl⟩

/-- A list of more than `n` elements is `n` of them, one more, and the rest. -/
theorem exists_append_cons_of_lt_length {bs : List Byte} {n : Nat} (h : n < bs.length) :
    ∃ pre b post, bs = pre ++ b :: post ∧ pre.length = n :=
  ⟨bs.take n, bs[n], bs.drop (n + 1), by simp, by simp; omega⟩

theorem decodeText_of_length {rest : List Byte} (h : rest.length = 9 + (rest.getD 8 0).toNat) :
    ∃ i, decodeText rest = .ok i := by
  obtain ⟨pre, n, text, rfl, hpre⟩ := exists_append_cons_of_lt_length (bs := rest) (n := 8) (by omega)
  match pre, hpre with
  | [_, _, _, _, _, _, _, _], _ => exact ⟨_, exactly_length _ (by simp at h; omega)⟩

theorem decodeTextd_of_length {rest : List Byte} (h : rest.length = 7 + (rest.getD 6 0).toNat) :
    ∃ i, decodeTextd rest = .ok i := by
  obtain ⟨pre, n, text, rfl, hpre⟩ := exists_append_cons_of_lt_length (bs := rest) (n := 6) (by omega)
  match pre, hpre with
  | [_, _, _, _, _, _], _ => exact ⟨_, exactly_length _ (by simp at h; omega)⟩

/-- A descriptor with a host opcode and the length of its layout decodes (R116, R121). -/
theorem decode_of_length {hop : Byte} {rest : List Byte} (hhop : hop ∈ hostOpcodes)
    (hlen : (hop :: rest).length = descriptorLength (hop :: rest)) : ∃ i, decode (hop :: rest) = .ok i := by
  have counted : ∀ (n : Nat) {k v : Nat}, k + 1 = n + 1 + v → k = n + v := by omega
  simp only [hostOpcodes, List.mem_cons, List.not_mem_nil, or_false] at hhop
  obtain rfl | rfl | rfl | rfl | rfl | rfl | rfl | rfl | rfl | rfl | rfl | rfl := hhop
  · exact ⟨_, decodeNullary_of_length .dReset (Nat.succ.inj hlen)⟩
  · exact ⟨_, decodeNullary_of_length .dInit (Nat.succ.inj hlen)⟩
  · exact decodeWrcmd_of_length (counted 2 hlen)
  · exact decodeSetwin_of_length (Nat.succ.inj hlen)
  · exact decodeFillrect_of_length (Nat.succ.inj hlen)
  · exact decodeGlyph_of_length (Nat.succ.inj hlen)
  · exact decodeText_of_length (counted 9 hlen)
  · exact decodeTextd_of_length (counted 7 hlen)
  · exact decodeCpack_of_length (Nat.succ.inj hlen)
  · exact ⟨_, decodeNullary_of_length .tSample (Nat.succ.inj hlen)⟩
  · exact ⟨_, decodeNullary_of_length .tGettouch (Nat.succ.inj hlen)⟩
  · exact decodeNorm_of_length (Nat.succ.inj hlen)

/-- What decodes has a host opcode. -/
theorem mem_hostOpcodes_of_decode {hop : Byte} {rest : List Byte} {i : Instr} (h : decode (hop :: rest) = .ok i) :
    hop ∈ hostOpcodes := by
  obtain ⟨rfl, -⟩ | ⟨rfl, -⟩ | ⟨rfl, -⟩ | ⟨rfl, -⟩ | ⟨rfl, -⟩ | ⟨rfl, -⟩ | ⟨rfl, -⟩ | ⟨rfl, -⟩ | ⟨rfl, -⟩ | ⟨rfl, -⟩
    | ⟨rfl, -⟩ | ⟨rfl, -⟩ := decode_cases h
  all_goals decide

/-- The encoding of a host operation is as long as its layout (R116, R121). -/
theorem length_encode_host {i : Instr} (hhost : i.isHost = true) (hwf : i.wellFormed = true) :
    (encode Config.tc1 i).length = descriptorLength (encode Config.tc1 i) := by
  have found : (encode Config.tc1 i).length = Laws.EncodedLength.found Config.tc1 i (encode Config.tc1 i) := by
    have distinct : Config.tc1.wireDistinct = true := by decide
    cases i with
    | dReset => rfl
    | dInit => rfl
    | dWrcmd op payload => exact Laws.EncodedLength.dWrcmd op payload hwf _ distinct
    | dText x y fg bg text => exact Laws.EncodedLength.dText x y fg bg text hwf _ distinct
    | dTextd x y fg text => exact Laws.EncodedLength.dTextd x y fg text hwf _ distinct
    | dSetwin x0 y0 x1 y1 => rfl
    | dFillrect x y w h color => rfl
    | dGlyph ch x y fg bg => rfl
    | dCpack r g b => rfl
    | tSample => rfl
    | tGettouch => rfl
    | tNorm rawX rawY => rfl
    | _ => cases hhost
  rwa [Laws.EncodedLength.found, if_pos hhost] at found

/-- A descriptor decodes exactly when it is not malformed (R119). -/
theorem decode_ok_iff (d : List Byte) : (∃ i, decode d = .ok i) ↔ ¬ malformed d := by
  cases d with
  | nil => exact ⟨fun ⟨_, h⟩ => (nomatch h), fun h => absurd (.inl rfl) h⟩
  | cons hop rest =>
    constructor
    · rintro ⟨i, h⟩ (hnil | hhop | hlen)
      · cases hnil
      · exact hhop (mem_hostOpcodes_of_decode h)
      · obtain ⟨hhost, hwf, e⟩ := decodedDescriptorIsItsEncoding Config.tc1 _ _ h
        exact hlen (e ▸ length_encode_host hhost hwf)
    · intro h
      simp only [malformed, not_or, not_not] at h
      obtain ⟨-, hhop, hlen⟩ := h
      exact decode_of_length hhop hlen

end Sys2Proof

namespace Sys2Proof.Machine

/-- A rejected descriptor writes the outcome registers and nothing else (R119, R140, R234). -/
theorem rejectDescriptor_eq {s : State} (hb : s.busy = false) :
    rejectDescriptor s = .next { s with status := .illegalOp, refused := true, resKind := .none } := by
  rw [rejectDescriptor, operation_ended hb rfl]
  simp [endOp, setResult, hb]

/-- Settles O4: a malformed descriptor is the one that does not decode, and it is rejected before any event. -/
theorem malformedDescriptorEndsIllegalOp : Obligations.MalformedDescriptorEndsIllegalOp := by
  intro s d hb hf hn
  refine ⟨fun hbad => ?_, (decode_ok_iff d).2⟩
  have rejects : issue d s = rejectDescriptor s := by
    cases hd : decode d with
    | ok i => exact absurd hbad ((decode_ok_iff d).1 ⟨i, hd⟩)
    | error e => exact issue_error hd s
  rw [step_descriptor hb hf hn, rejects, rejectDescriptor_eq hb]
  exact congrArg Host.Outcome.next (hostAdvance_of_not_ok hb nofun)

end Sys2Proof.Machine

/-! ### Written-out words and lines (R117, R122) -/

namespace Sys2Proof.Machine

/-- Settles O5, by evaluating the decoders on the words and the assembler on the lines. -/
theorem writtenOutWordsAndLinesDecode : Obligations.WrittenOutWordsAndLinesDecode :=
  ⟨by decide, by decide +kernel⟩

/-! ### Colours and readings (R110, R114) -/

/-- A byte moved left inside the low 16 bits loses nothing. -/
theorem toNat_setWidth_shiftLeft (v : Byte) {k : Nat} (hk : k ≤ 8) :
    (v.setWidth 16 <<< k).toNat = v.toNat <<< k := by
  have hlt : v.toNat <<< k < 2 ^ 16 := by
    rw [Nat.shiftLeft_eq]
    calc v.toNat * 2 ^ k < 2 ^ 8 * 2 ^ k := Nat.mul_lt_mul_of_pos_right v.isLt (Nat.two_pow_pos k)
      _ ≤ 2 ^ 8 * 2 ^ 8 := Nat.mul_le_mul_left _ (Nat.pow_le_pow_right (by decide) hk)
  rw [BitVec.toNat_shiftLeft, BitVec.toNat_setWidth_of_le (by decide), Nat.mod_eq_of_lt hlt]

/-- Settles O14: the formula's 16-bit terms do not overflow, and each field of the colour is read off bit by bit. -/
theorem colourPackingFormula : Obligations.ColourPackingFormula := by
  refine ⟨fun r g b => ⟨?number, ?red, ?green, ?blue⟩, by decide⟩
  case number =>
    simp only [colorPack, BitVec.toNat_or, toNat_setWidth_shiftLeft _ (show 8 ≤ 8 by decide),
      toNat_setWidth_shiftLeft _ (show 3 ≤ 8 by decide), BitVec.toNat_setWidth_of_le (show 8 ≤ 16 by decide),
      BitVec.toNat_and, BitVec.toNat_ushiftRight]
    rfl
  all_goals
    ext i hi
    simp [colorPack]
    interval_cases i <;> simp

theorem reading_eq (a b d : Byte) : reading [a, b, d] = (b.toNat * 256 + d.toNat) / 8 := by
  show (unbe16 b d).toNat >>> 3 = _
  rw [unbe16_toNat, Nat.shiftRight_eq_div_pow]

/-- Settles O16, from the reading as a quotient; a reading of 4096 or more is above the range's upper bound. -/
theorem readingIsTheShiftedResponse : Obligations.ReadingIsTheShiftedResponse := by
  intro a b d a'
  have hb := b.isLt
  have hd := d.isLt
  refine ⟨reading_eq a b d, by rw [reading_eq]; omega, rfl, fun r hr => ?_⟩
  have hout : outOfRange (reading [a, b, d]) = true := by 
    simp only [outOfRange, rangeHi, Bool.or_eq_true, decide_eq_true_eq]; omega
  simp [rangeFilter, hout]

/-! ### Wire frames by themselves (log 12) -/

/-- Settles O8, from the frame runner on a frame that decodes. -/
theorem stepRunsTheFrame : Obligations.StepRunsTheFrame := by
  intro s f i hb hf hd
  rw [step_frame hb hf, runFrame, hd]

/-- A wire command of the panel that is one command frame completes as that frame (R101). -/
theorem exec_commandFrame {i : Instr} {s : State} {op : Byte} {pl : List Byte} (hframe : i.isHost = false)
    (hacts : frameActs s.cfg i = cmdXact op pl) (hr : busReady (if pl.isEmpty then 1 else 2) s) :
    exec i s = .next
      { s with
        csD := .deasserted
        dc := if pl.isEmpty then .command else .data
        trace := s.trace ++ commandFrame op pl
        panel := panelHears s (commandFrame op pl)
        env := s.env.drop (if pl.isEmpty then 1 else 2)
        busCalls := s.busCalls + (if pl.isEmpty then 1 else 2) } := by
  rw [exec_frame hframe, hacts, frameAlone_completes _ (cmdXact_display op pl) (by simpa using hr)]
  simp [commandFrame_dc]

/-- Settles O34: each of the five commands is one command frame. -/
theorem wireCommandFramesComplete : Obligations.WireCommandFramesComplete := by
  refine fun s => ⟨fun a b hr => ⟨?_, ?_⟩, fun i op hi hr => ?_⟩
  · exact exec_commandFrame (pl := be16 a ++ be16 b) rfl rfl hr
  · exact exec_commandFrame (pl := be16 a ++ be16 b) rfl rfl hr
  · obtain ⟨rfl, rfl⟩ | ⟨rfl, rfl⟩ | ⟨rfl, rfl⟩ := hi
    all_goals exact exec_commandFrame (pl := []) rfl rfl hr

/-- A conversion request completes as its one exchange (R113, R200). -/
theorem frameAlone_convert (op : Byte) {s : State} (hr : busReady 1 s) :
    frameAlone (convert op) s = .next
      { s with
        csT := .deasserted
        trace := s.trace ++ conversionFrame op (answerBytes s 0)
        env := s.env.drop 1
        busCalls := s.busCalls + 1 } := by
  obtain ⟨hb, hf, he⟩ := hr
  rw [frameAlone, hb, if_neg Bool.false_ne_true, convert_completes op { s with busy := true } hf he]
  simp [answerBytes]

/-- Settles O35: each request is one conversion. -/
theorem wireConversionFramesComplete : Obligations.WireConversionFramesComplete := by
  rintro s i op (⟨rfl, rfl⟩ | ⟨rfl, rfl⟩) hr
  · exact frameAlone_convert s.cfg.opConvX hr
  · exact frameAlone_convert s.cfg.opConvY hr

end Sys2Proof.Machine

/-! ### What a command frame stores (R70 to R73, R101, R120) -/

namespace Sys2Proof.Machine

/-- A pixel write leaves every other address alone. -/
theorem Memory.read_gramWrite_other {m : Memory} (h : Memory.wf m = true) {x y a : Nat} (v : Half)
    (hhi : a ≠ gramAddr x y) (hlo : a ≠ gramAddr x y + 1) :
    Memory.read (gramWrite m x y v) a = Memory.read m a := by
  rw [gramWrite, Memory.read_write_other (Memory.write_wf h _ _) _ hlo, Memory.read_write_other h _ hhi]

/-- A panel whose next whole pixel is stored, at its stream pointer (R72). -/
structure Panel.stores (c : Config) (p : Panel) : Prop where
  streams : p.streaming = true
  ready : p.ready = true
  window : p.windowOnPanel c = true
  column : p.px < c.panelW
  row : p.py < c.panelH

/-- From panel `p` to panel `q` the bytes at the addresses `keep` and the ready flag are kept, unless the panel model has
stopped (R74). -/
def Panel.keepsAt (keep : Nat → Prop) (p q : Panel) : Prop :=
  q.refused = none → p.refused = none ∧ q.ready = p.ready
    ∧ (Memory.wf p.gram = true →
        Memory.wf q.gram = true ∧ ∀ a, keep a → Memory.read q.gram a = Memory.read p.gram a)

theorem Panel.keepsAt.refl (keep : Nat → Prop) (p : Panel) : p.keepsAt keep p :=
  fun h => ⟨h, rfl, fun hwf => ⟨hwf, fun _ _ => rfl⟩⟩

theorem Panel.keepsAt.trans {keep : Nat → Prop} {p q r : Panel} (hpq : p.keepsAt keep q) (hqr : q.keepsAt keep r) :
    p.keepsAt keep r := by
  intro hr
  obtain ⟨hq, hready, hbytes⟩ := hqr hr
  obtain ⟨hp, hready', hbytes'⟩ := hpq hq
  refine ⟨hp, hready.trans hready', fun hwf => ?_⟩
  obtain ⟨hwf', hsame'⟩ := hbytes' hwf
  obtain ⟨hwf'', hsame⟩ := hbytes hwf'
  exact ⟨hwf'', fun a ha => (hsame a ha).trans (hsame' a ha)⟩

/-- A byte keeps the addresses other than those of the pixel that it may complete. -/
theorem Panel.receive_keepsAt {keep : Nat → Prop} {c : Config} {dc : DcLevel} {p : Panel} {b : Byte}
    (h : dc = .data → p.refused = none → p.stores c →
      ¬ keep (gramAddr p.px p.py) ∧ ¬ keep (gramAddr p.px p.py + 1)) : p.keepsAt keep (p.receive c dc b) := by
  intro hlive
  obtain ⟨hp, hready, -⟩ := Panel.receive_live hlive
  refine ⟨hp, hready, fun hwf => ?_⟩
  obtain e | ⟨r, e⟩ | ⟨hdc, -, hs, hr, hw, hx, hy, v, e⟩ := Panel.receive_gram c dc p b
  · rw [e]; exact ⟨hwf, fun _ _ => rfl⟩
  · rw [e] at hlive; cases hlive
  · obtain ⟨hhi, hlo⟩ := h hdc hp ⟨hs, hr, hw, hx, hy⟩
    rw [e]
    refine ⟨gramWrite_wf hwf _ _ _, fun a ha => Memory.read_gramWrite_other hwf v ?_ ?_⟩
    · rintro rfl; exact hhi ha
    · rintro rfl; exact hlo ha

/-- A command byte stores nothing. -/
theorem Panel.receive_command_keepsAt (keep : Nat → Prop) (c : Config) (p : Panel) (op : Byte) :
    p.keepsAt keep (p.receive c .command op) :=
  Panel.receive_keepsAt nofun

/-- A stream of data bytes keeps the addresses other than those its pointer can stand at: `J` is what every live panel
on the way satisfies. -/
theorem Panel.receiveAll_keepsAt {keep : Nat → Prop} {c : Config} {J : Panel → Prop}
    (hstep : ∀ q b, J q → (q.receive c .data b).refused = none → J (q.receive c .data b))
    (hplace : ∀ q, q.stores c → J q → ¬ keep (gramAddr q.px q.py) ∧ ¬ keep (gramAddr q.px q.py + 1))
    {p : Panel} (hJ : p.refused = none → J p) (bs : List Byte) : p.keepsAt keep (p.receiveAll c .data bs) := by
  induction bs generalizing p with
  | nil => exact .refl keep p
  | cons b bs ih =>
    have one : p.keepsAt keep (p.receive c .data b) :=
      Panel.receive_keepsAt fun _ hp hs => hplace p hs (hJ hp)
    have next : (p.receive c .data b).refused = none → J (p.receive c .data b) := fun hlive =>
      hstep p b (hJ (Panel.receive_live hlive).1) hlive
    exact one.trans (ih next)

/-- What a command byte leaves of a panel model that it does not stop (R70). -/
theorem Panel.receive_command_of_live {c : Config} {p : Panel} {op : Byte}
    (h : (p.receive c .command op).refused = none) :
    p.receive c .command op =
      { p with
        cmd := some op
        args := []
        half := none
        streaming := decide (op = c.opRamwr)
        px := if op = c.opRamwr then p.xs.toNat else p.px
        py := if op = c.opRamwr then p.ys.toNat else p.py
        done := if op = c.opRamwr then false else p.done
        awake := p.awake || decide (op = c.opSlpout)
        on := p.on || decide (op = c.opDispon)
        fresh := false } := by
  obtain ⟨hp, -⟩ := Panel.receive_live h
  rw [Panel.receive_commandByte hp, Panel.command] at h ⊢
  by_cases hhalf : p.half.isSome = true
  · rw [if_pos hhalf] at h; cases h
  by_cases hready : p.ready = false ∧ Config.isWindowOp c op = true
  · rw [if_neg hhalf, if_pos hready] at h; cases h
  by_cases hbounds : op = c.opRamwr ∧ ¬ (p.colsSet = true ∧ p.rowsSet = true)
  · rw [if_neg hhalf, if_neg hready, if_pos hbounds] at h; cases h
  rw [if_neg hhalf, if_neg hready, if_neg hbounds]

/-- No data byte starts or ends a pixel stream (R71 to R73). -/
theorem Panel.receive_data_streaming {c : Config} {p : Panel} {b : Byte}
    (h : (p.receive c .data b).refused = none) : (p.receive c .data b).streaming = p.streaming := by
  obtain ⟨hp, -⟩ := Panel.receive_live h
  rw [Panel.receive_data hp, Panel.data] at h ⊢
  cases hc : p.cmd with
  | none => simp [hc, Panel.refuse] at h
  | some op =>
    simp only [hc] at h ⊢
    split_ifs at h ⊢
    · revert h; unfold Panel.colByte; split <;> [skip; split_ifs] <;> simp [Panel.refuse]
    · revert h; unfold Panel.rowByte; split <;> [skip; split_ifs] <;> simp [Panel.refuse]
    · revert h
      unfold Panel.streamByte
      split
      · simp
      · unfold Panel.pixelArrives Panel.advance
        split_ifs <;> simp [Panel.refuse]
    · rfl

/-- The panel streams into the window (x0, y0) to (x1, y1); where that lies on the panel, the stream pointer stands in it
(R70, R72). -/
structure Panel.streamsIn (c : Config) (x0 y0 x1 y1 : Half) (p : Panel) : Prop where
  command : p.cmd = some c.opRamwr
  left : p.xs = x0
  top : p.ys = y0
  right : p.xe = x1
  bottom : p.ye = y1
  inside : p.windowOnPanel c = true →
    (x0.toNat ≤ p.px ∧ p.px ≤ x1.toNat) ∧ y0.toNat ≤ p.py ∧ p.py ≤ y1.toNat

/-- The stream pointer's next place is in the window (R72). -/
theorem Panel.streamsIn.advance {c : Config} {x0 y0 x1 y1 : Half} {p : Panel} (h : p.streamsIn c x0 y0 x1 y1)
    (hw : p.windowOnPanel c = true) : p.advance.streamsIn c x0 y0 x1 y1 := by
  obtain ⟨hc, rfl, rfl, rfl, rfl, hin⟩ := h
  have hplace := hin hw
  simp only [Panel.windowOnPanel, Bool.and_eq_true, decide_eq_true_eq] at hw
  unfold Panel.advance
  split_ifs
  · exact ⟨hc, rfl, rfl, rfl, rfl, fun _ => by simp only; omega⟩
  · exact ⟨hc, rfl, rfl, rfl, rfl, fun _ => by simp only; omega⟩
  · exact ⟨hc, rfl, rfl, rfl, rfl, fun _ => hplace⟩

/-- A data byte that does not stop the panel model leaves it streaming into the same window. -/
theorem Panel.streamsIn.receive {c : Config} {x0 y0 x1 y1 : Half} {p : Panel} (hcw : c.opCaset ≠ c.opRamwr)
    (hrw : c.opRaset ≠ c.opRamwr) (h : p.streamsIn c x0 y0 x1 y1) {b : Byte}
    (hlive : (p.receive c .data b).refused = none) : (p.receive c .data b).streamsIn c x0 y0 x1 y1 := by
  obtain ⟨hp, -⟩ := Panel.receive_live hlive
  have hdata : p.receive c .data b
      = if p.streaming then p.streamByte c b else { p with args := p.args ++ [b] } := by
    simp [Panel.receive_data hp, Panel.data, h.command, hcw.symm, hrw.symm]
  rw [hdata] at hlive ⊢
  split_ifs at hlive ⊢
  · revert hlive
    unfold Panel.streamByte
    split
    · exact fun _ => ⟨h.command, h.left, h.top, h.right, h.bottom, h.inside⟩
    · unfold Panel.pixelArrives
      split_ifs with h1 h2 h3 h4
      all_goals intro hlive
      · cases hlive
      · cases hlive
      · cases hlive
      · cases hlive
      · exact Panel.streamsIn.advance ⟨h.command, h.left, h.top, h.right, h.bottom, h.inside⟩
          (Bool.eq_true_of_not_eq_false h2)
  · exact ⟨h.command, h.left, h.top, h.right, h.bottom, h.inside⟩

/-! ### When a command frame keeps the bytes at some addresses -/

/-- The command byte and any part of the payload keep them. -/
def Panel.commandKeepsAt (c : Config) (keep : Nat → Prop) (p : Panel) (op : Byte) (pl : List Byte) : Prop :=
  ∀ bs, bs <+: pl → p.keepsAt keep ((p.receive c .command op).receiveAll c .data bs)

/-- From what holds of the panel after the command byte. -/
theorem Panel.commandKeepsAt_of_stream {keep : Nat → Prop} {c : Config} {p : Panel} {op : Byte} {J : Panel → Prop}
    (hstep : ∀ q b, J q → (q.receive c .data b).refused = none → J (q.receive c .data b))
    (hplace : ∀ q, q.stores c → J q → ¬ keep (gramAddr q.px q.py) ∧ ¬ keep (gramAddr q.px q.py + 1))
    (hJ : (p.receive c .command op).refused = none → J (p.receive c .command op)) (pl : List Byte) :
    p.commandKeepsAt c keep op pl :=
  fun bs _ => (Panel.receive_command_keepsAt keep c p op).trans (Panel.receiveAll_keepsAt hstep hplace hJ bs)

/-- A command without payload stores nothing. -/
theorem Panel.commandKeepsAt_nil (c : Config) (keep : Nat → Prop) (p : Panel) (op : Byte) :
    p.commandKeepsAt c keep op [] := by
  intro bs hbs
  rw [List.prefix_nil.1 hbs]
  exact Panel.receive_command_keepsAt keep c p op

/-- A command other than memory-write stores nothing (R72, R73). -/
theorem Panel.commandKeepsAt_of_ne {c : Config} {op : Byte} (h : op ≠ c.opRamwr) (keep : Nat → Prop) (p : Panel)
    (pl : List Byte) : p.commandKeepsAt c keep op pl := by
  refine Panel.commandKeepsAt_of_stream (J := fun q => q.streaming = false) (fun q b hq hlive => ?_)
    (fun q hs hq => ?_) (fun hlive => ?_) pl
  · rw [Panel.receive_data_streaming hlive, hq]
  · exact absurd hs.streams (by simp [hq])
  · rw [Panel.receive_command_of_live hlive]
    simpa using h

/-- A panel that is not ready stores nothing (R74). -/
theorem Panel.commandKeepsAt_of_notReady {p : Panel} (h : p.refused = none → p.ready = false) (c : Config)
    (keep : Nat → Prop) (op : Byte) (pl : List Byte) : p.commandKeepsAt c keep op pl := by
  refine Panel.commandKeepsAt_of_stream (J := fun q => q.ready = false) (fun q b hq hlive => ?_)
    (fun q hs hq => ?_) (fun hlive => ?_) pl
  · obtain ⟨-, hready, -⟩ := Panel.receive_live hlive
    exact hready.trans hq
  · exact absurd hs.ready (by simp [hq])
  · obtain ⟨hp, hready, -⟩ := Panel.receive_live hlive
    exact hready.trans (h hp)

/-- An address of no pixel of the window (x0, y0) to (x1, y1). -/
def outsideWindow (x0 y0 x1 y1 : Int) (a : Nat) : Prop :=
  ∀ x y : Nat, x0 ≤ (x : Int) → (x : Int) ≤ x1 → y0 ≤ (y : Int) → (y : Int) ≤ y1 →
    a ≠ gramAddr x y ∧ a ≠ gramAddr x y + 1

/-- The two bytes of a pixel of the window are not outside it. -/
theorem not_outsideWindow {x0 y0 x1 y1 : Int} {x y : Nat} (hx : x0 ≤ (x : Int) ∧ (x : Int) ≤ x1)
    (hy : y0 ≤ (y : Int) ∧ (y : Int) ≤ y1) :
    ¬ outsideWindow x0 y0 x1 y1 (gramAddr x y) ∧ ¬ outsideWindow x0 y0 x1 y1 (gramAddr x y + 1) :=
  ⟨fun h => (h x y hx.1 hx.2 hy.1 hy.2).1 rfl, fun h => (h x y hx.1 hx.2 hy.1 hy.2).2 rfl⟩

/-- Every command stores only on the panel (R60, R72). -/
theorem Panel.commandKeepsAt_offPanel (c : Config) (p : Panel) (op : Byte) (pl : List Byte) :
    p.commandKeepsAt c (outsideWindow 0 0 ((c.panelW : Int) - 1) ((c.panelH : Int) - 1)) op pl := by
  refine Panel.commandKeepsAt_of_stream (J := fun _ => True) (fun _ _ _ _ => trivial) (fun q hs _ => ?_)
    (fun _ => trivial) pl
  have hx := hs.column
  have hy := hs.row
  exact not_outsideWindow (by omega) (by omega)

/-- Memory-write stores only in the window the panel holds (R70, R72). -/
theorem Panel.commandKeepsAt_offWindow {c : Config} (hcw : c.opCaset ≠ c.opRamwr) (hrw : c.opRaset ≠ c.opRamwr)
    (p : Panel) (pl : List Byte) :
    p.commandKeepsAt c (outsideWindow p.xs.toNat p.ys.toNat p.xe.toNat p.ye.toNat) c.opRamwr pl := by
  refine Panel.commandKeepsAt_of_stream (J := Panel.streamsIn c p.xs p.ys p.xe p.ye)
    (fun q b hq hlive => hq.receive hcw hrw hlive) (fun q hs hq => ?_) (fun hlive => ?_) pl
  · obtain ⟨hx, hy⟩ := hq.inside hs.window
    exact not_outsideWindow (by omega) (by omega)
  · rw [Panel.receive_command_of_live hlive]
    refine ⟨rfl, rfl, rfl, rfl, rfl, fun hw => ?_⟩
    simp only [Panel.windowOnPanel, Bool.and_eq_true, decide_eq_true_eq] at hw
    simp only [if_pos]
    omega

/-! ### A command frame, however it comes out (R62, R101, R144) -/

/-- The ways a write comes out (R13, R62, R272). -/
theorem busWrite_cases (bs : List Byte) (s : State) :
    busWrite bs s = .noMeaning .transportAfterFault
      ∨ busWrite bs s = .done [] (emit (.write bs) (deliver bs (usedAnswer s)))
      ∨ ∃ k, busWrite bs s = .ended .transportFault (deliver (bs.take k) (usedAnswer s))
          ∨ busWrite bs s = .stalled (deliver (bs.take k) (usedAnswer s)) := by
  unfold busWrite
  split_ifs
  · exact .inl rfl
  · cases nextAnswer s with
    | ok q => exact .inr (.inl rfl)
    | fault k => exact .inr (.inr ⟨k, .inl rfl⟩)
    | stall k => exact .inr (.inr ⟨k, .inr rfl⟩)

/-- Changing the value of a run changes no state it can come out in. -/
theorem Run.All.mapDone {α β : Type} {P : State → Prop} {r : Run α} {f : α → β} (h : r.All P) :
    (r.andThen fun a s => .done (f a) s).All P :=
  h.andThen (fun _ h => h) fun _ _ h => h

/-- The panel has received nothing of a command frame that started in `s`, or its command byte and a part of its payload
from the first byte on. -/
def heardOfCommand (s : State) (op : Byte) (pl : List Byte) (u : State) : Prop :=
  u.cfg = s.cfg
    ∧ (u.panel = s.panel
        ∨ ∃ bs, bs <+: pl ∧ u.panel = (s.panel.receive s.cfg .command op).receiveAll s.cfg .data bs)

/-- The payload of a command frame, however it comes out, from a state in which the panel is selected and has received
the command byte. -/
theorem payload_heardOfCommand {s t : State} {op : Byte} (pl : List Byte) (hcfg : t.cfg = s.cfg)
    (hcsD : t.csD = .asserted) (hpanel : t.panel = s.panel.receive s.cfg .command op) :
    (runActs ((if pl.isEmpty then [] else [.line (.dc .data), .write pl]) ++ [.line (.csD .deasserted)]) t).All
      (heardOfCommand s op pl) := by
  have part : ∀ bs, bs <+: pl → heardOfCommand s op pl (deliver bs (usedAnswer (driveLine (.dc .data) t))) := by
    refine fun bs hbs => ⟨by simpa using hcfg, .inr ⟨bs, hbs, ?_⟩⟩
    show t.panel.listen t.cfg t.csD .data bs = _
    rw [hcsD, hpanel, hcfg]
    rfl
  cases pl with
  | nil => exact ⟨hcfg, .inr ⟨[], List.nil_prefix, hpanel⟩⟩
  | cons b bs =>
    show Run.All _ ((busWrite (b :: bs) (driveLine (.dc .data) t)).andThen _ |>.andThen _)
    obtain e | e | ⟨k, e | e⟩ := busWrite_cases (b :: bs) (driveLine (.dc .data) t)
    all_goals rw [e]
    · trivial
    · exact part _ List.prefix_rfl
    · exact part _ (List.take_prefix k _)
    · exact part _ (List.take_prefix k _)

/-- A command frame, however it comes out (R62, R69, R144). -/
theorem cmdXact_heardOfCommand (op : Byte) (pl : List Byte) (s : State) :
    (runActs (cmdXact op pl) s).All (heardOfCommand s op pl) := by
  have early : ∀ k, heardOfCommand s op pl
      (deliver ([op].take k) (usedAnswer (driveLine (.dc .command) (driveLine (.csD .asserted) s)))) := by
    rintro (_ | k)
    · exact ⟨rfl, .inl rfl⟩
    · exact ⟨rfl, .inr ⟨[], List.nil_prefix, by rw [List.take_succ_cons, List.take_nil]; rfl⟩⟩
  simp only [cmdXact, List.cons_append, List.nil_append, runActs, runAct, andThen_done]
  obtain e | e | ⟨k, e | e⟩ := busWrite_cases [op] (driveLine (.dc .command) (driveLine (.csD .asserted) s))
  all_goals rw [e]
  · trivial
  · exact (payload_heardOfCommand (s := s) (op := op) (t := emit (.write [op]) (deliver [op] (usedAnswer
      (driveLine (.dc .command) (driveLine (.csD .asserted) s))))) pl rfl rfl rfl).mapDone.mapDone.mapDone
  · exact early k
  · exact early k

/-! ### Raw commands and the initialisation sequence (R120, R142, R143) -/

/-- A run that has kept the configuration and, in the panel, the bytes at the addresses `keep`. -/
def keepsPanelAt (keep : Nat → Prop) (s u : State) : Prop := u.cfg = s.cfg ∧ s.panel.keepsAt keep u.panel

theorem keepsPanelAt.trans {keep : Nat → Prop} {s t u : State} (hst : keepsPanelAt keep s t)
    (htu : keepsPanelAt keep t u) : keepsPanelAt keep s u :=
  ⟨htu.1.trans hst.1, hst.2.trans htu.2⟩

theorem cmdXact_keepsPanelAt {keep : Nat → Prop} {op : Byte} {pl : List Byte} {s : State}
    (h : s.panel.commandKeepsAt s.cfg keep op pl) : (runActs (cmdXact op pl) s).All (keepsPanelAt keep s) := by
  refine (cmdXact_heardOfCommand op pl s).mono fun u ⟨hcfg, hpanel⟩ => ⟨hcfg, ?_⟩
  obtain e | ⟨bs, hbs, e⟩ := hpanel
  · rw [e]; exact .refl keep s.panel
  · rw [e]; exact h bs hbs

/-- One list of primitives after another. -/
theorem runActs_append_keepsPanelAt {keep : Nat → Prop} {as bs : List Act} {s : State}
    (ha : (runActs as s).All (keepsPanelAt keep s))
    (hb : ∀ t, keepsPanelAt keep s t → (runActs bs t).All (keepsPanelAt keep t)) :
    (runActs (as ++ bs) s).All (keepsPanelAt keep s) := by
  rw [runActs_append]
  refine ha.andThen (fun _ h => h) fun _ t ht => ?_
  exact ((hb t ht).mono fun u hu => ht.trans hu).mapDone

/-- A write to a working register before a list of primitives. -/
theorem runActs_work_all {P : State → Prop} {w : WorkWrite} {as : List Act} {s : State}
    (h : (runActs as { s with work := writeWork w s.work }).All P) : (runActs (.work w :: as) s).All P :=
  Run.All.mapDone (f := fun rs => [] ++ rs) h

/-- The commands of the initialisation table keep what each of them keeps in every panel with this ready flag. -/
theorem tableActs_keepsPanelAt {keep : Nat → Prop} {s : State} {es : List InitEntry} {ready : Bool} (i : Nat)
    (hready : s.panel.refused = none → s.panel.ready = ready)
    (h : ∀ e ∈ es, ∀ q : Panel, (q.refused = none → q.ready = ready) → q.commandKeepsAt s.cfg keep e.op e.payload) :
    (runActs (tableActs i es) s).All (keepsPanelAt keep s) := by
  induction es generalizing i s with
  | nil => exact ⟨rfl, .refl keep s.panel⟩
  | cons e es ih =>
    refine runActs_work_all (runActs_append_keepsPanelAt (s := { s with work := writeWork (.tidx i) s.work })
      (cmdXact_keepsPanelAt (h e (List.mem_cons_self ..) s.panel hready)) fun u ⟨hcfg, hkeeps⟩ => ?_)
    refine ih (i + 1) (fun hlive => ?_) fun d hd => hcfg ▸ h d (List.mem_cons_of_mem _ hd)
    obtain ⟨hlive', hsame, -⟩ := hkeeps hlive
    exact hsame.trans (hready hlive')

/-- The initialisation sequence keeps what its table's commands keep: sleep-out and display-on have no payload. -/
theorem initActs_keepsPanelAt {keep : Nat → Prop} {s : State}
    (h : ∀ e ∈ s.cfg.initTable, ∀ q : Panel, (q.refused = none → q.ready = s.panel.ready) →
      q.commandKeepsAt s.cfg keep e.op e.payload) :
    (runActs (initActs s.cfg) s).All (keepsPanelAt keep s) := by
  have bare : ∀ (op : Byte) (t : State), (runActs (cmdXact op []) t).All (keepsPanelAt keep t) :=
    fun op t => cmdXact_keepsPanelAt (Panel.commandKeepsAt_nil _ _ _ op)
  refine runActs_append_keepsPanelAt (runActs_append_keepsPanelAt (runActs_append_keepsPanelAt ?_ ?_) ?_) ?_
  · exact tableActs_keepsPanelAt 0 (fun _ => rfl) h
  · exact fun t _ => bare _ t
  · exact fun t _ => ⟨rfl, .refl keep t.panel⟩
  · exact fun t _ => bare _ t

/-- The frame memory is as it was at the addresses `keep`, unless the panel model has stopped (R74). -/
def bytesKeptAt (keep : Nat → Prop) (s t : State) : Prop :=
  t.panel.refused = none → ∀ a, keep a → Memory.read t.panel.gram a = Memory.read s.panel.gram a

theorem memoryKept_of_bytesKeptAt {s t : State} (h : bytesKeptAt (fun _ => True) s t) : memoryKept s t :=
  fun hlive a => h hlive a trivial

theorem bytesKeptAt_of_keepsPanelAt {keep : Nat → Prop} {s u : State} (hwf : Memory.wf s.panel.gram = true)
    (h : keepsPanelAt keep s u) : bytesKeptAt keep s u := by
  intro hlive
  obtain ⟨-, -, hbytes⟩ := h.2 hlive
  exact (hbytes hwf).2

/-- The envelope's end leaves the panel to the body (R140). -/
theorem operation_bytesKeptAt {keep : Nat → Prop} {body : State → Run Result} {s t : State}
    (hbody : (body { s with busy := true }).All (bytesKeptAt keep s)) (h : operation body s = .next t) :
    bytesKeptAt keep s t := by
  obtain ⟨-, ⟨v, u, hu, rfl⟩ | ⟨st, u, hu, rfl⟩ | hu⟩ := operation_next h
  all_goals rw [hu] at hbody
  · simpa [bytesKeptAt, Run.All] using hbody
  · simpa [bytesKeptAt, Run.All] using hbody
  · exact hbody

theorem dWrcmd_bytesKeptAt {keep : Nat → Prop} {op : Byte} {pl : List Byte} {s t : State}
    (hwf : Memory.wf s.panel.gram = true)
    (hkeep : (s.panel.noteCommand s.cfg op).commandKeepsAt s.cfg keep op pl)
    (h : exec (.dWrcmd op pl) s = .next t) : bytesKeptAt keep s t := by
  have gram : (s.panel.noteCommand s.cfg op).gram = s.panel.gram := by rw [Panel.noteCommand_eq]
  have acts := (cmdXact_keepsPanelAt (s := { s with busy := true, panel := s.panel.noteCommand s.cfg op }) hkeep).mono
    fun u hu => bytesKeptAt_of_keepsPanelAt (by rwa [gram]) hu
  rw [exec_host rfl] at h
  refine operation_bytesKeptAt (Run.All.mapDone (acts.mono fun u hu => ?_)) h
  rwa [bytesKeptAt, gram] at hu

theorem dInit_bytesKeptAt {keep : Nat → Prop} {s t : State} (hwf : Memory.wf s.panel.gram = true)
    (hkeep : ∀ e ∈ s.cfg.initTable, ∀ q : Panel, (q.refused = none → q.ready = s.panel.ready) →
      q.commandKeepsAt s.cfg keep e.op e.payload)
    (h : exec .dInit s = .next t) : bytesKeptAt keep s t := by
  have acts := (initActs_keepsPanelAt (s := { s with busy := true, panel := s.panel.beginInit }) hkeep).mono
    fun u hu => bytesKeptAt_of_keepsPanelAt hwf hu
  rw [exec_host rfl] at h
  refine operation_bytesKeptAt (Run.All.andThen acts (fun _ h => h) fun _ u hu => ?_) h
  simpa [bytesKeptAt, Run.All, Panel.markReady_eq] using hu

/-- Settles O50: a raw command and every entry of the table is a command frame, and what a command frame stores is said
once for each kind of command. -/
theorem rawCommandsStoreOnlyInTheWindow : Obligations.RawCommandsStoreOnlyInTheWindow := by
  intro s t hc hwf
  obtain ⟨-, hcw, hrw⟩ := windowOps_of_valid hc
  refine ⟨fun op pl h => ⟨fun hop => ?_, ?_⟩, fun h => ⟨fun hnone => ?_, ?_⟩⟩
  · exact memoryKept_of_bytesKeptAt (dWrcmd_bytesKeptAt hwf (Panel.commandKeepsAt_of_ne hop _ _ pl) h)
  · rintro rfl
    have hkeep := Panel.commandKeepsAt_offWindow hcw hrw (s.panel.noteCommand s.cfg s.cfg.opRamwr) pl
    have kept := dWrcmd_bytesKeptAt hwf hkeep h
    rwa [Panel.noteCommand_eq] at kept
  · refine memoryKept_of_bytesKeptAt (dInit_bytesKeptAt hwf (fun e he q hq => ?_) h)
    obtain hready | htable := hnone
    · exact Panel.commandKeepsAt_of_notReady (fun hlive => (hq hlive).trans hready) _ _ _ _
    · exact Panel.commandKeepsAt_of_ne (htable e he) _ _ _
  · exact dInit_bytesKeptAt hwf (fun e _ q _ => Panel.commandKeepsAt_offPanel _ _ _ _) h

end Sys2Proof.Machine

/-! ## The proofs of the statements of spec/40_display_framing.md -/

namespace Sys2Proof.Machine

/-! ### What the end of an operation writes (R140) -/

theorem endOp_ok_none (s : State) :
    endOp .ok .none s = { s with status := .ok, resKind := .none, busy := false } := by
  simp [endOp, setResult, resultAfter]

theorem endOp_transportFault (v : Result) (s : State) :
    endOp .transportFault v s
      = { s with status := .transportFault, fault := true, resKind := .none, busy := false } := by
  simp [endOp, setResult, resultAfter]

theorem Run.Ends.mono {α : Type} {E E' : Status → Prop} {R R' : α → Prop} {r : Run α} (h : r.Ends E R)
    (hE : ∀ st, E st → E' st) (hR : ∀ a, R a → R' a) : r.Ends E' R' := by
  cases r with
  | done a s => exact hR a h
  | ended st s => exact hE st h
  | stalled s => trivial
  | noMeaning x => trivial

/-- A host operation is ended only by a TransportFault or by its range test (R14, R231, R233). -/
theorem hostBody_ends (i : Instr) (t : State) :
    (hostBody i t).Ends (fun st => st = .transportFault ∨ st = .operandRange) fun _ => True := by
  have run : ∀ acts u, (runActs acts u).Ends (fun st => st = .transportFault ∨ st = .operandRange) fun _ => True :=
    runActs_ends (.inl rfl)
  cases ht : i.target with
  | digitizer => exact (hostBody_touch_ends ht t).mono (fun _ => .inl) fun _ _ => trivial
  | panel =>
    by_cases hr : i = .dReset
    · subst hr
      exact (run _ _).andThen fun _ _ => trivial
    · by_cases hc : ∀ r g b, i ≠ .dCpack r g b
      · obtain e | ⟨acts, p, f, -, -, e⟩ := hostBody_display ht hr hc t
        · rw [e]; exact .inr rfl
        · rw [e]; exact (run _ _).andThen fun _ _ => trivial
      · push Not at hc
        obtain ⟨r, g, b, rfl⟩ := hc
        trivial

/-- Settles O42: an operation that ended has OK, TransportFault or OperandRange, and `end(s)` writes the flags by it. -/
theorem endWritesTheFlags : Obligations.EndWritesTheFlags := by
  intro i s t hi h hb
  have hends := hostBody_ends i { s with busy := true }
  have hkept := hostBody_kept i (kept_refl { s with busy := true })
  rw [exec_host hi] at h
  obtain ⟨-, ⟨v, u, hu, rfl⟩ | ⟨st, u, hu, rfl⟩ | hu⟩ := operation_next h
  all_goals
    rw [hu] at hends hkept
    obtain ⟨-, -, hfault, hrefused, ⟨-, hX, hY, hC⟩, -, hbusy, -⟩ := hkept
  case inl => simp [hfault, hrefused]
  case inr.inl => obtain rfl | rfl := hends <;> simp [hfault, hrefused, hX, hY, hC, resultAfter_none]
  case inr.inr => rw [hb] at hbusy; cases hbusy

/-! ### D.RESET (R68, R141) -/

/-- The pulse: four events, and everything known of the panel is forgotten at its low edge. -/
theorem runActs_resetActs {c : Config} (h : c.hasRst = true) (s : State) :
    runActs (resetActs c) s = .done []
      { s with
        rst := .high
        trace := s.trace ++ [.line (.rst .low), .sleep 50, .line (.rst .high), .sleep 50]
        panel := Panel.unknown } := by
  simp [resetActs, h, runActs, runAct, driveLine, setLine, emit, Panel.onDrive]

theorem runActs_resetActs_noLine {c : Config} (h : c.hasRst = false) (s : State) :
    runActs (resetActs c) s = .done [] s := by
  simp [resetActs, h, runActs]

/-- D.RESET ends with OK in whatever state its primitives come out in (R141). -/
theorem exec_dReset {s u : State} (hb : s.busy = false)
    (h : runActs (resetActs s.cfg) { s with busy := true } = .done [] u) :
    exec .dReset s = .next { u with status := .ok, resKind := .none, busy := false } := by
  rw [exec_host rfl, operation_done hb (v := .none) (by rw [hostBody, runReturning, h, andThen_done]), endOp_ok_none]

/-- Settles O21: with the line the pulse runs, without it there is no primitive at all. -/
theorem resetPulseCompletes : Obligations.ResetPulseCompletes := by
  intro s hb
  constructor
  · intro hline
    refine ⟨Panel.unknown, ⟨rfl, rfl, rfl, rfl⟩, ?_⟩
    rw [exec_dReset hb (runActs_resetActs hline _), hb]
  · intro hline
    rw [exec_dReset hb (runActs_resetActs_noLine hline _), hb]

/-! ### D.WRCMD (R101, R143, R144) -/

/-- Settles O23: a raw command runs the primitives of its one command frame. -/
theorem rawCommandCompletes : Obligations.RawCommandCompletes := by
  intro s op payload hr
  rw [exec_host rfl, operation_completes (cmdXact op payload) (s.panel.noteCommand s.cfg op) rfl
    (cmdXact_display op payload) (by simpa using hr)]
  simp [commandFrame_dc]

/-- A write that the environment faults after `k` of its bytes (R62, R231). -/
theorem busWrite_fault {s : State} {k : Nat} (hf : s.fault = false) (hq : nextAnswer s = .fault k) (bs : List Byte) :
    busWrite bs s = .ended .transportFault (deliver (bs.take k) (usedAnswer s)) := by
  simp [busWrite, hf, hq]

/-- A command frame whose opcode's write faults. -/
theorem cmdXact_opcodeFault {s : State} {k : Nat} {rest : List Answer} (hf : s.fault = false)
    (he : s.env = .fault k :: rest) (op : Byte) (pl : List Byte) :
    runActs (cmdXact op pl) s = .ended .transportFault
      { s with
        csD := .asserted, dc := .command
        panel := s.panel.receiveAll s.cfg .command ([op].take k)
        trace := s.trace ++ [.line (.csD .asserted), .line (.dc .command)]
        env := rest, busCalls := s.busCalls + 1 } := by
  have opcode := busWrite_fault (s := driveLine (.dc .command) (driveLine (.csD .asserted) s)) (k := k) hf
    (by simp [nextAnswer, he]) [op]
  simp only [cmdXact, List.cons_append, List.nil_append, runActs, runAct, andThen_done, opcode, andThen_ended]
  simp [deliver, usedAnswer, driveLine, setLine, emit, Panel.onDrive, Panel.listen, he]

/-- A command frame whose payload's write faults. -/
theorem cmdXact_payloadFault {s : State} {q : List Byte} {k : Nat} {rest : List Answer} (hf : s.fault = false)
    (he : s.env = .ok q :: .fault k :: rest) (op b : Byte) (pl : List Byte) :
    runActs (cmdXact op (b :: pl)) s = .ended .transportFault
      { s with
        csD := .asserted, dc := .data
        panel := (s.panel.receive s.cfg .command op).receiveAll s.cfg .data ((b :: pl).take k)
        trace := s.trace ++ [.line (.csD .asserted), .line (.dc .command), .write [op], .line (.dc .data)]
        env := rest, busCalls := s.busCalls + 2 } := by
  have opcode := busWrite_ok (s := driveLine (.dc .command) (driveLine (.csD .asserted) s)) (q := q) hf
    (by simp [nextAnswer, he]) [op]
  have payload := busWrite_fault (s := driveLine (.dc .data) (emit (.write [op]) (deliver [op] (usedAnswer
    (driveLine (.dc .command) (driveLine (.csD .asserted) s)))))) (k := k) (by simpa using hf)
    (by simp [nextAnswer, he]) (b :: pl)
  simp only [cmdXact, List.isEmpty_cons, Bool.false_eq_true, if_false, List.cons_append, List.nil_append, runActs,
    runAct, andThen_done, opcode, payload, andThen_ended]
  simp [deliver, usedAnswer, driveLine, setLine, emit, Panel.onDrive, Panel.listen, Panel.receiveAll, he]

/-- A raw command whose frame faults ends with TransportFault in the state the frame comes out in (R140, R232). -/
theorem exec_dWrcmd_fault {s u : State} {op : Byte} {pl : List Byte} (hb : s.busy = false)
    (h : runActs (cmdXact op pl) { s with busy := true, panel := s.panel.noteCommand s.cfg op }
      = .ended .transportFault u) :
    exec (.dWrcmd op pl) s
      = .next { u with status := .transportFault, fault := true, resKind := .none, busy := false } := by
  rw [exec_host rfl, operation_ended hb (by rw [hostBody, runReturning, h, andThen_ended]), endOp_transportFault]

/-- Settles O37: the frame stops in the write that faults, and `end(s)` leaves the lines as they are. -/
theorem commandFrameFaults : Obligations.CommandFrameFaults := by
  intro s op b pl k q rest hb hf
  constructor
  · intro he payload
    have frame := cmdXact_opcodeFault (s := { s with busy := true, panel := s.panel.noteCommand s.cfg op }) hf he op
      payload
    rw [exec_dWrcmd_fault hb frame, hb]
  · intro he
    have frame := cmdXact_payloadFault (s := { s with busy := true, panel := s.panel.noteCommand s.cfg op }) hf he op b
      pl
    rw [exec_dWrcmd_fault hb frame, hb]

/-! ### D.INIT (R70, R73, R142) -/

@[simp] theorem initFrames_csD (c : Config) (h : Heard) : (h.events c (initFrames c)).csD = .deasserted := by
  rw [initFrames, Heard.events_append, commandFrame_csD]

@[simp] theorem initFrames_dc (c : Config) (h : Heard) : (h.events c (initFrames c)).dc = .command := by
  rw [initFrames, Heard.events_append, commandFrame_dc, List.isEmpty_nil, if_pos rfl]

/-- The initialisation sequence writes no working register but TIDX (R29, R142). -/
theorem actWork_initActs (c : Config) (k : Work) : ∃ n : Nat, actWork (initActs c) k = { k with tidx := n } := by
  obtain ⟨n, h⟩ := actWork_tableActs 0 c.initTable k
  exact ⟨n, by simp only [initActs, actWork_append, actWork_cmdXact, actWork, h]⟩

/-- D.INIT's body when the transport completes its calls: the sequence from the panel D.INIT starts on, and then the
panel's readiness. -/
theorem initBody_completes {s : State} (hf : s.fault = false)
    (he : (s.env.take (writeCount (initFrames s.cfg))).all Answer.completes = true) :
    initBody s = .done .none
      { s with
        csD := .deasserted
        dc := .command
        trace := s.trace ++ initFrames s.cfg
        panel := (panelHears { s with panel := s.panel.beginInit } (initFrames s.cfg)).markReady
        work := actWork (initActs s.cfg) s.work
        env := s.env.drop (writeCount (initFrames s.cfg))
        busCalls := s.busCalls + writeCount (initFrames s.cfg) } := by
  rw [initBody, runActs_completes (initActs s.cfg) (initActs_display s.cfg) { s with panel := s.panel.beginInit } hf
    (by simpa using he), andThen_done]
  simp [State.afterEvents, panelHears]

/-- A panel model that is live once D.INIT has ended was so before, and all that changed is its readiness (R70, R74). -/
theorem Panel.markReady_live {p : Panel} (h : p.markReady.refused = none) :
    p.refused = none ∧ p.markReady = { p with ready := true } := by
  rw [Panel.markReady_eq] at h ⊢
  have hlive : p.refused = none := h
  exact ⟨hlive, by simp [hlive]⟩

/-- A panel model that is live once it has heard D.INIT's frames and D.INIT has ended is ready, awake and on, and the
premise InitTableOK stands where it stood and the panel was freshly reset (R70, R73, U21). -/
theorem initPanel_live {s : State} {p : Panel}
    (hp : p = panelHears { s with panel := s.panel.beginInit } (initFrames s.cfg))
    (h : p.markReady.refused = none) :
    p.markReady.ready = true ∧ p.markReady.awake = true ∧ p.markReady.on = true
      ∧ p.markReady.initTableOK = (s.panel.initTableOK && s.panel.fresh) := by
  obtain ⟨hlive, e⟩ := Panel.markReady_live h
  subst hp
  obtain ⟨hawake, hon, hok⟩ := initFrames_live hlive
  rw [e]
  exact ⟨rfl, hawake, hon, hok⟩

/-- Settles O22: the sequence's frames in order, and what they leave of the panel. -/
theorem initSequenceCompletes : Obligations.InitSequenceCompletes := by
  rintro s ⟨hb, hf, he⟩
  obtain ⟨n, hwork⟩ := actWork_initActs s.cfg s.work
  refine ⟨n, _, ?_, rfl, initPanel_live rfl⟩
  rw [exec_host rfl, operation_done (body := hostBody .dInit) hb
    (initBody_completes (s := { s with busy := true }) hf he), endOp_ok_none, hwork, hb]
  rfl

end Sys2Proof.Machine

/-! ## The proofs of the statements of spec/41_display_window_stream.md -/

namespace Sys2Proof.Machine

/-! ### The window of D.FILLRECT (R162, R165, R166) -/

/-- Settles O13: the rectangle lies on the panel and is not empty, and a size of 0 or less is clipped to 1, which the
panel's edge allows. -/
theorem fillWindowIsOnPanelAndNotEmpty : Obligations.FillWindowIsOnPanelAndNotEmpty := by
  intro c x y w h hc r
  obtain ⟨⟨hx, hw, hxw⟩, hy, hh, hyh⟩ : (0 ≤ r.xc ∧ 1 ≤ r.wc ∧ r.xc + r.wc ≤ c.panelW)
      ∧ 0 ≤ r.yc ∧ 1 ≤ r.hc ∧ r.yc + r.hc ≤ c.panelH := fillRect_onPanel hc x y w h
  have harea : r.wc * r.hc ≠ 0 := mul_ne_zero (by omega) (by omega)
  have hsmall : ∀ v hi : Int, v ≤ 0 → 1 ≤ clip v 1 hi → clip v 1 hi = 1 := by
    unfold clip
    omega
  refine ⟨⟨hx, by omega, by omega⟩, ⟨hy, by omega, by omega⟩, ⟨hw, hh, harea⟩, ?_, ?_⟩
  · exact fun hneg => hsmall w _ hneg hw
  · exact fun hneg => hsmall h _ hneg hh

/-- D.FILLRECT's zero-area test never fires: its primitives are the window's and the stream's (R162, R166). -/
theorem fillActs_eq {c : Config} (hc : c.valid = true) (x y w h : Int) (color : Half) :
    fillActs c x y w h color
      = setWindow c (fillRect c x y w h).window ++ streamColor c color (fillRect c x y w h).pixels := by
  obtain ⟨-, -, ⟨-, -, harea⟩, -⟩ := fillWindowIsOnPanelAndNotEmpty c x y w h hc
  rw [fillActs, if_neg harea]

/-! ### D.CPACK, D.SETWIN and D.FILLRECT when they run to their end -/

/-- Settles O29: the body is done at once, and the colour is that of the packing formula. -/
theorem colourPackCompletes : Obligations.ColourPackCompletes := by
  intro s r g b hb
  obtain ⟨hnumber, -⟩ := colourPackingFormula.1 r g b
  rw [← hnumber, BitVec.ofNat_toNat, BitVec.setWidth_eq, exec_host rfl,
    operation_done (body := hostBody (.dCpack r g b)) hb rfl]
  simp [endOp, setResult, hb]

/-- A bound held in 16 bits passes the range test of D.SETWIN (R161). -/
theorem boundBad_toNat (v : Half) : boundBad v.toNat = false := by
  have := v.isLt
  simp only [boundBad, Bool.or_eq_false_iff, decide_eq_false_iff_not]
  omega

/-- Settles O24: the range test passes, and the three frames of the window run. -/
theorem setWindowCompletes : Obligations.SetWindowCompletes := by
  intro s x0 y0 x1 y1 hr
  have hbody : hostBody (.dSetwin x0.toNat y0.toNat x1.toNat y1.toNat) { s with busy := true }
      = runReturning (setWindow s.cfg ⟨x0.toNat, y0.toNat, x1.toNat, y1.toNat⟩) .none { s with busy := true } := by
    simp [hostBody, setwinBad, boundBad_toNat]
  rw [exec_host rfl, operation_completes _ s.panel hbody (setWindow_display _ _) (by simpa using hr)]
  simp

/-- Data frames, at least one, leave the panel deselected and DC at data (R102). -/
theorem dataFrames_lines (c : Config) (h : Heard) {splits : List (List Byte)} (hne : splits ≠ []) :
    (h.events c (splits.flatMap dataFrame)).csD = .deasserted
      ∧ (h.events c (splits.flatMap dataFrame)).dc = .data := by
  obtain ⟨front, last, rfl⟩ := List.eq_nil_or_concat' splits |>.resolve_left hne
  rw [List.flatMap_append, Heard.events_append, List.flatMap_singleton]
  exact ⟨rfl, rfl⟩

/-- D.FILLRECT leaves the lines as its last data frame does: the stream is not empty (R163, R166). -/
theorem displayFrames_dFillrect_lines {c : Config} (hc : c.valid = true) (k : Heard) (x y w h : Int) (color : Half) :
    (k.events c (displayFrames c (.dFillrect x y w h color))).csD = .deasserted
      ∧ (k.events c (displayFrames c (.dFillrect x y w h color))).dc = .data := by
  obtain ⟨x0, y0, x1, y1, splits, -, -, hframes, hbytes⟩ := displayFrames_dFillrect hc x y w h color
  have hne : splits ≠ [] := by
    rintro rfl
    simp [be16, Nat.mul_succ] at hbytes
  rw [hframes, Heard.events_append]
  exact dataFrames_lines c _ hne

/-- The events of D.FILLRECT: the window's frames and the stream's (R162, R166). -/
theorem displayFrames_dFillrect_eq {c : Config} (hc : c.valid = true) (x y w h : Int) (color : Half) :
    displayFrames c (.dFillrect x y w h color)
      = windowFrames c (BitVec.ofInt 16 (fillRect c x y w h).window.x0)
            (BitVec.ofInt 16 (fillRect c x y w h).window.y0) (BitVec.ofInt 16 (fillRect c x y w h).window.x1)
            (BitVec.ofInt 16 (fillRect c x y w h).window.y1)
          ++ chunkFrames color c.chunk (fillRect c x y w h).pixels := by
  rw [← actEvents_fillActs, fillActs_eq hc, actEvents_append, actEvents_setWindow, actEvents_streamColor]

/-- Settles O25: the primitives are the window's and the stream's, and the last event is that of a data frame. -/
theorem fillRectCompletes : Obligations.FillRectCompletes := by
  intro s x y w h color hc hr
  obtain ⟨hcsD, hdc⟩ := displayFrames_dFillrect_lines hc s.heard x y w h color
  have htrace := congrArg (s.trace ++ ·) (displayFrames_dFillrect_eq hc x y w h color)
  rw [← List.append_assoc] at htrace
  rw [exec_host rfl, operation_completes (body := hostBody (.dFillrect x y w h color)) _ s.panel rfl
    (fillActs_display s.cfg x y w h color) (by rwa [actEvents_fillActs])]
  simp only [actEvents_fillActs, hcsD, hdc, htrace]
  rw [fillActs_eq hc, actWork_append, actWork_setWindow, actWork_streamColor]
  rfl

/-! ### What the window commands store (R70, R71, R160) -/

/-- The frame memory and the ready flag are as they were, unless the panel model has stopped (R74). -/
def Panel.storesNothing (p q : Panel) : Prop :=
  q.refused = none → p.refused = none ∧ q.ready = p.ready ∧ q.gram = p.gram

theorem Panel.storesNothing.refl (p : Panel) : p.storesNothing p := fun h => ⟨h, rfl, rfl⟩

theorem Panel.storesNothing.trans {p q r : Panel} (hpq : p.storesNothing q) (hqr : q.storesNothing r) :
    p.storesNothing r := by
  intro hr
  obtain ⟨hq, hready, hgram⟩ := hqr hr
  obtain ⟨hp, hready', hgram'⟩ := hpq hq
  exact ⟨hp, hready.trans hready', hgram.trans hgram'⟩

theorem Panel.storesNothing.keepsAt {p q : Panel} (h : p.storesNothing q) (keep : Nat → Prop) : p.keepsAt keep q := by
  intro hq
  obtain ⟨hp, hready, hgram⟩ := h hq
  exact ⟨hp, hready, fun hwf => ⟨hgram ▸ hwf, fun _ _ => by rw [hgram]⟩⟩

/-- A command byte stores nothing (R70). -/
theorem Panel.receive_command_storesNothing (c : Config) (p : Panel) (op : Byte) :
    p.storesNothing (p.receive c .command op) := by
  intro hlive
  obtain ⟨hp, hready, -⟩ := Panel.receive_live hlive
  exact ⟨hp, hready, by rw [Panel.receive_command_of_live hlive]⟩

/-- The panel takes data bytes as the bounds of an address command (R71). -/
def Panel.addressed (c : Config) (p : Panel) : Prop := p.cmd = some c.opCaset ∨ p.cmd = some c.opRaset

theorem Panel.boundByte_cmd {p q : Panel} {b : Byte} (hq : q = p.colByte b ∨ q = p.rowByte b)
    (hlive : q.refused = none) : q.cmd = p.cmd := by
  obtain rfl | rfl := hq
  all_goals
    revert hlive
    simp only [Panel.colByte, Panel.rowByte]
    split
    · exact fun _ => rfl
    · split_ifs
      · exact nofun
      · exact fun _ => rfl

/-- A byte of an address command that does not stop the panel model leaves it in that command (R71). -/
theorem Panel.addressed.receive {c : Config} {p : Panel} (h : p.addressed c) {b : Byte}
    (hlive : (p.receive c .data b).refused = none) : (p.receive c .data b).addressed c := by
  obtain ⟨hp, -⟩ := Panel.receive_live hlive
  have hdata : p.receive c .data b = p.colByte b ∨ p.receive c .data b = p.rowByte b := by
    rw [Panel.receive_data hp, Panel.data]
    obtain hc | hc := h <;> simp only [hc] <;> split_ifs <;> simp
  rwa [Panel.addressed, Panel.boundByte_cmd hdata hlive]

/-- The bytes of an address command store nothing (R71). -/
theorem Panel.addressed.storesNothing {c : Config} {p : Panel} (h : p.refused = none → p.addressed c)
    (bs : List Byte) : p.storesNothing (p.receiveAll c .data bs) := by
  induction bs generalizing p with
  | nil => exact .refl p
  | cons b bs ih =>
    have one : p.storesNothing (p.receive c .data b) := by
      intro hlive
      obtain ⟨hp, hready, -⟩ := Panel.receive_live hlive
      refine ⟨hp, hready, ?_⟩
      obtain e | ⟨r, e⟩ | ⟨-, ⟨op, hop, hcol, hrow⟩, -⟩ := Panel.receive_gram c .data p b
      · exact e
      · rw [e] at hlive; cases hlive
      · obtain hc | hc := h hp
        · exact absurd (Option.some.inj (hop.symm.trans hc)) hcol
        · exact absurd (Option.some.inj (hop.symm.trans hc)) hrow
    exact one.trans (ih fun hlive => (h (Panel.receive_live hlive).1).receive hlive)

/-- An address command, or a command without payload: no such command brings a pixel (R103 to R107). -/
def storeless (c : Config) (op : Byte) (pl : List Byte) : Prop := pl = [] ∨ op = c.opCaset ∨ op = c.opRaset

/-- Such a command stores nothing, however much of it arrives (R70, R71). -/
theorem Panel.command_storesNothing {c : Config} {op : Byte} {pl bs : List Byte} (hop : storeless c op pl)
    (hbs : bs <+: pl) (p : Panel) : p.storesNothing ((p.receive c .command op).receiveAll c .data bs) := by
  refine (Panel.receive_command_storesNothing c p op).trans ?_
  obtain rfl | haddress := hop
  · rw [List.prefix_nil.1 hbs]
    exact .refl _
  · refine Panel.addressed.storesNothing (fun hlive => ?_) bs
    rw [Panel.receive_command_of_live hlive]
    exact haddress.imp (congrArg some) (congrArg some)

/-- A run that has kept the configuration and stored nothing in the panel. -/
def nothingStored (s u : State) : Prop := u.cfg = s.cfg ∧ s.panel.storesNothing u.panel

/-- A run of two lists has what the first has, and the second from where the first is done. -/
theorem runActs_append_all {P : State → Prop} {as bs : List Act} {s : State} (ha : (runActs as s).All P)
    (hb : ∀ r t, runActs as s = .done r t → P t → (runActs bs t).All P) : (runActs (as ++ bs) s).All P := by
  rw [runActs_append]
  cases hr : runActs as s with
  | done r t => rw [hr] at ha; exact (hb r t hr ha).mapDone
  | ended st t => rw [hr] at ha; exact ha
  | stalled t => rw [hr] at ha; exact ha
  | noMeaning x => trivial

theorem cmdXact_nothingStored {s t : State} {op : Byte} {pl : List Byte} (hop : storeless s.cfg op pl)
    (h : nothingStored s t) : (runActs (cmdXact op pl) t).All (nothingStored s) := by
  obtain ⟨hcfg, hpanel⟩ := h
  refine (cmdXact_heardOfCommand op pl t).mono fun u ⟨hcfg', hpanel'⟩ => ⟨hcfg'.trans hcfg, hpanel.trans ?_⟩
  obtain e | ⟨bs, hbs, e⟩ := hpanel'
  · rw [e]; exact .refl _
  · rw [e, hcfg]; exact Panel.command_storesNothing hop hbs _

theorem setWindow_nothingStored (w : Window) (s : State) :
    (runActs (setWindow s.cfg w) s).All (nothingStored s) := by
  refine runActs_append_all (runActs_append_all (runActs_append_all ?_ ?_) ?_) ?_
  · exact ⟨rfl, .refl _⟩
  · exact fun _ _ _ => cmdXact_nothingStored (.inr (.inl rfl))
  · exact fun _ _ _ => cmdXact_nothingStored (.inr (.inr rfl))
  · exact fun _ _ _ => cmdXact_nothingStored (.inl rfl)

/-- Every wire command of the panel stores nothing. -/
theorem frameActs_nothingStored {i : Instr} (ht : i.target = .panel) (s : State) :
    (runActs (frameActs s.cfg i) s).All (nothingStored s) := by
  have hs : nothingStored s s := ⟨rfl, .refl _⟩
  cases i with
  | wireCaset x0 x1 => exact cmdXact_nothingStored (.inr (.inl rfl)) hs
  | wireRaset y0 y1 => exact cmdXact_nothingStored (.inr (.inr rfl)) hs
  | wireRamwr => exact cmdXact_nothingStored (.inl rfl) hs
  | wireSlpout => exact cmdXact_nothingStored (.inl rfl) hs
  | wireDispon => exact cmdXact_nothingStored (.inl rfl) hs
  | wireConvX => cases ht
  | wireConvY => cases ht
  | _ => exact hs

/-- D.SETWIN stores nothing, refused or not; a wire command has no body. -/
theorem hostBody_nothingStored {i : Instr}
    (hi : (∃ x0 y0 x1 y1, i = .dSetwin x0 y0 x1 y1) ∨ (i.isHost = false ∧ i.target = .panel)) (s : State) :
    (hostBody i s).All (nothingStored s) := by
  have hs : nothingStored s s := ⟨rfl, .refl _⟩
  obtain ⟨x0, y0, x1, y1, rfl⟩ | ⟨hframe, ht⟩ := hi
  · show Run.All _ (if _ then _ else _)
    split_ifs
    · exact hs
    · exact (setWindow_nothingStored _ s).mapDone
  · cases i with
    | wireCaset a b => exact hs
    | wireRaset a b => exact hs
    | wireRamwr => exact hs
    | wireSlpout => exact hs
    | wireDispon => exact hs
    | wireConvX => exact hs
    | wireConvY => exact hs
    | _ => cases hframe

theorem memoryKept_of_nothingStored {s u : State} (h : nothingStored s u) : memoryKept s u := by
  intro hlive a
  obtain ⟨-, -, hgram⟩ := h.2 hlive
  rw [hgram]

/-- Settles O47: address commands and commands without payload store nothing, and the end of an operation leaves the
panel. -/
theorem windowCommandsStoreNothing : Obligations.WindowCommandsStoreNothing := by
  intro i s t hi h
  have ht : i.target = .panel := by
    obtain ⟨x0, y0, x1, y1, rfl⟩ | ⟨-, ht⟩ := hi
    · rfl
    · exact ht
  have hbody := (hostBody_nothingStored hi { s with busy := true }).mono fun _ => memoryKept_of_nothingStored
  have hacts := (frameActs_nothingStored ht { s with busy := true }).mono fun _ => memoryKept_of_nothingStored
  obtain ⟨st, v, u, hu, rfl⟩ | ⟨-, u, hu, rfl⟩ | hu := exec_next_of_all hbody hacts h
  · simpa [memoryKept] using hu
  · exact hu
  · exact hu

/-! ### What a run that is done has sent (R13, R69) -/

theorem Run.andThen_eq_done {α β : Type} {r : Run α} {k : α → State → Run β} {b : β} {u : State}
    (h : r.andThen k = .done b u) : ∃ a t, r = .done a t ∧ k a t = .done b u := by
  cases r with
  | done a t => exact ⟨a, t, rfl, h⟩
  | ended st t => cases h
  | stalled t => cases h
  | noMeaning x => cases h

/-- The panel's end has heard the event of a primitive that is done. -/
theorem runAct_done_heard {a : Act} (hd : a.display = true) {s t : State} {r : List (List Byte)}
    (h : runAct a s = .done r t) : t.cfg = s.cfg ∧ t.heard = s.heard.events s.cfg (actEvents [a]) := by
  cases a with
  | line d =>
    cases h
    cases d with
    | csD v => exact ⟨rfl, rfl⟩
    | dc v => exact ⟨rfl, rfl⟩
    | rst v => cases hd
    | csT v => cases hd
  | sleep n => cases h; exact ⟨rfl, rfl⟩
  | work w => cases h; exact ⟨rfl, rfl⟩
  | xfer bs => cases hd
  | write bs =>
    have hw : busWrite bs s = .done r t := h
    obtain e | e | ⟨k, e | e⟩ := busWrite_cases bs s
    all_goals
      rw [e] at hw
      cases hw
    exact ⟨rfl, rfl⟩

/-- The panel's end has heard every event of a list of display primitives that is done. -/
theorem runActs_done_heard {acts : List Act} (hd : allDisplay acts) {s u : State} {r : List (List Byte)}
    (h : runActs acts s = .done r u) : u.cfg = s.cfg ∧ u.heard = s.heard.events s.cfg (actEvents acts) := by
  induction acts generalizing s r with
  | nil => cases h; exact ⟨rfl, rfl⟩
  | cons a as ih =>
    obtain ⟨r1, t, hfirst, hrest⟩ := Run.andThen_eq_done h
    obtain ⟨r2, v, hrun, hv⟩ := Run.andThen_eq_done hrest
    cases hv
    obtain ⟨hcfg, hheard⟩ := runAct_done_heard (hd a (List.mem_cons_self ..)) hfirst
    obtain ⟨hcfg', hheard'⟩ := ih (fun b hb => hd b (List.mem_cons_of_mem _ hb)) hrun
    have hsplit : actEvents (a :: as) = actEvents [a] ++ actEvents as := actEvents_append [a] as
    exact ⟨hcfg'.trans hcfg, by rw [hheard', hheard, hcfg, hsplit, Heard.events_append]⟩

/-! ### The window's frames on any panel (R70, R71, R160) -/

/-- An address-set command that leaves the panel model live found it ready and with no half pixel pending (R74, U19). -/
theorem Panel.takes_of_command_live {c : Config} {p : Panel}
    (h : (p.receive c .command c.opCaset).refused = none) : p.refused = none ∧ p.half = none ∧ p.ready = true := by
  obtain ⟨hp, -⟩ := Panel.receive_live h
  refine ⟨hp, ?_, ?_⟩
  · by_contra hhalf
    rw [Panel.receive_midPixel hp hhalf] at h
    cases h
  · by_contra hready
    obtain ⟨r, e⟩ := Panel.receive_beforeReady (c := c) hp (Bool.eq_false_of_not_eq_true hready) (.inl rfl)
    rw [e] at h
    cases h

/-- A window's frames that leave the panel model live found it ready and with no half pixel pending. -/
theorem takes_of_windowFrames_live {c : Config} {k : Heard} {x0 y0 x1 y1 : Half}
    (h : (k.events c (windowFrames c x0 y0 x1 y1)).panel.refused = none) :
    k.panel.refused = none ∧ k.panel.half = none ∧ k.panel.ready = true := by
  simp only [windowFrames, Heard.events_append] at h
  obtain ⟨hrows, -⟩ := commandFrame_live h
  obtain ⟨hcols, -⟩ := commandFrame_live hrows
  rw [commandFrame_panel] at hcols
  exact Panel.takes_of_command_live (Panel.receiveAll_live hcols).1

/-- After a window's frames the panel streams into it, or has stopped (R70, R71, R160). -/
theorem windowFrames_streamsIn {c : Config} (hc : c.valid = true) (k : Heard) (x0 y0 x1 y1 : Half)
    (h : (k.events c (windowFrames c x0 y0 x1 y1)).panel.refused = none) :
    (k.events c (windowFrames c x0 y0 x1 y1)).panel.streamsIn c x0 y0 x1 y1 := by
  obtain ⟨hcr, hcw, hrw⟩ := windowOps_of_valid hc
  obtain ⟨hlive, hhalf, hready⟩ := takes_of_windowFrames_live h
  obtain ⟨⟨-, hcmd, -, -, hleft, hright, htop, hbottom⟩, hpx, hpy, -⟩ :=
    windowFrames_panel x0 y0 x1 y1 hcr hcw hrw hlive hhalf hready
  refine ⟨hcmd, hleft, htop, hright, hbottom, fun hw => ?_⟩
  simp only [Panel.windowOnPanel, hleft, hright, htop, hbottom, Bool.and_eq_true, decide_eq_true_eq] at hw
  omega

/-! ### The stream's data frames, however they come out (R62, R72, R163) -/

/-- A data frame, however it comes out: a part of its bytes, from the first on, has arrived (R62, R146). -/
theorem dataXact_heard (bs : List Byte) (s : State) :
    (runActs (dataXact bs) s).All fun u =>
      u.cfg = s.cfg ∧ ∃ as, u.panel = s.panel.receiveAll s.cfg .data as := by
  simp only [dataXact, runActs, runAct, andThen_done]
  obtain e | e | ⟨k, e | e⟩ := busWrite_cases bs (driveLine (.dc .data) (driveLine (.csD .asserted) s))
  all_goals rw [e]
  · trivial
  · exact ⟨rfl, bs, rfl⟩
  · exact ⟨rfl, bs.take k, rfl⟩
  · exact ⟨rfl, bs.take k, rfl⟩

/-- Unless it has stopped, the panel has kept the bytes outside the window and streams into it. -/
def streamKept (x0 y0 x1 y1 : Half) (s u : State) : Prop :=
  keepsPanelAt (outsideWindow x0.toNat y0.toNat x1.toNat y1.toNat) s u
    ∧ (u.panel.refused = none → u.panel.streamsIn u.cfg x0 y0 x1 y1)

/-- Any bytes of the stream keep what is outside its window, and the panel streams on (R72). -/
theorem Panel.streamsIn.receiveAll {c : Config} {x0 y0 x1 y1 : Half} (hc : c.valid = true) {p : Panel}
    (h : p.refused = none → p.streamsIn c x0 y0 x1 y1) (bs : List Byte) :
    p.keepsAt (outsideWindow x0.toNat y0.toNat x1.toNat y1.toNat) (p.receiveAll c .data bs)
      ∧ ((p.receiveAll c .data bs).refused = none → (p.receiveAll c .data bs).streamsIn c x0 y0 x1 y1) := by
  obtain ⟨-, hcw, hrw⟩ := windowOps_of_valid hc
  constructor
  · refine Panel.receiveAll_keepsAt (J := Panel.streamsIn c x0 y0 x1 y1)
      (fun q b hq hlive => hq.receive hcw hrw hlive) (fun q hs hq => ?_) h bs
    obtain ⟨hx, hy⟩ := hq.inside hs.window
    exact not_outsideWindow (by omega) (by omega)
  · induction bs generalizing p with
    | nil => exact h
    | cons b bs ih => exact ih fun hlive => (h (Panel.receive_live hlive).1).receive hcw hrw hlive

theorem dataXact_streamKept {x0 y0 x1 y1 : Half} {s t : State} (hc : s.cfg.valid = true)
    (h : streamKept x0 y0 x1 y1 s t) (bs : List Byte) :
    (runActs (dataXact bs) t).All (streamKept x0 y0 x1 y1 s) := by
  obtain ⟨hkeeps, hstreams⟩ := h
  refine (dataXact_heard bs t).mono fun u ⟨hcfg, as, hpanel⟩ => ?_
  obtain ⟨hkeeps', hstreams'⟩ := Panel.streamsIn.receiveAll (hkeeps.1 ▸ hc) hstreams as
  rw [← hpanel, ← hcfg] at hstreams'
  exact ⟨hkeeps.trans ⟨hcfg, hpanel ▸ hkeeps'⟩, hstreams'⟩

/-- The stream has what its data frames and the writes of its working registers keep. -/
theorem streamColor_all {P : State → Prop} (hdata : ∀ bs t, P t → (runActs (dataXact bs) t).All P)
    (hwork : ∀ w t, P t → P { t with work := writeWork w t.work }) (c : Config) (color : Half) (n : Nat) {s : State}
    (hs : P s) : (runActs (streamColor c color n) s).All P := by
  have loop : ∀ k m t, P t → (runActs (streamLoop color c.chunk k m) t).All P := by
    intro k
    induction k with
    | zero =>
      intro m t ht
      unfold streamLoop
      split_ifs
      · exact ht
      · exact runActs_append_all (hdata _ t ht) fun _ u _ hu => hwork _ u hu
    | succ k ih =>
      exact fun m t ht => runActs_append_all (hdata _ t ht) fun _ u _ hu => runActs_work_all (ih _ _ (hwork _ u hu))
  exact runActs_work_all (runActs_work_all (loop _ n _ (hwork _ _ (hwork _ s hs))))

/-! ### What D.FILLRECT stores (R162, R72) -/

/-- A window procedure that is done leaves the panel streaming into its window, or stopped (R160). -/
theorem setWindow_done_streamsIn {s t : State} (hc : s.cfg.valid = true) {w : Window} {r : List (List Byte)}
    (h : runActs (setWindow s.cfg w) s = .done r t) (hlive : t.panel.refused = none) :
    t.panel.streamsIn t.cfg (BitVec.ofInt 16 w.x0) (BitVec.ofInt 16 w.y0) (BitVec.ofInt 16 w.x1)
      (BitVec.ofInt 16 w.y1) := by
  obtain ⟨hcfg, hheard⟩ := runActs_done_heard (setWindow_display s.cfg w) h
  have hpanel : t.panel = _ := congrArg Heard.panel hheard
  rw [actEvents_setWindow] at hpanel
  rw [hpanel] at hlive ⊢
  rw [hcfg]
  exact windowFrames_streamsIn hc s.heard _ _ _ _ hlive

/-- A window and a stream into it keep the bytes outside the window, however they come out. -/
theorem windowStream_keepsPanelAt {s : State} (hc : s.cfg.valid = true) (w : Window) (color : Half) (n : Nat) :
    (runActs (setWindow s.cfg w ++ streamColor s.cfg color n) s).All
      (keepsPanelAt (outsideWindow (BitVec.ofInt 16 w.x0).toNat (BitVec.ofInt 16 w.y0).toNat
        (BitVec.ofInt 16 w.x1).toNat (BitVec.ofInt 16 w.y1).toNat) s) := by
  refine runActs_append_all ((setWindow_nothingStored w s).mono fun u hu => ⟨hu.1, hu.2.keepsAt _⟩) ?_
  intro r t hdone hkeeps
  exact (streamColor_all (fun bs u hu => dataXact_streamKept hc hu bs) (fun _ _ hu => hu) s.cfg color n
    ⟨hkeeps, setWindow_done_streamsIn hc hdone⟩).mono fun _ hu => hu.1

theorem toNat_ofInt_of_nonneg {v : Int} (h : 0 ≤ v) (hlt : v < 65536) : ((BitVec.ofInt 16 v).toNat : Int) = v := by
  rw [BitVec.toNat_ofInt]
  omega

/-- The bounds of D.FILLRECT's window have their values in 16 bits (R165). -/
theorem fillRect_outsideWindow {c : Config} (hc : c.valid = true) (x y w h : Int) :
    outsideWindow (BitVec.ofInt 16 (fillRect c x y w h).window.x0).toNat
        (BitVec.ofInt 16 (fillRect c x y w h).window.y0).toNat (BitVec.ofInt 16 (fillRect c x y w h).window.x1).toNat
        (BitVec.ofInt 16 (fillRect c x y w h).window.y1).toNat
      = outsideWindow (fillRect c x y w h).xc (fillRect c x y w h).yc
          ((fillRect c x y w h).xc + (fillRect c x y w h).wc - 1)
          ((fillRect c x y w h).yc + (fillRect c x y w h).hc - 1) := by
  obtain ⟨⟨-, hW⟩, -, hH⟩ := panelSize_of_valid hc
  obtain ⟨⟨hx, hw, hxw⟩, hy, hh, hyh⟩ := fillRect_onPanel hc x y w h
  simp only [FillRect.window]
  rw [toNat_ofInt_of_nonneg hx (by omega), toNat_ofInt_of_nonneg hy (by omega),
    toNat_ofInt_of_nonneg (by omega) (by omega), toNat_ofInt_of_nonneg (by omega) (by omega)]

/-- Settles O48: the window's commands store nothing, and the stream's pointer stays in the window. -/
theorem fillStoresOnlyInItsWindow : Obligations.FillStoresOnlyInItsWindow := by
  intro s t x y w h color hc hwf hexec
  have hacts := windowStream_keepsPanelAt (s := { s with busy := true }) hc (fillRect s.cfg x y w h).window color
    (fillRect s.cfg x y w h).pixels
  rw [fillRect_outsideWindow hc, ← fillActs_eq hc] at hacts
  rw [exec_host rfl] at hexec
  exact operation_bytesKeptAt (body := hostBody (.dFillrect x y w h color))
    (hacts.mono fun u hu => bytesKeptAt_of_keepsPanelAt hwf hu).mapDone hexec

end Sys2Proof.Machine

/-! ## The proofs of the statements of spec/42_display_glyph_text.md -/

namespace Sys2Proof.Machine

/-! ### The glyph buffer (R180) -/

/-- In the bytes of a list of 16-bit values, bytes 2p and 2p + 1 are the high and the low byte of value p (R12). -/
theorem flatMap_be16_getElem? (vs : List Half) (p : Nat) :
    (vs.flatMap be16)[2 * p]? = vs[p]?.map hi8 ∧ (vs.flatMap be16)[2 * p + 1]? = vs[p]?.map lo8 := by
  induction vs generalizing p with
  | nil => exact ⟨rfl, rfl⟩
  | cons v vs ih =>
    cases p with
    | zero => exact ⟨rfl, rfl⟩
    | succ p => exact ih p

/-- Settles O15: the buffer is the bytes of the glyph's 64 pixels, and pixel 8r + k is column k of row r. -/
theorem rasterPixelBytes : Obligations.RasterPixelBytes := by
  intro g fg bg _
  refine ⟨length_raster g fg bg, fun r k hr hk => ?_⟩
  obtain ⟨hhigh, hlow⟩ := flatMap_be16_getElem? (glyphPixels g fg bg) (r * 8 + k)
  rw [← raster_eq, glyphPixels_getElem? g fg bg hr hk, Option.map_some] at hhigh hlow
  rw [Nat.mul_comm 8 r, hhigh, hlow, apply_ite hi8, apply_ite lo8]
  exact ⟨rfl, rfl⟩

/-! ### The counts of a glyph and of a text (R185) -/

theorem writtenBytes_append (es fs : List Event) : writtenBytes (es ++ fs) = writtenBytes es ++ writtenBytes fs := by
  induction es with
  | nil => rfl
  | cons e es ih => cases e <;> simp [writtenBytes, ih]

theorem writeCount_textFrames (c : Config) (x y : Int) (fg bg : Half) (text : List Byte) :
    writeCount (textFrames c x y fg bg text) = 6 * text.length := by
  induction text generalizing x with
  | nil => rfl
  | cons ch text ih => rw [textFrames, writeCount_append, writeCount_glyphFrames, ih, List.length_cons]; omega

/-- The window's frames are 16 events, and its bounds and opcodes 11 bytes; the buffer's frame adds 4 and 128. -/
theorem glyphFrames_counts (c : Config) (ch : Byte) (x y : Int) (fg bg : Half) :
    (glyphFrames c ch x y fg bg).length = 20 ∧ (writtenBytes (glyphFrames c ch x y fg bg)).length = 139 := by
  have hwindow : ∀ x0 y0 x1 y1, (windowFrames c x0 y0 x1 y1).length = 16
      ∧ (writtenBytes (windowFrames c x0 y0 x1 y1)).length = 11 := fun _ _ _ _ => ⟨rfl, rfl⟩
  simp [glyphFrames, writtenBytes_append, hwindow, dataFrame, writtenBytes, length_raster]

theorem textFrames_counts (c : Config) (x y : Int) (fg bg : Half) (text : List Byte) :
    (textFrames c x y fg bg text).length = 20 * text.length
      ∧ (writtenBytes (textFrames c x y fg bg text)).length = 139 * text.length := by
  induction text generalizing x with
  | nil => exact ⟨rfl, rfl⟩
  | cons ch text ih =>
    obtain ⟨hevents, hbytes⟩ := glyphFrames_counts c ch x y fg bg
    obtain ⟨hevents', hbytes'⟩ := ih (x + 8)
    rw [textFrames, writtenBytes_append, List.length_append, List.length_append, hevents, hbytes, hevents', hbytes',
      List.length_cons]
    omega

/-- Settles O59: a text's frames are its glyphs'. -/
theorem glyphAndTextCounts : Obligations.GlyphAndTextCounts := by
  intro c x y fg bg
  refine ⟨fun ch => ?_, fun text => ?_⟩
  · obtain ⟨hevents, hbytes⟩ := glyphFrames_counts c ch x y fg bg
    exact ⟨hevents, writeCount_glyphFrames c ch x y fg bg, hbytes⟩
  · obtain ⟨hevents, hbytes⟩ := textFrames_counts c x y fg bg text
    exact ⟨hevents, writeCount_textFrames c x y fg bg text, hbytes⟩

/-! ### D.GLYPH, D.TEXT and D.TEXTD when they run to their end -/

/-- A position that passes D.GLYPH's range test (R182). -/
theorem glyphBad_eq_false_iff {x y : Int} :
    glyphBad x y = false ↔ (0 ≤ x ∧ x + 7 ≤ 65535) ∧ 0 ≤ y ∧ y + 7 ≤ 65535 := by
  simp only [glyphBad, Bool.or_eq_false_iff, decide_eq_false_iff_not]
  omega

/-- A text of `n + 1` characters that passes D.TEXT's range test (R183). -/
theorem textBad_succ_eq_false_iff {x y : Int} {n : Nat} :
    textBad x y (n + 1) = false ↔ (0 ≤ x ∧ x + 8 * (n : Int) + 7 ≤ 65535) ∧ 0 ≤ y ∧ y + 7 ≤ 65535 := by
  have hadvance : ((advance : Nat) : Int) = 8 := rfl
  simp only [textBad, hadvance, Bool.and_eq_false_iff, Bool.or_eq_false_iff, decide_eq_false_iff_not]
  omega

/-- A glyph's last frame is its data frame (R181). -/
theorem glyphFrames_lines (c : Config) (h : Heard) (ch : Byte) (x y : Int) (fg bg : Half) :
    (h.events c (glyphFrames c ch x y fg bg)).csD = .deasserted
      ∧ (h.events c (glyphFrames c ch x y fg bg)).dc = .data := by
  rw [glyphFrames, Heard.events_append]
  exact ⟨dataFrame_csD c _ _, dataFrame_dc c _ _⟩

/-- A text that is not empty leaves the lines as its last glyph does (R183). -/
theorem textFrames_lines (c : Config) (h : Heard) (x y : Int) (fg bg : Half) (ch : Byte) (text : List Byte) :
    (h.events c (textFrames c x y fg bg (ch :: text))).csD = .deasserted
      ∧ (h.events c (textFrames c x y fg bg (ch :: text))).dc = .data := by
  induction text generalizing h x ch with
  | nil =>
    rw [textFrames, textFrames, List.append_nil]
    exact glyphFrames_lines c h ch x y fg bg
  | cons d text ih =>
    rw [textFrames, Heard.events_append]
    exact ih _ (x + 8) d

/-- Settles O26: the range test passes, and the primitives of DrawGlyph run. -/
theorem glyphCompletes : Obligations.GlyphCompletes := by
  intro s ch x y fg bg hx hx7 hy hy7 hr
  have hgood : glyphBad x y = false := glyphBad_eq_false_iff.2 ⟨⟨hx, hx7⟩, hy, hy7⟩
  have hbody : hostBody (.dGlyph ch x y fg bg) { s with busy := true }
      = runReturning (drawGlyph s.cfg ch x y fg bg) .none { s with busy := true } := by
    rw [hostBody, hgood, if_neg Bool.false_ne_true]
  obtain ⟨hcsD, hdc⟩ := glyphFrames_lines s.cfg s.heard ch x y fg bg
  rw [exec_host rfl, operation_completes _ s.panel hbody (drawGlyph_display s.cfg ch x y fg bg) (by simpa using hr)]
  simp only [actEvents_drawGlyph, actWork_drawGlyph, writeCount_glyphFrames, hcsD, hdc]

/-- Settles O27: an empty text is done at once; otherwise the range test passes, and the primitives of the character
loop run. -/
theorem textCompletes : Obligations.TextCompletes := by
  intro s x y fg bg
  constructor
  · intro hb
    have hbody : hostBody (.dText x y fg bg []) { s with busy := true } = .done .none { s with busy := true } := rfl
    rw [exec_host rfl, operation_done hb hbody, endOp_ok_none, hb]
  · intro ch text hx hxn hy hy7 hr
    have hgood : textBad x y (ch :: text).length = false := textBad_succ_eq_false_iff.2 ⟨⟨hx, hxn⟩, hy, hy7⟩
    have hbody : hostBody (.dText x y fg bg (ch :: text)) { s with busy := true }
        = runReturning (textLoop s.cfg x y fg bg 0 (ch :: text)) .none { s with busy := true } := by
      rw [hostBody, textBody, hgood, if_neg Bool.false_ne_true]
    have hevents : actEvents (textLoop s.cfg x y fg bg 0 (ch :: text)) = textFrames s.cfg x y fg bg (ch :: text) := by
      rw [actEvents_textLoop, Int.natCast_zero, mul_zero, add_zero]
    obtain ⟨hcsD, hdc⟩ := textFrames_lines s.cfg s.heard x y fg bg ch text
    rw [exec_host rfl, operation_completes _ s.panel hbody (textLoop_display s.cfg x y fg bg 0 (ch :: text))
      (by rwa [hevents, writeCount_textFrames])]
    simp only [hevents, actWork_textLoop, writeCount_textFrames, List.length_cons, hcsD, hdc, Nat.zero_add]

/-- D.TEXTD is D.TEXT with BG_DEFAULT, in every state (R184). -/
theorem exec_dTextd (x y : Int) (fg : Half) (text : List Byte) (s : State) :
    exec (.dTextd x y fg text) s = exec (.dText x y fg s.cfg.bgDefault text) s := rfl

/-- Settles O28: D.TEXTD completes as the D.TEXT that it is. -/
theorem textDefaultCompletes : Obligations.TextDefaultCompletes := by
  intro s x y fg
  refine ⟨fun text => exec_dTextd x y fg text s, fun ch text hx hxn hy hy7 hr => ?_⟩
  obtain ⟨-, hcompletes⟩ := textCompletes s x y fg s.cfg.bgDefault
  rw [exec_dTextd]
  exact hcompletes ch text hx hxn hy hy7 hr

/-! ### What a glyph and a text store (R72, R181 to R184) -/

theorem keepsPanelAt.mono {keep keep' : Nat → Prop} {s u : State} (h : keepsPanelAt keep s u)
    (hsub : ∀ a, keep' a → keep a) : keepsPanelAt keep' s u := by
  obtain ⟨hcfg, hpanel⟩ := h
  refine ⟨hcfg, fun hlive => ?_⟩
  obtain ⟨hlive', hready, hbytes⟩ := hpanel hlive
  refine ⟨hlive', hready, fun hwf => ?_⟩
  obtain ⟨hwf', hsame⟩ := hbytes hwf
  exact ⟨hwf', fun a ha => hsame a (hsub a ha)⟩

/-- An address outside a window is outside every window whose columns lie between its own. -/
theorem outsideWindow_columns {x0 x1 x0' x1' y0 y1 : Int} {a : Nat} (h : outsideWindow x0 y0 x1 y1 a)
    (hleft : x0 ≤ x0') (hright : x1' ≤ x1) : outsideWindow x0' y0 x1' y1 a :=
  fun x y hx hx' => h x y (hleft.trans hx) (hx'.trans hright)

/-- A glyph stores only in its window, however its procedure comes out (R181). -/
theorem drawGlyph_keepsPanelAt {s : State} (hc : s.cfg.valid = true) (ch : Byte) {x y : Int} (fg bg : Half)
    (hgood : glyphBad x y = false) :
    (runActs (drawGlyph s.cfg ch x y fg bg) s).All (keepsPanelAt (outsideWindow x y (x + 7) (y + 7)) s) := by
  obtain ⟨⟨hx, hx7⟩, hy, hy7⟩ := glyphBad_eq_false_iff.1 hgood
  have hbounds : outsideWindow x y (x + 7) (y + 7)
      = outsideWindow (BitVec.ofInt 16 x).toNat (BitVec.ofInt 16 y).toNat (BitVec.ofInt 16 (x + 7)).toNat
          (BitVec.ofInt 16 (y + 7)).toNat := by
    rw [toNat_ofInt_of_nonneg hx (by omega), toNat_ofInt_of_nonneg hy (by omega),
      toNat_ofInt_of_nonneg (by omega) (by omega), toNat_ofInt_of_nonneg (by omega) (by omega)]
  rw [hbounds]
  refine runActs_append_all ((setWindow_nothingStored _ s).mono fun u ⟨hcfg, hpanel⟩ => ⟨hcfg, hpanel.keepsAt _⟩) ?_
  intro r t hdone hkeeps
  have hstream : streamKept (BitVec.ofInt 16 x) (BitVec.ofInt 16 y) (BitVec.ofInt 16 (x + 7))
      (BitVec.ofInt 16 (y + 7)) s { t with work := writeWork (.gbuf (raster (glyphOf s.cfg ch) fg bg)) t.work } :=
    ⟨hkeeps, setWindow_done_streamsIn hc hdone⟩
  exact runActs_work_all ((dataXact_streamKept hc hstream _).mono fun _ hu => hu.1)

/-- The characters from number `i` on store only in the strip of their glyphs, however the loop comes out (R183). -/
theorem textLoop_keepsPanelAt {s : State} (hc : s.cfg.valid = true) {x y : Int} (fg bg : Half) (i : Nat)
    {text : List Byte} (hgood : textBad (x + 8 * (i : Int)) y text.length = false) :
    (runActs (textLoop s.cfg x y fg bg i text) s).All
      (keepsPanelAt (outsideWindow (x + 8 * (i : Int)) y (x + 8 * ((i + text.length : Nat) : Int) - 1) (y + 7)) s) := by
  induction text generalizing i s with
  | nil => exact ⟨rfl, .refl _ s.panel⟩
  | cons ch text ih =>
    obtain ⟨⟨hx, hxn⟩, hy⟩ := textBad_succ_eq_false_iff.1 hgood
    have hglyph : glyphBad (x + 8 * (i : Int)) y = false := glyphBad_eq_false_iff.2 ⟨⟨hx, by omega⟩, hy⟩
    have hrest : textBad (x + 8 * ((i + 1 : Nat) : Int)) y text.length = false := by
      cases text with
      | nil => rfl
      | cons d text => exact textBad_succ_eq_false_iff.2 ⟨by rw [List.length_cons] at hxn; omega, hy⟩
    have hdraw := drawGlyph_keepsPanelAt (s := { s with work := writeWork (.tidx i) s.work }) hc ch fg bg hglyph
    refine runActs_work_all (runActs_append_keepsPanelAt (hdraw.mono fun u hu => ?_) fun u ⟨hcfg, _⟩ => ?_)
    · exact hu.mono fun a ha => outsideWindow_columns ha le_rfl (by rw [List.length_cons]; omega)
    · have htail := ih (hcfg ▸ hc) (i + 1) hrest
      rw [hcfg] at htail
      exact htail.mono fun v hv => hv.mono fun a ha =>
        outsideWindow_columns ha (by omega) (by rw [List.length_cons]; omega)

theorem dGlyph_bytesKeptAt {s t : State} {ch : Byte} {x y : Int} {fg bg : Half} (hc : s.cfg.valid = true)
    (hwf : Memory.wf s.panel.gram = true) (h : exec (.dGlyph ch x y fg bg) s = .next t) :
    bytesKeptAt (outsideWindow x y (x + 7) (y + 7)) s t := by
  rw [exec_host rfl] at h
  refine operation_bytesKeptAt ?_ h
  show Run.All _ (if _ then _ else _)
  split_ifs with hbad
  · exact fun _ _ _ => rfl
  · exact ((drawGlyph_keepsPanelAt (s := { s with busy := true }) hc ch fg bg (Bool.eq_false_of_not_eq_true hbad)).mono
      fun u hu => bytesKeptAt_of_keepsPanelAt hwf hu).mapDone

theorem dText_bytesKeptAt {s t : State} {x y : Int} {fg bg : Half} {text : List Byte} (hc : s.cfg.valid = true)
    (hwf : Memory.wf s.panel.gram = true) (h : exec (.dText x y fg bg text) s = .next t) :
    bytesKeptAt (outsideWindow x y (x + 8 * (text.length : Int) - 1) (y + 7)) s t := by
  rw [exec_host rfl] at h
  refine operation_bytesKeptAt ?_ h
  show Run.All _ (if _ then _ else _)
  split_ifs with hbad
  · exact fun _ _ _ => rfl
  · have hloop := textLoop_keepsPanelAt (s := { s with busy := true }) hc (x := x) (y := y) fg bg 0 (text := text)
      (by simpa using hbad)
    rw [Int.natCast_zero, mul_zero, add_zero, Nat.zero_add] at hloop
    exact (hloop.mono fun u hu => bytesKeptAt_of_keepsPanelAt hwf hu).mapDone

/-- Settles O49: each glyph stores only in its own window, and the windows of a text make up its strip. -/
theorem textStoresOnlyInItsStrip : Obligations.TextStoresOnlyInItsStrip := by
  intro s t x y fg bg hc hwf
  refine ⟨fun ch h => dGlyph_bytesKeptAt hc hwf h, fun text => ⟨dText_bytesKeptAt hc hwf, fun h => ?_⟩⟩
  rw [exec_dTextd] at h
  exact dText_bytesKeptAt hc hwf h

end Sys2Proof.Machine

/-! ## The proofs of the statements of spec/43_touch.md -/

namespace Sys2Proof.Machine

/-! ### The calibration map (R206 to R208) -/

/-- The two reference points differ on each axis (R7). -/
theorem calibration_of_valid {c : Config} (h : c.valid = true) : c.calX0 ≠ c.calX1 ∧ c.calY0 ≠ c.calY1 := by
  simp only [Config.valid, Bool.and_eq_true, decide_eq_true_eq] at h
  omega

theorem clip_of_nonpos {v : Int} (h : v ≤ 0) (n : Nat) : clip v 0 n = 0 := by
  unfold clip; omega

theorem clip_of_size_le {v : Int} {n : Nat} (h : (n : Int) ≤ v) : clip v 0 n = n := by
  unfold clip; omega

/-- A coordinate of Normalize lies between 0 and the panel's size (R206). -/
theorem clip_mem (v : Int) (n : Nat) : 0 ≤ clip v 0 n ∧ clip v 0 n ≤ n := by
  unfold clip; omega

theorem mapAxis_first (cal0 cal1 : Int) (n : Nat) : mapAxis cal0 cal0 cal1 n = 0 := by
  simp [mapAxis, truncDiv]

theorem mapAxis_second {cal0 cal1 : Int} (h : cal0 ≠ cal1) (n : Nat) : mapAxis cal1 cal0 cal1 n = n :=
  Int.mul_tdiv_cancel_left _ (sub_ne_zero.2 h.symm)

theorem mapAxis_mono {cal0 cal1 raw raw' : Int} (h : cal0 < cal1) (hraw : raw ≤ raw') (n : Nat) :
    mapAxis raw cal0 cal1 n ≤ mapAxis raw' cal0 cal1 n :=
  Int.tdiv_le_tdiv (sub_pos.2 h) (mul_le_mul_of_nonneg_right (by omega) n.cast_nonneg)

/-- An inverted axis is an upright one read backwards. -/
theorem mapAxis_neg (raw cal0 cal1 : Int) (n : Nat) : mapAxis (-raw) (-cal0) (-cal1) n = mapAxis raw cal0 cal1 n := by
  have hnum : (-raw - -cal0) * (n : Int) = -((raw - cal0) * n) := by ring
  have hden : -cal1 - -cal0 = -(cal1 - cal0) := by ring
  rw [mapAxis, mapAxis, truncDiv, truncDiv, hnum, hden, Int.neg_tdiv_neg]

theorem clip_mapAxis_upright {cal0 cal1 : Int} (h : cal0 < cal1) (raw : Int) (n : Nat) :
    (raw ≤ cal0 → clip (mapAxis raw cal0 cal1 n) 0 n = 0)
      ∧ (cal1 ≤ raw → clip (mapAxis raw cal0 cal1 n) 0 n = n) := by
  refine ⟨fun hraw => clip_of_nonpos ?_ n, fun hraw => clip_of_size_le ?_⟩
  · exact (mapAxis_mono h hraw n).trans_eq (mapAxis_first ..)
  · exact (mapAxis_second h.ne n).symm.trans_le (mapAxis_mono h hraw n)

theorem clip_mapAxis_inverted {cal0 cal1 : Int} (h : cal1 < cal0) (raw : Int) (n : Nat) :
    (cal0 ≤ raw → clip (mapAxis raw cal0 cal1 n) 0 n = 0)
      ∧ (raw ≤ cal1 → clip (mapAxis raw cal0 cal1 n) 0 n = n) := by
  rw [← mapAxis_neg]
  obtain ⟨hfirst, hsecond⟩ := clip_mapAxis_upright (neg_lt_neg h) (-raw) n
  exact ⟨fun hraw => hfirst (neg_le_neg hraw), fun hraw => hsecond (neg_le_neg hraw)⟩

/-- Settles O19, axis by axis: the map is monotone from 0 at the first reference point to the panel's size at the
second, and an inverted axis is an upright one read backwards. -/
theorem normalizeMapsTheReferencePoints : Obligations.NormalizeMapsTheReferencePoints := by
  intro c rawX rawY hc
  obtain ⟨hX, hY⟩ := calibration_of_valid hc
  refine ⟨rfl, clip_mem _ _, clip_mem _ _, Prod.ext ?_ ?_, Prod.ext ?_ ?_, ?_, ?_, ?_, ?_⟩
  · exact clip_of_nonpos (mapAxis_first ..).le _
  · exact clip_of_nonpos (mapAxis_first ..).le _
  · exact clip_of_size_le (mapAxis_second hX _).ge
  · exact clip_of_size_le (mapAxis_second hY _).ge
  · exact fun h => clip_mapAxis_upright h _ _
  · exact fun h => clip_mapAxis_inverted h _ _
  · exact fun h => clip_mapAxis_upright h _ _
  · exact fun h => clip_mapAxis_inverted h _ _

/-- Over a positive divisor truncation and floor differ on negative dividends only, where both quotients clip to 0. -/
theorem clip_tdiv_eq_clip_fdiv_of_pos {b : Int} (hb : 0 < b) (a : Int) (n : Nat) :
    clip (a.tdiv b) 0 n = clip (a.fdiv b) 0 n := by
  rcases le_or_gt 0 a with ha | ha
  · rw [Int.fdiv_eq_tdiv_of_nonneg ha hb.le]
  · have ht : a.tdiv b ≤ 0 := (Int.tdiv_le_tdiv hb ha.le).trans_eq (Int.zero_tdiv b)
    have hf : a.fdiv b ≤ 0 := by
      rw [Int.fdiv_eq_ediv_of_nonneg a hb.le]
      exact (Int.ediv_neg_of_neg_of_pos ha hb).le
    rw [clip_of_nonpos ht, clip_of_nonpos hf]

theorem clip_tdiv_eq_clip_fdiv {b : Int} (hb : b ≠ 0) (a : Int) (n : Nat) :
    clip (a.tdiv b) 0 n = clip (a.fdiv b) 0 n := by
  rcases hb.lt_or_gt with hneg | hpos
  · rw [← Int.neg_tdiv_neg, ← Int.neg_fdiv_neg, clip_tdiv_eq_clip_fdiv_of_pos (neg_pos.2 hneg)]
  · exact clip_tdiv_eq_clip_fdiv_of_pos hpos a n

/-- Settles O20: on either axis the divisor is not 0, and the clip hides where the two quotients differ. -/
theorem truncationAndFloorAgree : Obligations.TruncationAndFloorAgree := by
  intro c rawX rawY hc
  obtain ⟨hX, hY⟩ := calibration_of_valid hc
  exact Prod.ext (clip_tdiv_eq_clip_fdiv (sub_ne_zero.2 hX.symm) _ _)
    (clip_tdiv_eq_clip_fdiv (sub_ne_zero.2 hY.symm) _ _)

/-! ### The range filter, the average and the consistency check (R202, R204, R205) -/

theorem outOfRange_or_iff (rx ry : Nat) :
    (outOfRange rx || outOfRange ry) = true ↔ ¬ (100 ≤ rx ∧ rx ≤ 4000 ∧ 100 ≤ ry ∧ ry ≤ 4000) := by
  simp only [outOfRange, rangeLo, rangeHi, Bool.or_eq_true, decide_eq_true_eq]
  omega

/-- The average of readings truncates a sum that is not negative (R204 step 5). -/
theorem average_eq (a b d : Nat) : average a b d = ((a + b + d) / 3 : Nat) := by
  rw [Int.ofNat_tdiv]
  rfl

/-- Settles O17: the filter's test is of the four bounds, and the average is a quotient of numbers. -/
theorem rangeFilterAndAverage : Obligations.RangeFilterAndAverage := by
  refine ⟨fun rx ry => ⟨fun hin => ?_, fun hout => ?_⟩, fun a b d _ _ _ _ _ _ => ?_⟩
  · exact if_neg (by rwa [outOfRange_or_iff, not_not])
  · exact if_pos ((outOfRange_or_iff rx ry).2 hout)
  · rw [average_eq]
    omega

theorem inconsistent_iff (p q r : Nat × Nat) :
    inconsistent p q r = true ↔
      50 < ((p.1 : Int) - q.1).natAbs ∨ 50 < ((p.1 : Int) - r.1).natAbs ∨ 50 < ((p.2 : Int) - q.2).natAbs := by
  simp only [inconsistent, apart, deltaMax, Bool.or_eq_true, decide_eq_true_eq, or_assoc]

/-- Settles O18: the check is the three tests, none of which reads the third sample's second coordinate. -/
theorem consistencyCheckIsAsymmetric : Obligations.ConsistencyCheckIsAsymmetric := by
  refine ⟨by decide, fun x1 y1 x2 y2 x3 y3 => ⟨?_, fun y3' => rfl⟩⟩
  rw [← Bool.not_eq_true, inconsistent_iff]
  simp only [not_or, not_lt]

/-! ### The touch operations when they run to their end (R203, R204, R207) -/

/-- A host operation whose body is done: the envelope's end follows (R140). -/
theorem exec_host_done {i : Instr} {s u : State} {v : Result} (hi : i.isHost = true) (hb : s.busy = false)
    (h : hostBody i { s with busy := true } = .done v u) : exec i s = .next (endOp .ok v u) := by
  rw [exec_host hi, operation_done hb h]

/-- Settles O33: the body is done at once, in any state that is not busy. -/
theorem normalizeCompletes : Obligations.NormalizeCompletes := by
  intro s rawX rawY hb
  rw [exec_host_done (i := .tNorm rawX rawY) rfl hb rfl]
  simp [endOp, pointResult, setResult, normalize, clip, mapAxis, truncDiv, hb]

/-- Settles O30: the body is one sample. -/
theorem sampleCompletes : Obligations.SampleCompletes := by
  rintro s ⟨hb, hf, he⟩
  have hsample := sample_completes { s with busy := true } hf he
  rw [exec_host_done (i := .tSample) rfl hb (congrArg (Run.andThen · fun p u => .done (sampleResult p) u) hsample)]
  simp [endOp, sampleResult, setResult, sampleFrames, conversionFrame, answerSample, answerReading, answerBytes, hb]

/-- T.GETTOUCH's pipeline when its first sample is (0, 0) (R204 step 1). -/
theorem touchBody_absent {s : State} (hf : s.fault = false) (he : (s.env.take 2).all Answer.completes = true)
    (h0 : answerSample s 0 = (0, 0)) :
    touchBody s = .done .noTouch
      { s with
        csT := .deasserted
        trace := s.trace ++ sampleFrames s.cfg (answerBytes s 0) (answerBytes s 1)
        work := { s.work with s1 := (0, 0) }
        env := s.env.drop 2
        busCalls := s.busCalls + 2 } := by
  rw [touchBody, sample_completes s hf he, andThen_done, h0, if_pos rfl]
  rfl

/-- Settles O31, from the pipeline's early return. -/
theorem touchAbsentCompletes : Obligations.TouchAbsentCompletes := by
  rintro s ⟨hb, hf, he⟩ h0
  rw [exec_host_done (i := .tGettouch) rfl hb (touchBody_absent (s := { s with busy := true }) hf he h0)]
  simp [endOp, setResult, answerBytes, hb]

/-- The state in which T.GETTOUCH's pipeline ends when its first sample is not (0, 0): three samples, the second and
the third after a sleep, each latched in its register (R204 step 2). -/
def threeSamples (s : State) : State :=
  { s with
    csT := .deasserted
    trace := s.trace ++ sampleFrames s.cfg (answerBytes s 0) (answerBytes s 1) ++ [.sleep 2]
      ++ sampleFrames s.cfg (answerBytes s 2) (answerBytes s 3) ++ [.sleep 2]
      ++ sampleFrames s.cfg (answerBytes s 4) (answerBytes s 5)
    work := { s.work with
      s1 := sample13 (answerSample s 0), s2 := sample13 (answerSample s 2)
      s3 := sample13 (answerSample s 4) }
    env := s.env.drop 6
    busCalls := s.busCalls + 6 }

/-- T.GETTOUCH's pipeline when its first sample is not (0, 0) (R204 steps 2 to 5). -/
theorem touchBody_present {s : State} (hf : s.fault = false) (he : (s.env.take 6).all Answer.completes = true)
    (h0 : answerSample s 0 ≠ (0, 0)) :
    touchBody s
      = .done (touchResult s.cfg (answerSample s 0) (answerSample s 2) (answerSample s 4)) (threeSamples s) := by
  have h1 : (s.env.take 2).all Answer.completes = true := completes_drop (k := 0) he (by omega)
  have h2 : ((s.env.drop 2).take 2).all Answer.completes = true := completes_drop he (by omega)
  have h3 : (((s.env.drop 2).drop 2).take 2).all Answer.completes = true := by
    rw [List.drop_drop]; exact completes_drop he (by omega)
  rw [touchBody, sample_completes s hf h1, andThen_done, if_neg h0,
    settledSample_completes _ (by exact hf) (by exact h2), andThen_done,
    settledSample_completes _ (by exact hf) (by exact h3), andThen_done]
  simp [threeSamples, latch, writeWork, answerSample, answerReading, answerBytes]

/-- T.GETTOUCH rejects three samples: the second or the third is (0, 0), or a tested difference exceeds 50 (R204 steps 3
and 4). -/
def touchRejected (p1 p2 p3 : Nat × Nat) : Prop :=
  p2 = (0, 0) ∨ p3 = (0, 0) ∨ 50 < ((p1.1 : Int) - p2.1).natAbs ∨ 50 < ((p1.1 : Int) - p3.1).natAbs
    ∨ 50 < ((p1.2 : Int) - p2.2).natAbs

theorem touchResult_of_rejected {p1 p2 p3 : Nat × Nat} (h : touchRejected p1 p2 p3) (c : Config) :
    touchResult c p1 p2 p3 = .noTouch := by
  unfold touchResult
  split_ifs with hzero hfar
  · rfl
  · rfl
  · rw [touchRejected, ← or_assoc, ← inconsistent_iff] at h
    exact absurd h (not_or.2 ⟨hzero, hfar⟩)

theorem touchResult_of_not_rejected {p1 p2 p3 : Nat × Nat} (h : ¬ touchRejected p1 p2 p3) (c : Config) :
    touchResult c p1 p2 p3
      = pointResult (normalize c ((p1.1 + p2.1 + p3.1) / 3 : Nat) ((p1.2 + p2.2 + p3.2) / 3 : Nat)) := by
  rw [touchRejected, ← or_assoc, ← inconsistent_iff, not_or] at h
  obtain ⟨hzero, hnear⟩ := h
  rw [touchResult, if_neg hzero, if_neg hnear, average_eq, average_eq]

/-- Settles O32: the pipeline ends in `threeSamples`, and the result is that of its three samples. -/
theorem touchPipelineCompletes : Obligations.TouchPipelineCompletes := by
  rintro s ⟨hb, hf, he⟩ h0
  have hexec : exec .tGettouch s = .next
      (endOp .ok (touchResult s.cfg (answerSample s 0) (answerSample s 2) (answerSample s 4))
        (threeSamples { s with busy := true })) :=
    exec_host_done rfl hb (touchBody_present (s := { s with busy := true }) hf he h0)
  refine ⟨_, rfl, fun hrej => ?_, fun hacc => ?_⟩
  · rw [hexec, touchResult_of_rejected hrej]
    simp [endOp, setResult, threeSamples, answerSample, answerReading, answerBytes, hb]
  · rw [hexec, touchResult_of_not_rejected hacc]
    simp [endOp, setResult, pointResult, threeSamples, answerSample, answerReading, answerBytes, hb]

end Sys2Proof.Machine

/-! ## The proofs of the statements of spec/60_exceptions.md -/

namespace Sys2Proof.Machine

/-! ### The range tests (R161, R182, R183, R233) -/

/-- A host operation whose range test fails: the envelope's end follows, before any event (R14, R140, R233). -/
theorem exec_raiseOperandRange {i : Instr} {s : State} (hi : i.isHost = true) (hb : s.busy = false)
    (h : hostBody i { s with busy := true } = raiseOperandRange { s with busy := true }) :
    exec i s = .next { s with status := .operandRange, refused := true, resKind := .none } := by
  rw [exec_host hi, operation_ended hb h]
  simp [endOp, setResult, hb]

/-- The four bounds that fail D.SETWIN's range test (R161). -/
theorem setwinBad_iff {x0 y0 x1 y1 : Int} :
    setwinBad x0 y0 x1 y1 = true
      ↔ x0 < 0 ∨ 65535 < x0 ∨ y0 < 0 ∨ 65535 < y0 ∨ x1 < 0 ∨ 65535 < x1 ∨ y1 < 0 ∨ 65535 < y1 := by
  simp only [setwinBad, boundBad, Bool.or_eq_true, decide_eq_true_eq, or_assoc]

/-- A text that fails D.TEXT's range test (R183, R184). -/
theorem textBody_bad {x y : Int} {text : List Byte} (h : textBad x y text.length = true) (fg bg : Half) (t : State) :
    textBody x y fg bg text t = raiseOperandRange t :=
  if_pos h

/-- Settles O36: each of the four range tests fails, and it is the first thing the body does. -/
theorem operandRangeRefused : Obligations.OperandRangeRefused := by
  intro s hb
  refine ⟨fun x0 y0 x1 y1 hbad => ?setwin, fun ch x y fg bg hbad => ?glyph, fun x y fg bg ch text hbad => ?text⟩
  case setwin => exact exec_raiseOperandRange rfl hb (if_pos (setwinBad_iff.2 hbad))
  case glyph =>
    have hglyph : glyphBad x y = true := by
      rw [← Bool.not_eq_false, glyphBad_eq_false_iff]
      omega
    exact exec_raiseOperandRange rfl hb (if_pos hglyph)
  case text =>
    have htext : textBad x y (ch :: text).length = true := by
      rw [List.length_cons, ← Bool.not_eq_false, textBad_succ_eq_false_iff]
      omega
    exact ⟨exec_raiseOperandRange rfl hb (textBody_bad htext fg bg _),
      exec_raiseOperandRange rfl hb (textBody_bad htext fg s.cfg.bgDefault _)⟩

/-! ### A call that never returns (R249, U12) -/

/-- Settles O40: `end(s)` and the end of a frame lower BUSY, so the next state is the stalled one, which keeps what every
primitive keeps. -/
theorem stalledOperationHangs : Obligations.StalledOperationHangs := by
  intro i s t h hb
  refine ⟨?_, step_busy hb⟩
  obtain ⟨st, v, u, -, rfl⟩ | ⟨-, u, -, rfl⟩ | ⟨-, hstatus, hfault, hrefused, hresults, hhost, -⟩ := exec_next_kept h
  · cases hb
  · cases hb
  · exact ⟨hstatus, hfault, hrefused, hresults, hhost⟩

/-! ### What sets FAULT (R140, R232, R239) -/

/-- Only a TransportFault sets FAULT: the run it ended, of a host operation's body or of a frame's primitives, and what
`end(s)` made of the state it was ended in. -/
theorem exec_sets_fault {i : Instr} {s t : State} (h : exec i s = .next t) (hs : s.fault = false)
    (ht : t.fault = true) :
    ∃ u, (hostBody i { s with busy := true } = .ended .transportFault u
          ∨ (i.isHost = false ∧ runActs (frameActs s.cfg i) { s with busy := true } = .ended .transportFault u))
        ∧ t = { u with status := .transportFault, fault := true, resKind := .none, busy := false } := by
  have unset : ∀ {u : State}, kept { s with busy := true } u → u.fault = false :=
    fun ⟨_, _, hfault, _⟩ => hfault.trans hs
  have ended : ∀ {st : Status} {u : State}, kept { s with busy := true } u → (endOp st .none u).fault = true →
      st = .transportFault := fun {st u} hu hset => by simpa [faultAfter, unset hu] using hset
  cases hi : i.isHost with
  | true =>
    have hkept := hostBody_kept i (kept_refl { s with busy := true })
    rw [exec_host hi] at h
    obtain ⟨-, ⟨v, u, hu, rfl⟩ | ⟨st, u, hu, rfl⟩ | hu⟩ := operation_next h
    all_goals rw [hu] at hkept
    · rw [endOp_fault, faultAfter_ok, unset hkept] at ht; cases ht
    · obtain rfl := ended hkept ht
      exact ⟨u, .inl hu, endOp_transportFault .none u⟩
    · rw [unset hkept] at ht; cases ht
  | false =>
    have hkept := runActs_all (acts := frameActs s.cfg i) (fun a _ _ => runAct_kept a)
      (kept_refl { s with busy := true })
    rw [exec_frame hi] at h
    obtain ⟨-, ⟨r, u, hu, rfl⟩ | ⟨st, u, hu, rfl⟩ | hu⟩ := frameAlone_next h
    all_goals rw [hu] at hkept
    · have hu' : u.fault = true := ht
      rw [unset hkept] at hu'; cases hu'
    · obtain rfl := ended hkept ht
      exact ⟨u, .inr ⟨rfl, hu⟩, endOp_transportFault .none u⟩
    · rw [unset hkept] at ht; cases ht

/-! ### A fault in the touch unit (R200 to R204, R232) -/

theorem touchFrames_busy (s : State) (i : Instr) (b : Bool) : touchFrames { s with busy := b } i = touchFrames s i :=
  rfl

/-- Settles O39: the run that ended stopped in its sample frames, and `end(s)` leaves the lines and the trace. -/
theorem touchFaultStopsAtTheFailingCall : Obligations.TouchFaultStopsAtTheFailingCall := by
  intro i s t htarget hs h ht
  obtain ⟨u, hended, rfl⟩ := exec_sets_fault h hs ht
  obtain ⟨hbody, hacts⟩ := touch_faultsIn htarget { s with busy := true }
  have hstop : StoppedIn { s with busy := true } u (touchFrames s i) := by
    rw [touchFrames_busy] at hbody hacts
    obtain e | ⟨-, e⟩ := hended
    · rw [e] at hbody; exact hbody.2
    · rw [e] at hacts; exact hacts.2
  obtain ⟨hcsT, hcsD, hdc, hrst, hbefore⟩ := hstop
  exact ⟨rfl, rfl, rfl, hcsT, hcsD, hdc, hrst, hbefore⟩

/-! ### The panel is selected at every write (R101, R102) -/

/-- Every write of a list of events finds CS_D asserted, where CS_D is `v` before the first event. -/
def writesSelected : Select → List Event → Prop
  | _, [] => True
  | _, .line (.csD v) :: es => writesSelected v es
  | v, .line (.dc _) :: es => writesSelected v es
  | v, .line (.rst _) :: es => writesSelected v es
  | v, .line (.csT _) :: es => writesSelected v es
  | v, .write _ :: es => v = .asserted ∧ writesSelected v es
  | v, .xfer _ _ :: es => writesSelected v es
  | v, .sleep _ :: es => writesSelected v es

/-- Every write of a list of events finds CS_D asserted, whatever it was before the first event. -/
def selectsPanel (es : List Event) : Prop := ∀ v, writesSelected v es

/-- The panel is selected where the next event of such a list is a write. -/
theorem writesSelected.csD {c : Config} {h : Heard} {es fs : List Event} {bs : List Byte}
    (hsel : writesSelected h.csD fs) (hp : es ++ [.write bs] <+: fs) : (h.events c es).csD = .asserted := by
  obtain ⟨gs, rfl⟩ := hp
  induction es generalizing h with
  | nil => exact hsel.1
  | cons e es ih =>
    refine ih (h := h.event c e) ?_
    cases e with
    | line d => cases d <;> exact hsel
    | write bs => exact hsel.2
    | xfer bs rs => exact hsel
    | sleep n => exact hsel

theorem selectsPanel.nil : selectsPanel [] := fun _ => trivial

theorem writesSelected.append {v : Select} {es fs : List Event} (he : writesSelected v es) (hf : selectsPanel fs) :
    writesSelected v (es ++ fs) := by
  induction es generalizing v with
  | nil => exact hf v
  | cons e es ih =>
    cases e with
    | line d => cases d <;> exact ih he
    | write bs => exact ⟨he.1, ih he.2⟩
    | xfer bs rs => exact ih he
    | sleep n => exact ih he

theorem selectsPanel.append {es fs : List Event} (he : selectsPanel es) (hf : selectsPanel fs) :
    selectsPanel (es ++ fs) :=
  fun v => (he v).append hf

/-- A list of events that a range test can keep from being sent. -/
theorem selectsPanel.unless {es : List Event} (h : selectsPanel es) (p : Prop) [Decidable p] :
    selectsPanel (if p then [] else es) := by
  split_ifs
  · exact .nil
  · exact h

theorem commandFrame_selectsPanel (op : Byte) (pl : List Byte) : selectsPanel (commandFrame op pl) := by
  intro v
  cases pl <;> simp [commandFrame, writesSelected]

theorem dataFrame_selectsPanel (bs : List Byte) : selectsPanel (dataFrame bs) := fun _ => ⟨rfl, trivial⟩

theorem windowFrames_selectsPanel (c : Config) (x0 y0 x1 y1 : Half) : selectsPanel (windowFrames c x0 y0 x1 y1) :=
  ((commandFrame_selectsPanel _ _).append (commandFrame_selectsPanel _ _)).append (commandFrame_selectsPanel _ _)

theorem dataFrames_selectsPanel (splits : List (List Byte)) : selectsPanel (splits.flatMap dataFrame) := by
  induction splits with
  | nil => exact .nil
  | cons bs splits ih => exact (dataFrame_selectsPanel bs).append ih

theorem chunkFrames_selectsPanel (color : Half) (chunk n : Nat) : selectsPanel (chunkFrames color chunk n) := by
  obtain ⟨splits, hframes, -⟩ := chunkFrames_splits color chunk n
  rw [hframes]
  exact dataFrames_selectsPanel splits

theorem glyphFrames_selectsPanel (c : Config) (ch : Byte) (x y : Int) (fg bg : Half) :
    selectsPanel (glyphFrames c ch x y fg bg) :=
  (windowFrames_selectsPanel c _ _ _ _).append (dataFrame_selectsPanel _)

theorem textFrames_selectsPanel (c : Config) (x y : Int) (fg bg : Half) (text : List Byte) :
    selectsPanel (textFrames c x y fg bg text) := by
  induction text generalizing x with
  | nil => exact .nil
  | cons ch text ih => exact (glyphFrames_selectsPanel c ch x y fg bg).append (ih (x + 8))

theorem tableFrames_selectsPanel (es : List InitEntry) : selectsPanel (tableFrames es) := by
  induction es with
  | nil => exact .nil
  | cons e es ih => exact (commandFrame_selectsPanel e.op e.payload).append ih

theorem initFrames_selectsPanel (c : Config) : selectsPanel (initFrames c) :=
  have hsleep : selectsPanel [.sleep 120] := fun _ => trivial
  (((tableFrames_selectsPanel c.initTable).append (commandFrame_selectsPanel _ _)).append hsleep).append
    (commandFrame_selectsPanel _ _)

theorem resetPulse_selectsPanel (c : Config) : selectsPanel (resetPulse c) := by
  unfold resetPulse
  split_ifs
  · exact fun _ => trivial
  · exact .nil

/-- Every write of every instruction's display frames is made with the panel selected (R61, R101, R102). -/
theorem displayFrames_selectsPanel (c : Config) (i : Instr) : selectsPanel (displayFrames c i) := by
  cases i with
  | dReset => exact resetPulse_selectsPanel c
  | dInit => exact initFrames_selectsPanel c
  | dWrcmd op payload => exact commandFrame_selectsPanel op payload
  | dSetwin x0 y0 x1 y1 => exact (windowFrames_selectsPanel c _ _ _ _).unless _
  | dFillrect x y w h color =>
    exact ((windowFrames_selectsPanel c _ _ _ _).append (chunkFrames_selectsPanel color _ _)).unless _
  | dGlyph ch x y fg bg => exact (glyphFrames_selectsPanel c ch x y fg bg).unless _
  | dText x y fg bg text => exact (textFrames_selectsPanel c x y fg bg text).unless _
  | dTextd x y fg text => exact (textFrames_selectsPanel c x y fg c.bgDefault text).unless _
  | wireCaset x0 x1 => exact commandFrame_selectsPanel c.opCaset (be16 x0 ++ be16 x1)
  | wireRaset y0 y1 => exact commandFrame_selectsPanel c.opRaset (be16 y0 ++ be16 y1)
  | wireRamwr => exact commandFrame_selectsPanel c.opRamwr []
  | wireSlpout => exact commandFrame_selectsPanel c.opSlpout []
  | wireDispon => exact commandFrame_selectsPanel c.opDispon []
  | _ => exact .nil

/-! ### A fault in the display unit (R232) -/

/-- `u` is where a TransportFault leaves a display run that started in `s` and whose events are `fs` when every call
completes: at the write after the events of the trace, with CS_D and DC as those events leave them, and CS_T as it was
(R232). -/
structure StoppedAtWrite (s u : State) (fs : List Event) : Prop where
  csT : u.csT = s.csT
  before : ∃ (es : List Event) (bs : List Byte), u.trace = s.trace ++ es ∧ (es ++ [.write bs]) <+: fs
    ∧ u.csD = (s.heard.events s.cfg es).csD ∧ u.dc = (s.heard.events s.cfg es).dc

/-- Where a TransportFault ends a run: at one of its writes. -/
def Run.faultsAtWrite {α : Type} (s : State) (fs : List Event) : Run α → Prop
  | .ended st u => st = .transportFault → StoppedAtWrite s u fs
  | .done _ _ => True
  | .stalled _ => True
  | .noMeaning _ => True

/-- A run that stops later, after events that came before. -/
theorem StoppedAtWrite.after {s t u : State} {es gs : List Event} (hcfg : t.cfg = s.cfg)
    (hheard : t.heard = s.heard.events s.cfg es) (hcsT : t.csT = s.csT) (htrace : t.trace = s.trace ++ es)
    (h : StoppedAtWrite t u gs) : StoppedAtWrite s u (es ++ gs) := by
  obtain ⟨hT, fs, bs, hgrown, hnext, hD, hdc⟩ := h
  refine ⟨hT.trans hcsT, es ++ fs, bs, ?_, ?_, ?_, ?_⟩
  · rw [hgrown, htrace, List.append_assoc]
  · rw [List.append_assoc]; exact (List.prefix_append_right_inj es).2 hnext
  · rw [hD, hheard, hcfg, Heard.events_append]
  · rw [hdc, hheard, hcfg, Heard.events_append]

/-- What events do to the lines does not depend on the panel. -/
theorem Heard.events_lines (c : Config) {h k : Heard} (es : List Event) (hD : h.csD = k.csD) (hdc : h.dc = k.dc) :
    (h.events c es).csD = (k.events c es).csD ∧ (h.events c es).dc = (k.events c es).dc := by
  induction es generalizing h k with
  | nil => exact ⟨hD, hdc⟩
  | cons e es ih =>
    cases e with
    | line d =>
      cases d with
      | csD v => exact ih rfl hdc
      | dc v => exact ih hD rfl
      | rst v => exact ih hD hdc
      | csT v => exact ih hD hdc
    | write bs => exact ih hD hdc
    | xfer bs rs => exact ih hD hdc
    | sleep n => exact ih hD hdc

/-- The panel that a run starts with has no part in where it stops. -/
theorem StoppedAtWrite.of_withPanel {s u : State} {p : Panel} {fs : List Event}
    (h : StoppedAtWrite { s with panel := p } u fs) : StoppedAtWrite s u fs := by
  obtain ⟨hT, es, bs, hgrown, hnext, hD, hdc⟩ := h
  obtain ⟨eD, edc⟩ := Heard.events_lines s.cfg (h := ⟨s.csD, s.dc, p⟩) (k := s.heard) es rfl rfl
  exact ⟨hT, es, bs, hgrown, hnext, hD.trans eD, hdc.trans edc⟩

theorem Run.faultsAtWrite.imp {α : Type} {s t : State} {fs gs : List Event} {r : Run α}
    (h : r.faultsAtWrite t gs) (himp : ∀ u, StoppedAtWrite t u gs → StoppedAtWrite s u fs) : r.faultsAtWrite s fs := by
  cases r with
  | done a u => trivial
  | ended st u => exact fun hst => himp u (h hst)
  | stalled u => trivial
  | noMeaning x => trivial

/-- What is done with the value and the state of a run that is done has no part in where one is ended. -/
theorem Run.faultsAtWrite.thenDone {α β : Type} {s : State} {fs : List Event} {r : Run α} {f : α → β}
    {g : State → State} (h : r.faultsAtWrite s fs) : (r.andThen fun a t => .done (f a) (g t)).faultsAtWrite s fs := by
  cases r with
  | done a t => trivial
  | ended st u => exact h
  | stalled u => trivial
  | noMeaning x => trivial

/-- A display primitive that is done leaves CS_T and appends its event (R13). -/
theorem runAct_done_trace {a : Act} (hd : a.display = true) {s t : State} {r : List (List Byte)}
    (h : runAct a s = .done r t) : t.csT = s.csT ∧ t.trace = s.trace ++ actEvents [a] := by
  cases a with
  | line d =>
    cases h
    cases d with
    | csD v => exact ⟨rfl, rfl⟩
    | dc v => exact ⟨rfl, rfl⟩
    | rst v => cases hd
    | csT v => cases hd
  | sleep n => cases h; exact ⟨rfl, rfl⟩
  | work w => cases h; exact ⟨rfl, (List.append_nil _).symm⟩
  | xfer bs => cases hd
  | write bs =>
    have hw : busWrite bs s = .done r t := h
    obtain e | e | ⟨k, e | e⟩ := busWrite_cases bs s
    all_goals
      rw [e] at hw
      cases hw
    exact ⟨rfl, rfl⟩

/-- A display primitive that is ended is a write, of whose bytes a prefix was delivered (R62, R231). -/
theorem runAct_ended {a : Act} (hd : a.display = true) {s u : State} {st : Status} (h : runAct a s = .ended st u) :
    ∃ bs k, a = .write bs ∧ u = deliver (bs.take k) (usedAnswer s) := by
  cases a with
  | line d => cases h
  | sleep n => cases h
  | work w => cases h
  | xfer bs => cases hd
  | write bs =>
    have hw : busWrite bs s = .ended st u := h
    obtain e | e | ⟨k, e | e⟩ := busWrite_cases bs s
    all_goals
      rw [e] at hw
      cases hw
    exact ⟨bs, k, rfl, rfl⟩

/-- A list of display primitives faults at one of its writes. -/
theorem runActs_faultsAtWrite {acts : List Act} (hd : allDisplay acts) (s : State) :
    (runActs acts s).faultsAtWrite s (actEvents acts) := by
  induction acts generalizing s with
  | nil => trivial
  | cons a as ih =>
    have hfirst : a.display = true := hd a (List.mem_cons_self ..)
    have hsplit : actEvents (a :: as) = actEvents [a] ++ actEvents as := actEvents_append [a] as
    rw [hsplit, runActs]
    cases hr : runAct a s with
    | done r t =>
      obtain ⟨hcfg, hheard⟩ := runAct_done_heard hfirst hr
      obtain ⟨hcsT, htrace⟩ := runAct_done_trace hfirst hr
      have hrest := ih (fun b hb => hd b (List.mem_cons_of_mem _ hb)) t
      exact (hrest.thenDone (f := (r ++ ·)) (g := id)).imp fun _ => .after hcfg hheard hcsT htrace
    | ended st u =>
      obtain ⟨bs, k, rfl, rfl⟩ := runAct_ended hfirst hr
      exact fun _ => ⟨rfl, [], bs, (List.append_nil _).symm, List.prefix_append _ _, rfl, rfl⟩
    | stalled u => trivial
    | noMeaning x => trivial

theorem runReturning_faultsAtWrite {acts : List Act} (hd : allDisplay acts) (v : Result) (s : State) :
    (runReturning acts v s).faultsAtWrite s (actEvents acts) :=
  (runActs_faultsAtWrite hd s).thenDone (f := fun _ => v) (g := id)

/-- An operation whose range test fails stops at no write; one whose test passes stops at a write of its events. -/
theorem Run.faultsAtWrite.unless {s : State} {fs : List Event} {r : Run Result} (h : r.faultsAtWrite s fs) (p : Prop)
    [Decidable p] : (if p then raiseOperandRange s else r).faultsAtWrite s (if p then [] else fs) := by
  split_ifs
  · exact nofun
  · exact h

theorem textBody_faultsAtWrite (x y : Int) (fg bg : Half) (text : List Byte) (s : State) :
    (textBody x y fg bg text s).faultsAtWrite s
      (if textBad x y text.length then [] else textFrames s.cfg x y fg bg text) := by
  have h := runReturning_faultsAtWrite (textLoop_display s.cfg x y fg bg 0 text) .none s
  rw [actEvents_textLoop, Int.natCast_zero, mul_zero, add_zero] at h
  exact h.unless _

/-- The body of every display operation: where a TransportFault leaves it (R141 to R184, R232). -/
theorem hostBody_faultsAtWrite {i : Instr} (ht : i.target = .panel) (s : State) :
    (hostBody i s).faultsAtWrite s (displayFrames s.cfg i) := by
  cases i with
  | dReset =>
    cases hline : s.cfg.hasRst with
    | true => rw [hostBody, runReturning, runActs_resetActs hline]; trivial
    | false => rw [hostBody, runReturning, runActs_resetActs_noLine hline]; trivial
  | dInit =>
    have h := runActs_faultsAtWrite (initActs_display s.cfg) { s with panel := s.panel.beginInit }
    rw [actEvents_initActs] at h
    exact (h.imp fun _ => .of_withPanel).thenDone (f := fun _ => Result.none)
      (g := fun u => { u with panel := u.panel.markReady })
  | dWrcmd op payload =>
    have h := runReturning_faultsAtWrite (cmdXact_display op payload) .none
      { s with panel := s.panel.noteCommand s.cfg op }
    rw [actEvents_cmdXact] at h
    exact h.imp fun _ => .of_withPanel
  | dSetwin x0 y0 x1 y1 =>
    have h := runReturning_faultsAtWrite (setWindow_display s.cfg ⟨x0, y0, x1, y1⟩) .none s
    rw [actEvents_setWindow] at h
    exact h.unless _
  | dFillrect x y w h color =>
    rw [← actEvents_fillActs]
    exact runReturning_faultsAtWrite (fillActs_display s.cfg x y w h color) .none s
  | dGlyph ch x y fg bg =>
    have h := runReturning_faultsAtWrite (drawGlyph_display s.cfg ch x y fg bg) .none s
    rw [actEvents_drawGlyph] at h
    exact h.unless _
  | dText x y fg bg text => exact textBody_faultsAtWrite x y fg bg text s
  | dTextd x y fg text => exact textBody_faultsAtWrite x y fg s.cfg.bgDefault text s
  | tSample => cases ht
  | tGettouch => cases ht
  | _ => trivial

/-- The events of a wire command of the panel (R101). -/
theorem actEvents_frameActs {i : Instr} (ht : i.target = .panel) (hi : i.isHost = false) (c : Config) :
    actEvents (frameActs c i) = displayFrames c i := by
  cases i with
  | wireCaset x0 x1 => exact actEvents_cmdXact c.opCaset _
  | wireRaset y0 y1 => exact actEvents_cmdXact c.opRaset _
  | wireRamwr => exact actEvents_cmdXact c.opRamwr []
  | wireSlpout => exact actEvents_cmdXact c.opSlpout []
  | wireDispon => exact actEvents_cmdXact c.opDispon []
  | wireConvX => cases ht
  | wireConvY => cases ht
  | _ => cases hi

/-- Settles O38: the run that ended stopped at a write of its display frames, where the panel is selected, and `end(s)`
leaves the lines and the trace. -/
theorem displayFaultStopsAtTheFailingCall : Obligations.DisplayFaultStopsAtTheFailingCall := by
  intro i s t htarget hs h ht
  obtain ⟨u, hended, rfl⟩ := exec_sets_fault h hs ht
  have hstop : StoppedAtWrite { s with busy := true } u (displayFrames s.cfg i) := by
    obtain e | ⟨hi, e⟩ := hended
    · have hbody := hostBody_faultsAtWrite htarget { s with busy := true }
      rw [e] at hbody
      exact hbody rfl
    · have hacts := runActs_faultsAtWrite (frameActs_display htarget s.cfg) { s with busy := true }
      rw [e, actEvents_frameActs htarget hi] at hacts
      exact hacts rfl
  obtain ⟨hcsT, es, bs, htrace, hnext, hcsD, hdc⟩ := hstop
  have hselected : u.csD = .asserted :=
    hcsD.trans ((displayFrames_selectsPanel s.cfg i s.csD).csD (h := s.heard) hnext)
  exact ⟨rfl, rfl, rfl, hselected, hcsT, es, bs, htrace, hnext, hdc⟩

end Sys2Proof.Machine

/-! ## The proofs of the statements of spec/70_reset_and_hazards.md -/

namespace Sys2Proof.Machine

/-! ### While FAULT = 1 (R272) -/

/-- A list of primitives with a transport call among them. -/
def callsTransport (acts : List Act) : Prop := ∃ a ∈ acts, a.transport = true

theorem callsTransport.mono {as bs : List Act} (h : callsTransport as) (hsub : as ⊆ bs) : callsTransport bs := by
  obtain ⟨a, ha, hcall⟩ := h
  exact ⟨a, hsub ha, hcall⟩

theorem cmdXact_callsTransport (op : Byte) (pl : List Byte) : callsTransport (cmdXact op pl) :=
  ⟨.write [op], by simp [cmdXact], rfl⟩

theorem convert_callsTransport (op : Byte) : callsTransport (convert op) :=
  ⟨.xfer [op, 0x00, 0x00], by simp [convert], rfl⟩

theorem initActs_callsTransport (c : Config) : callsTransport (initActs c) :=
  (cmdXact_callsTransport c.opDispon []).mono (List.subset_append_right _ _)

theorem setWindow_callsTransport (c : Config) (w : Window) : callsTransport (setWindow c w) :=
  (cmdXact_callsTransport c.opRamwr []).mono (List.subset_append_right _ _)

theorem fillActs_callsTransport {c : Config} (hc : c.valid = true) (x y w h : Int) (color : Half) :
    callsTransport (fillActs c x y w h color) := by
  rw [fillActs_eq hc]
  exact (setWindow_callsTransport c _).mono (List.subset_append_left _ _)

theorem drawGlyph_callsTransport (c : Config) (ch : Byte) (x y : Int) (fg bg : Half) :
    callsTransport (drawGlyph c ch x y fg bg) :=
  (setWindow_callsTransport c _).mono (List.subset_append_left _ _)

/-- The primitives of a text that is not empty begin with those of its first glyph (R183). -/
theorem textLoop_callsTransport (c : Config) (x y : Int) (fg bg : Half) (i : Nat) (ch : Byte) (text : List Byte) :
    callsTransport (textLoop c x y fg bg i (ch :: text)) :=
  (drawGlyph_callsTransport c ch _ y fg bg).mono
    (List.subset_cons_of_subset _ (List.subset_append_left _ _))

theorem sampleActs_callsTransport (c : Config) : callsTransport (sampleActs c) :=
  (convert_callsTransport c.opConvX).mono (List.subset_append_left _ _)

/-- Every wire command is one transaction with the panel or the digitizer (R101, R113). -/
theorem frameActs_callsTransport {i : Instr} (hi : i.isHost = false) (c : Config) : callsTransport (frameActs c i) := by
  cases i with
  | wireCaset x0 x1 => exact cmdXact_callsTransport c.opCaset _
  | wireRaset y0 y1 => exact cmdXact_callsTransport c.opRaset _
  | wireRamwr => exact cmdXact_callsTransport c.opRamwr []
  | wireSlpout => exact cmdXact_callsTransport c.opSlpout []
  | wireDispon => exact cmdXact_callsTransport c.opDispon []
  | wireConvX => exact convert_callsTransport c.opConvX
  | wireConvY => exact convert_callsTransport c.opConvY
  | _ => cases hi

/-- A run of primitives and what follows it have no meaning while FAULT = 1 if a transport call is among them. -/
theorem runActs_andThen_afterFault {α : Type} {acts : List Act} {s : State} (hf : s.fault = true)
    (ht : callsTransport acts) (k : List (List Byte) → State → Run α) :
    (runActs acts s).andThen k = .noMeaning .transportAfterFault := by
  rw [runActs_afterFault hf ht, andThen_noMeaning]

theorem sample_afterFault {s : State} (hf : s.fault = true) : sample s = .noMeaning .transportAfterFault :=
  runActs_andThen_afterFault hf (sampleActs_callsTransport s.cfg) _

/-- A text that passes the range test and is not empty has no meaning while FAULT = 1. -/
theorem textBody_afterFault {x y : Int} {ch : Byte} {text : List Byte} {s : State} (hf : s.fault = true)
    (hgood : textBad x y (ch :: text).length = false) (fg bg : Half) :
    textBody x y fg bg (ch :: text) s = .noMeaning .transportAfterFault := by
  rw [textBody, hgood, if_neg Bool.false_ne_true]
  exact runActs_andThen_afterFault hf (textLoop_callsTransport _ x y fg bg 0 ch text) _

/-- A host operation whose body has no meaning is refused (R140). -/
theorem exec_host_noMeaning {i : Instr} {s : State} {r : Refusal} (hi : i.isHost = true) (hb : s.busy = false)
    (h : hostBody i { s with busy := true } = .noMeaning r) : exec i s = .refused r := by
  rw [exec_host hi, operation_noMeaning hb h]

theorem frameAlone_noMeaning {acts : List Act} {s : State} {r : Refusal} (hb : s.busy = false)
    (h : runActs acts { s with busy := true } = .noMeaning r) : frameAlone acts s = .refused r := by
  simp [frameAlone, hb, h]

/-- Settles O41: the first run of primitives of each operation's body, once its range test has passed, has a transport
call. -/
theorem transportRefusedAfterFault : Obligations.TransportRefusedAfterFault := by
  intro s hb hf
  have hft : ({ s with busy := true } : State).fault = true := hf
  refine ⟨⟨?init, ?sample, ?gettouch⟩, fun op pl => ?wrcmd, fun x0 y0 x1 y1 => ?setwin,
    fun hc x y w h color => ?fillrect, fun ch x y fg bg text hx hxn hy hy7 => ⟨?glyph, ?text, ?textd⟩,
    fun i hi => ?wire⟩
  case wire =>
    rw [exec_frame hi]
    exact frameAlone_noMeaning hb (runActs_afterFault hft (frameActs_callsTransport hi s.cfg))
  all_goals refine exec_host_noMeaning rfl hb ?_
  case init =>
    rw [hostBody, initBody]
    exact runActs_andThen_afterFault (by exact hf) (initActs_callsTransport s.cfg) _
  case sample => rw [hostBody, sample_afterFault hft, andThen_noMeaning]
  case gettouch => rw [hostBody, touchBody, sample_afterFault hft, andThen_noMeaning]
  case wrcmd =>
    rw [hostBody, runReturning]
    exact runActs_andThen_afterFault (by exact hf) (cmdXact_callsTransport op pl) _
  case setwin =>
    have hgood : setwinBad x0.toNat y0.toNat x1.toNat y1.toNat = false := by simp [setwinBad, boundBad_toNat]
    rw [hostBody, hgood, if_neg Bool.false_ne_true]
    exact runActs_andThen_afterFault hft (setWindow_callsTransport s.cfg _) _
  case fillrect => exact runActs_andThen_afterFault hft (fillActs_callsTransport hc x y w h color) _
  case glyph =>
    have hgood : glyphBad x y = false := glyphBad_eq_false_iff.2 ⟨⟨hx, by omega⟩, hy, hy7⟩
    rw [hostBody, hgood, if_neg Bool.false_ne_true]
    exact runActs_andThen_afterFault hft (drawGlyph_callsTransport s.cfg ch x y fg bg) _
  case text => exact textBody_afterFault hft (textBad_succ_eq_false_iff.2 ⟨⟨hx, hxn⟩, hy, hy7⟩) fg bg
  case textd => exact textBody_afterFault hft (textBad_succ_eq_false_iff.2 ⟨⟨hx, hxn⟩, hy, hy7⟩) fg s.cfg.bgDefault

/-! ### Sleeps (R141, R142, R204, R209, R268, R270) -/

theorem sleepTotal_append (es fs : List Event) : sleepTotal (es ++ fs) = sleepTotal es + sleepTotal fs := by
  induction es with
  | nil => simp [sleepTotal]
  | cons e es ih => cases e <;> simp [sleepTotal, ih, Nat.add_assoc]

@[simp] theorem sleepTotal_commandFrame (op : Byte) (pl : List Byte) : sleepTotal (commandFrame op pl) = 0 := by
  cases pl <;> rfl

@[simp] theorem sleepTotal_tableFrames (es : List InitEntry) : sleepTotal (tableFrames es) = 0 := by
  induction es with
  | nil => rfl
  | cons e es ih => rw [tableFrames, sleepTotal_append, sleepTotal_commandFrame, ih]

theorem sleepTotal_initFrames (c : Config) : sleepTotal (initFrames c) = 120 := by
  simp [initFrames, sleepTotal_append, sleepTotal]

theorem sleepTotal_resetPulse (c : Config) : sleepTotal (resetPulse c) = if c.hasRst then 100 else 0 := by
  unfold resetPulse
  split_ifs <;> rfl

@[simp] theorem sleepTotal_sampleFrames (c : Config) (rsX rsY : List Byte) : sleepTotal (sampleFrames c rsX rsY) = 0 :=
  rfl

@[simp] theorem xferCount_sampleFrames (c : Config) (rsX rsY : List Byte) : xferCount (sampleFrames c rsX rsY) = 2 :=
  rfl

/-- The events of T.GETTOUCH when its first sample is not (0, 0): three samples, a sleep between each two (R204). -/
def settledFrames (s : State) : List Event :=
  sampleFrames s.cfg (answerBytes s 0) (answerBytes s 1) ++ [.sleep 2]
    ++ sampleFrames s.cfg (answerBytes s 2) (answerBytes s 3) ++ [.sleep 2]
    ++ sampleFrames s.cfg (answerBytes s 4) (answerBytes s 5)

theorem threeSamples_trace (s : State) : (threeSamples s).trace = s.trace ++ settledFrames s := by
  simp only [threeSamples, settledFrames, List.append_assoc]

theorem sleepTotal_settledFrames (s : State) : sleepTotal (settledFrames s) = 4 := by
  simp [settledFrames, sleepTotal_append, sleepTotal]

theorem xferCount_settledFrames (s : State) : xferCount (settledFrames s) = 6 := by
  simp [settledFrames, xferCount_append, xferCount]

/-- Settles O60: no frame sleeps, so the sleeps are those between the frames. -/
theorem sleepLowerBounds : Obligations.SleepLowerBounds := by
  refine ⟨fun c => ⟨sleepTotal_resetPulse c, sleepTotal_initFrames c⟩, ?_⟩
  rintro s t ⟨hb, hf, he⟩ h
  by_cases h0 : answerSample s 0 = (0, 0)
  · have he2 : (s.env.take 2).all Answer.completes = true := completes_drop (k := 0) he (by omega)
    rw [touchAbsentCompletes s ⟨hb, hf, he2⟩ h0] at h
    cases h
    exact ⟨_, rfl, fun hne => absurd h0 hne, fun _ => ⟨sleepTotal_sampleFrames .., xferCount_sampleFrames ..⟩⟩
  · rw [exec_host_done (i := .tGettouch) rfl hb (touchBody_present (s := { s with busy := true }) hf he h0)] at h
    cases h
    exact ⟨_, (endOp_trace ..).trans (threeSamples_trace _),
      fun _ => ⟨sleepTotal_settledFrames _, xferCount_settledFrames _⟩, fun h0' => absurd h0' h0⟩

end Sys2Proof.Machine
